-- ==== Sys2Proof/Word.lean ====
section
/-!
DEFINITION. The word types of NH-CORE (00_scope.md rules R8, R9): bytes, 32-bit descriptor and register words, and the size
of the address space. Byte-order helpers stand in Decode.lean.
-/

namespace Sys2Proof

/-- One byte of memory, of a sponge state or of a block buffer (00 R9). -/
abbrev Byte := BitVec 8

/-- A descriptor word, a host register, a memory address: 32 bits (30 R90, 10 R24, 20 R60). -/
abbrev Word := BitVec 32

/-- A Keccak lane (40 R130). -/
abbrev Lane := BitVec 64

/-- A descriptor as its 32 bytes in ascending address order (30 R90). -/
abbrev DescBytes := Vector Byte 32

/-- A descriptor as its eight words W[0..7] (30 R90). -/
abbrev Desc := Vector Word 8

/-- The number of byte addresses, 2^32 (20 R60). -/
def addrSpace : Nat := 4294967296

end Sys2Proof
end

