-- ==== Sys2Proof/Syntax.lean ====
section
/-!
DEFINITION. The commands of NH-CORE: one constructor per row of spec/opcode_table.json (30_encoding.md rule R94), with the
operands of rule R93. Pseudo-instructions (R99-R103) are other spellings of these commands and have no constructor.
-/

namespace Sys2Proof

/-- An optional byte range of INIT_BLAKE2S/INIT_BLAKE2B: the FLAGS bit that says whether it is present, and the address and
length words it uses (30 R93, F-INITB). -/
structure OptRange where
  present : Bool
  addr    : Word
  len     : Word
  deriving DecidableEq, Repr

/-- The option that is not given: flag clear, both words zero (30 R93). -/
def OptRange.absent : OptRange := { present := false, addr := 0, len := 0 }

/-- The twelve commands with their operands (30 R92-R94). -/
inductive Instr where
  /-- 0x01, 45 R273 -/
  | halt
  /-- 0x02, 45 R274 -/
  | nop
  /-- 0x10, 41 R160 -/
  | initSponge (ctx rate suffix rounds : Byte) (xof : Bool) (outlen : Word)
  /-- 0x11, 42 R205 -/
  | initBlake2s (ctx : Byte) (outlen : Word) (key salt pers : OptRange)
  /-- 0x12, 42 R206 -/
  | initBlake2b (ctx : Byte) (outlen : Word) (key salt pers : OptRange)
  /-- 0x20, 44 R241 -/
  | update (ctx : Byte) (addr len : Word)
  /-- 0x30, 44 R243 -/
  | digest (ctx : Byte) (addr : Word)
  /-- 0x31, 44 R244 -/
  | digestInto (ctx : Byte) (addr len : Word)
  /-- 0x32, 44 R247 -/
  | xof (ctx : Byte) (addr len : Word)
  /-- 0x40, 44 R248 -/
  | clone (src dst : Byte)
  /-- 0x41, 44 R249 -/
  | destroy (ctx : Byte)
  /-- 0x50, 40 R142 -/
  | keccakP (rounds src dst : Word)
  deriving DecidableEq, Repr

/-- The twelve opcodes of the opcode map (30 R94). -/
inductive Opcode where
  | halt | nop | initSponge | initBlake2s | initBlake2b | update | digest | digestInto | xof | clone | destroy | keccakP
  deriving DecidableEq, Repr

/-- Why a descriptor is no command: the two details of ILLEGAL_COMMAND (30 R95, 60 R301). -/
inductive DecodeError where
  /-- OPC is not in the opcode map -/
  | unknownOpcode
  /-- a field the opcode does not use is non-zero -/
  | reservedNonzero
  deriving DecidableEq, Repr

end Sys2Proof
end

