-- ==== Sys2Proof/WellFormed.lean ====
section
/-!
DEFINITION. Which terms of Instr some descriptor encodes. Every field is as wide as the descriptor field that carries it, so
the one thing a term can get wrong is an absent option with a non-zero address or length word, which 30_encoding.md rules R93
and R95 make a decode error.
-/

namespace Sys2Proof

/-- An option that is not present has zero words (30 R93). -/
def OptRange.wellFormed (r : OptRange) : Bool := r.present || (r.addr == 0 && r.len == 0)

/-- A command that some descriptor encodes: each option of an INIT_BLAKE2S/INIT_BLAKE2B is well formed (30 R93, R95). -/
def Instr.wellFormed : Instr → Bool
  | .halt => true
  | .nop => true
  | .initSponge _ _ _ _ _ _ => true
  | .initBlake2s _ _ key salt pers => key.wellFormed && salt.wellFormed && pers.wellFormed
  | .initBlake2b _ _ key salt pers => key.wellFormed && salt.wellFormed && pers.wellFormed
  | .update _ _ _ => true
  | .digest _ _ => true
  | .digestInto _ _ _ => true
  | .xof _ _ _ => true
  | .clone _ _ => true
  | .destroy _ => true
  | .keccakP _ _ _ => true

end Sys2Proof
end

