-- ==== Sys2Proof/Decode.lean ====
section
/-!
DEFINITION. Byte order (20_memory.md rule R64), the decoder of 30_encoding.md rules R90-R96 (total on any 32 bytes), and the
encoder written from the same tables.
-/

namespace Sys2Proof

/-- The number whose byte k is `bs[k]` (00 R9, little-endian). -/
def leNat : List Byte → Nat
  | [] => 0
  | b :: bs => b.toNat + 256 * leNat bs

/-- `le_w` of a byte string (00 R9). -/
def leWord (w : Nat) (bs : List Byte) : BitVec w := BitVec.ofNat w (leNat bs)

/-- Byte k of `bytes_le_w(v)`: bits 8k+7..8k (00 R9). -/
def leByte {w : Nat} (v : BitVec w) (k : Nat) : Byte := v.extractLsb' (8 * k) 8

/-- `bytes_le_w(v)`, w/8 bytes (00 R9). -/
def leBytes {w : Nat} (v : BitVec w) : List Byte := (List.range (w / 8)).map (leByte v)

/-- The eight words of a descriptor: `W[k] = le_32` of its bytes 4k..4k+3 (30 R90). -/
def Desc.ofBytes (bs : DescBytes) : Desc :=
  Vector.ofFn fun k => leWord 32 [bs[4 * k.val], bs[4 * k.val + 1], bs[4 * k.val + 2], bs[4 * k.val + 3]]

/-- The 32 bytes of a descriptor (30 R90). -/
def Desc.toBytes (d : Desc) : DescBytes :=
  Vector.ofFn fun j => leByte (d[j.val / 4]'(by omega)) (j.val % 4)

/-! The fields of rule R91. -/

/-- OPC, W0[7:0] (30 R91). -/
def Desc.opc (d : Desc) : Byte := d[0].extractLsb' 0 8

/-- CTX, W0[15:8] (30 R91). -/
def Desc.ctx (d : Desc) : Byte := d[0].extractLsb' 8 8

/-- CTX2, W0[23:16] (30 R91). -/
def Desc.ctx2 (d : Desc) : Byte := d[0].extractLsb' 16 8

/-- FLAGS[i], bit 24+i of W0 (30 R91). -/
def Desc.flag (d : Desc) (i : Nat) : Bool := d[0].getLsbD (24 + i)

/-- Option i of an F-INITB descriptor: FLAGS[i] with the words (A_i, L_i) = (W[2+2i], W[3+2i]) (30 R93). -/
def Desc.option (d : Desc) (i : Fin 3) : OptRange :=
  { present := d.flag i, addr := d[2 + 2 * i.val], len := d[3 + 2 * i.val] }

/-- The opcode map's values (30 R94). -/
def Opcode.toByte : Opcode → Byte
  | .halt => 0x01
  | .nop => 0x02
  | .initSponge => 0x10
  | .initBlake2s => 0x11
  | .initBlake2b => 0x12
  | .update => 0x20
  | .digest => 0x30
  | .digestInto => 0x31
  | .xof => 0x32
  | .clone => 0x40
  | .destroy => 0x41
  | .keccakP => 0x50

/-- The twelve opcodes in the map's order (30 R94). -/
def Opcode.all : List Opcode :=
  [.halt, .nop, .initSponge, .initBlake2s, .initBlake2b, .update, .digest, .digestInto, .xof, .clone, .destroy, .keccakP]

/-- The opcode an OPC byte selects; the other 244 values select none (30 R94, R96). -/
def Opcode.ofByte? (b : Byte) : Option Opcode := Opcode.all.find? fun op => op.toByte == b

/-- `mask(opc)`: the bits of W0 the opcode fixes (30 R94). -/
def Opcode.mask : Opcode → Word
  | .halt => 0xFFFFFFFF
  | .nop => 0xFFFFFFFF
  | .initSponge => 0xFFFF00FF
  | .initBlake2s => 0xF8FF00FF
  | .initBlake2b => 0xF8FF00FF
  | .update => 0xFFFF00FF
  | .digest => 0xFFFF00FF
  | .digestInto => 0xFFFF00FF
  | .xof => 0xFFFF00FF
  | .clone => 0xFF0000FF
  | .destroy => 0xFFFF00FF
  | .keccakP => 0xFFFFFFFF

/-- `zero_list(opc)`: the words that must be zero whole (30 R94). -/
def Opcode.zeroWords : Opcode → List (Fin 8)
  | .halt => [1, 2, 3, 4, 5, 6, 7]
  | .nop => [1, 2, 3, 4, 5, 6, 7]
  | .initSponge => [2, 4, 5, 6, 7]
  | .initBlake2s => []
  | .initBlake2b => []
  | .update => [1, 4, 5, 6, 7]
  | .digest => [1, 3, 4, 5, 6, 7]
  | .digestInto => [1, 4, 5, 6, 7]
  | .xof => [1, 4, 5, 6, 7]
  | .clone => [1, 2, 3, 4, 5, 6, 7]
  | .destroy => [1, 2, 3, 4, 5, 6, 7]
  | .keccakP => [3, 5, 6, 7]

/-- What else must be zero: IMM[31:25] of INIT_SPONGE, and the words of every clear FLAGS bit of INIT_BLAKE2S/B (30 R95). -/
def Opcode.extraReserved (op : Opcode) (d : Desc) : Bool :=
  match op with
  | .initSponge => d[1].extractLsb' 25 7 != 0
  | .initBlake2s => [0, 1, 2].any fun i => !(d.option i).wellFormed
  | .initBlake2b => [0, 1, 2].any fun i => !(d.option i).wellFormed
  | _ => false

/-- The `reserved` test of rule R95. -/
def Opcode.reserved (op : Opcode) (d : Desc) : Bool :=
  (d[0] &&& op.mask &&& 0xFFFFFF00) != 0 || op.zeroWords.any (fun k => d[k] != 0) || op.extraReserved d

/-- The command an opcode reads from a descriptor's fields (30 R93). -/
def Opcode.command (op : Opcode) (d : Desc) : Instr :=
  match op with
  | .halt => .halt
  | .nop => .nop
  | .initSponge =>
    .initSponge d.ctx (d[1].extractLsb' 0 8) (d[1].extractLsb' 8 8) (d[1].extractLsb' 16 8) (d[1].getLsbD 24) d[3]
  | .initBlake2s => .initBlake2s d.ctx d[1] (d.option 0) (d.option 1) (d.option 2)
  | .initBlake2b => .initBlake2b d.ctx d[1] (d.option 0) (d.option 1) (d.option 2)
  | .update => .update d.ctx d[2] d[3]
  | .digest => .digest d.ctx d[2]
  | .digestInto => .digestInto d.ctx d[2] d[3]
  | .xof => .xof d.ctx d[2] d[3]
  | .clone => .clone d.ctx d.ctx2
  | .destroy => .destroy d.ctx
  | .keccakP => .keccakP d[1] d[2] d[4]

/-- The decoder on words: the opcode check comes first, then the reserved fields (30 R95). -/
def decodeDesc (d : Desc) : Except DecodeError Instr :=
  match Opcode.ofByte? d.opc with
  | none => .error .unknownOpcode
  | some op => if op.reserved d then .error .reservedNonzero else .ok (op.command d)

/-- The decoder, total on any 32 bytes (00 R18, 30 R95). -/
def decode (bs : DescBytes) : Except DecodeError Instr := decodeDesc (Desc.ofBytes bs)

/-- The opcode of a command (30 R94). -/
def Instr.opcode : Instr → Opcode
  | .halt => .halt
  | .nop => .nop
  | .initSponge _ _ _ _ _ _ => .initSponge
  | .initBlake2s _ _ _ _ _ => .initBlake2s
  | .initBlake2b _ _ _ _ _ => .initBlake2b
  | .update _ _ _ => .update
  | .digest _ _ => .digest
  | .digestInto _ _ _ => .digestInto
  | .xof _ _ _ => .xof
  | .clone _ _ => .clone
  | .destroy _ => .destroy
  | .keccakP _ _ _ => .keccakP

/-- W0 = FLAGS | CTX2 | CTX | OPC from the top (30 R91). -/
def headWord (op : Opcode) (ctx ctx2 flags : Byte) : Word := flags ++ ctx2 ++ ctx ++ op.toByte

/-- FLAGS of an F-INITB descriptor (30 R93). -/
def optFlags (key salt pers : OptRange) : Byte :=
  (0 : BitVec 5) ++ BitVec.ofBool pers.present ++ BitVec.ofBool salt.present ++ BitVec.ofBool key.present

/-- IMM of INIT_SPONGE: RATE | SUFFIX<<8 | ROUNDS<<16 | XOF<<24 (30 R93, R100). -/
def spongeImm (rate suffix rounds : Byte) (xof : Bool) : Word :=
  (0 : BitVec 7) ++ BitVec.ofBool xof ++ rounds ++ suffix ++ rate

/-- The encoder: the descriptor words of a command, all unlisted fields zero (30 R91-R94, R98). -/
def encode : Instr → Desc
  | .halt => #v[headWord .halt 0 0 0, 0, 0, 0, 0, 0, 0, 0]
  | .nop => #v[headWord .nop 0 0 0, 0, 0, 0, 0, 0, 0, 0]
  | .initSponge c rate suffix rounds xof outlen =>
    #v[headWord .initSponge c 0 0, spongeImm rate suffix rounds xof, 0, outlen, 0, 0, 0, 0]
  | .initBlake2s c outlen key salt pers =>
    #v[headWord .initBlake2s c 0 (optFlags key salt pers), outlen, key.addr, key.len, salt.addr, salt.len, pers.addr, pers.len]
  | .initBlake2b c outlen key salt pers =>
    #v[headWord .initBlake2b c 0 (optFlags key salt pers), outlen, key.addr, key.len, salt.addr, salt.len, pers.addr, pers.len]
  | .update c addr len => #v[headWord .update c 0 0, 0, addr, len, 0, 0, 0, 0]
  | .digest c addr => #v[headWord .digest c 0 0, 0, addr, 0, 0, 0, 0, 0]
  | .digestInto c addr len => #v[headWord .digestInto c 0 0, 0, addr, len, 0, 0, 0, 0]
  | .xof c addr len => #v[headWord .xof c 0 0, 0, addr, len, 0, 0, 0, 0]
  | .clone src dst => #v[headWord .clone src dst 0, 0, 0, 0, 0, 0, 0, 0]
  | .destroy c => #v[headWord .destroy c 0 0, 0, 0, 0, 0, 0, 0, 0]
  | .keccakP rounds src dst => #v[headWord .keccakP 0 0 0, rounds, src, 0, dst, 0, 0, 0]

/-- The 32 bytes a command is stored as (30 R90). -/
def encodeBytes (i : Instr) : DescBytes := (encode i).toBytes

/-- The bytes of an instruction numbered as spec/opcode_table.json numbers its bits: bit 8j+b of `w` is bit b of byte j, bits
from `nbits` up are zero (30 R91). -/
def tableBytes (nbits w : Nat) : DescBytes :=
  Vector.ofFn fun j => BitVec.ofNat 8 ((w % 2 ^ nbits) / 2 ^ (8 * j.val))

/-- The command the decoder reads from a word of the opcode table (for the host). -/
def decodeTableWord (nbits w : Nat) : Option Instr := (decode (tableBytes nbits w)).toOption

end Sys2Proof
end

