-- ==== Sys2Proof/Config.lean ====
section
/-!
DEFINITION. What a platform fixes (the OPEN parameters of 00_scope.md rule R6), what a BLAKE2 variant fixes about the shape of
its state (R7), and the free values of 93_implementation_defined.md (U7-U9), which have no body: nothing can be proved about
which value they are.
-/

namespace Sys2Proof

/-- What stands behind a range of admitted addresses (20 R70). -/
inductive RegionKind where
  /-- ordinary, idempotent memory -/
  | ram
  /-- a device with side effects: accesses to it are refused -/
  | device
  deriving DecidableEq, Repr

/-- A range of admitted addresses: `size` bytes from `base`. -/
structure Region where
  base : Word
  size : Nat
  kind : RegionKind
  deriving DecidableEq, Repr

/-- The platform's parameters (00 R6): MemOK as the regions it admits, and MMIO_BASE. NCTX is the number of slots a state
has. They are plain data of the state, so a statement over all states holds for every platform. DESIGN CHOICE, log 1. -/
structure Config where
  regions  : List Region
  /-- a number, as the spec gives the host's address space no width: the block may stand in the engine's 32-bit addresses or
  beyond them, and its 64 bytes never wrap (20 R61). DESIGN CHOICE, log 18 -/
  mmioBase : Nat
  deriving DecidableEq, Repr

/-- The parameters the spec's vectors use: `MemOK(a) = a < 0x10000` (95_test_vectors.md); MMIO_BASE is OPEN and set beyond
that memory. DESIGN CHOICE, log 1. -/
def Config.vectors : Config :=
  { regions := [{ base := 0, size := 0x10000, kind := .ram }], mmioBase := 0x80000000 }

/-- NCTX of the spec's vectors (00 R6). DESIGN CHOICE, log 1. -/
def Config.vectorsNctx : Nat := 4

/-- The two BLAKE2 variants (42 R190). -/
inductive Variant where
  /-- BLAKE2S, KIND 2 -/
  | s
  /-- BLAKE2B, KIND 3 -/
  | b
  deriving DecidableEq, Repr

/-- Word width w (00 R7, 42 R192). -/
abbrev Variant.w : Variant → Nat
  | .s => 32
  | .b => 64

/-- Block size BB in bytes (00 R7, 42 R192). -/
abbrev Variant.bb : Variant → Nat
  | .s => 64
  | .b => 128

/-- A byte the engine reads although the host has written it without order: any value (20 R73, 93 U7). Arguments: the draw,
which access of the command reads it, its address. -/
opaque Config.engineRaceByte (draw access addr : Nat) : Byte

/-- A byte the host reads after it and the engine have both written it without order: any value (20 R73). Arguments: the
draw, the address. -/
opaque Config.hostRaceByte (draw addr : Nat) : Byte

/-- Which of the old and the new values a host read gives of a byte the run writes (93 U7), 0 naming the value memory holds.
Arguments: the draw, the address. -/
opaque Config.hostRaceChoice (draw addr : Nat) : Nat

/-- How many of the run's coming engine turns a racing host read is ahead of, so that a byte a later command writes can read as
its new value (93 U7). Arguments: the draw, the address. -/
opaque Config.hostLookAhead (draw addr : Nat) : Nat

/-- Whether a host read of CP while BUSY = 1 gives the next descriptor's address (45 R278, 93 U8). -/
opaque Config.cpReadsNext (draw : Nat) : Bool

/-- Whether an output byte of the command in progress had been written when reset came (70 R341, 93 U9). Arguments: the draw,
the address. -/
opaque Config.resetAfterWrite (draw addr : Nat) : Bool

end Sys2Proof
end

