-- ==== Sys2Proof/Machine/State.lean ====
section
/-!
DEFINITION. The state of NH-CORE (10_state.md rule R20): the host register block, the context slots and the memory, with the
platform's parameters and the host's side of the interface beside them; how a step can stop; the state after reset
(70_reset_and_hazards.md rule R340). The constant tables (R41) are definitions in Keccak.lean and Blake2.lean: nothing writes them.
-/

namespace Sys2Proof.Machine

/-! ## Context slots -/

/-- A SPONGE slot's fields (10 R33). Cursors and counts are numbers; State.Inv bounds them by the spec's widths (log 14). -/
structure SpongeCtx where
  /-- S, the permutation state -/
  s         : Vector Byte 200
  rate      : Nat
  suffix    : Byte
  rounds    : Nat
  xof       : Bool
  outlen    : Nat
  /-- POS, the absorb cursor -/
  pos       : Nat
  /-- POSOUT, the squeeze cursor -/
  posOut    : Nat
  finished  : Bool
  destroyed : Bool
  deriving DecidableEq, Repr

/-- A BLAKE2S or BLAKE2B slot's fields (10 R37). -/
structure Blake2Ctx (v : Variant) where
  /-- H[0..7] -/
  h         : Vector (BitVec v.w) 8
  /-- BUF, the block buffer -/
  buf       : Vector Byte v.bb
  pos       : Nat
  length    : Nat
  outlen    : Nat
  finished  : Bool
  destroyed : Bool
  deriving DecidableEq, Repr

/-- What a slot that is not FREE holds (10 R32): KIND SPONGE, BLAKE2S or BLAKE2B. -/
inductive Ctx where
  | sponge (x : SpongeCtx)
  | blake2 (v : Variant) (x : Blake2Ctx v)
  deriving DecidableEq, Repr

/-- A context slot: `none` is KIND FREE, which has no fields (10 R32, R40; log 3). -/
abbrev Slot := Option Ctx

/-! ## Memory, host and races -/

/-- Memory as (address, byte) pairs, addresses strictly rising, no entry equal to what an unlisted address reads as (20 R60). -/
abbrev Memory := List Host.Cell

/-- A set of byte addresses, strictly rising. -/
abbrev AddrSet := List Nat

/-- Which bytes the host and the engine touch without order (20 R73); the model's own bookkeeping, log 7. -/
structure Sync where
  /-- bytes the host stored while the run that START last began was active -/
  hostWrote   : AddrSet
  /-- bytes the engine wrote in the run that START last began -/
  engineWrote : AddrSet
  /-- bytes the engine wrote that no later host read of STATUS.BUSY = 0 has ordered before the host, each with a value it held
  before such a write, the latest write first -/
  older       : List Host.Cell
  /-- bytes both wrote without order, in one run -/
  raced       : AddrSet
  /-- bytes the host stored during the run that START last began and the engine then read in it -/
  readRaced   : AddrSet
  /-- bytes that were raced in an earlier run, with an old value that is any value, until a host read of STATUS.BUSY = 0 orders
  what came after: those a later run wrote, and those the earlier run read -/
  unsettled   : AddrSet
  deriving DecidableEq, Repr

/-- No byte touched. -/
def Sync.empty : Sync := { hostWrote := [], engineWrote := [], older := [], raced := [], readRaced := [], unsettled := [] }

/-- One turn of the outside world (10 R21, 60 R316). The host's addresses are numbers: the spec gives its address space no
width (log 18). -/
inductive HostTurn where
  /-- the host lets the engine take this turn -/
  | engine
  /-- the host loads `n` bytes at `addr` -/
  | load (addr n : Nat)
  /-- the host stores the bytes `data` at `addr`, the first at the lowest address -/
  | store (addr : Nat) (data : List Byte)
  /-- the platform signals reset (70 R340) -/
  | reset
  deriving DecidableEq, Repr

/-! ## The state -/

/-- The state of NH-CORE. CTRL, CAPS and the reserved registers have no storage: CTRL reads 0, CAPS is the number of slots
(10 R24, R25, R30). -/
structure State where
  /-- STATUS.BUSY (10 R27) -/
  busy     : Bool
  /-- STATUS.ERR (10 R27) -/
  err      : Bool
  /-- CP, the command pointer; its bits 1:0 are hardwired 0 (10 R26) -/
  cp       : Word
  /-- ERRCODE (10 R28) -/
  errcode  : Word
  /-- ERRCP (10 R29) -/
  errcp    : Word
  /-- the NCTX context slots (10 R32) -/
  ctx      : List Slot
  /-- the byte memory (20 R60) -/
  mem      : Memory
  /-- the platform's parameters, never changed (00 R6) -/
  cfg      : Config
  /-- races between host and engine (20 R73) -/
  sync     : Sync
  /-- the host's turns still to come, the next one first; when none is left every turn is the engine's (log 4) -/
  pending  : List HostTurn
  /-- what the host's last load delivered (10 R21, log 5) -/
  hostData : List Byte
  /-- how many free values have been drawn so far (log 6) -/
  draws    : Nat
  deriving DecidableEq, Repr

/-! ## How a step can stop -/

/-- The one fault. The spec's own errors are error entries with a next state (60 R310) and no faults of the model. -/
inductive Fault where
  /-- Raised by a host load or store at an address that is neither in the register block nor admitted memory; the spec says
  nothing of such an address. Safe: the model stops. Log 11. -/
  | hostUnbacked
  deriving DecidableEq, Repr

/-- Why a step has no meaning. -/
inductive Refusal where
  /-- Raised by a refused arm of exec: an instruction not modelled yet. Safe. No arm uses it now. -/
  | notModelled (mnemonic : String)
  /-- Raised by a host access to the register block that is not one aligned 32-bit access (10 R24, 93 U5). Safe. -/
  | hostRegisterAccess
  /-- Raised by an engine access to bytes where the platform has put the register block into admitted memory (20 R61). Safe. -/
  | engineOnRegisterBlock
  /-- Raised by an engine access to a device placed where MemOK holds (20 R70). Safe. -/
  | engineOnDevice
  /-- Raised by a host access to such a device (93 U6). Safe. -/
  | hostOnDevice
  deriving DecidableEq, Repr

/-- What a command, a host access or a step answers. -/
abbrev Out := Host.Outcome State Fault Refusal

/-! ## The spec's errors -/

/-- Details of CONFIGURATION (60 R301). -/
inductive ConfigurationDetail where
  | outlen | keylen | saltlen | perslen | rate | rounds
  deriving DecidableEq, Repr

/-- Details of LIFECYCLE (60 R301). -/
inductive LifecycleDetail where
  | destroyed | finished | notXof
  deriving DecidableEq, Repr

/-- Details of BUFFER (60 R301). -/
inductive BufferDetail where
  | tooSmall
  deriving DecidableEq, Repr

/-- Details of BAD_CONTEXT (60 R301). -/
inductive BadContextDetail where
  | indexRange | freeSlot | sameSlot
  deriving DecidableEq, Repr

/-- Details of MEMORY_FAULT (60 R301). -/
inductive MemoryFaultDetail where
  | descFetch | dataRead | dataWrite
  deriving DecidableEq, Repr

/-- Details of LENGTH_OVERFLOW (60 R301). -/
inductive LengthOverflowDetail where
  | counter
  deriving DecidableEq, Repr

/-- The errors a command can raise, class and detail (60 R300, R301). -/
inductive EngineError where
  | configuration (d : ConfigurationDetail)
  | lifecycle (d : LifecycleDetail)
  | buffer (d : BufferDetail)
  | illegalCommand (d : DecodeError)
  | badContext (d : BadContextDetail)
  | memoryFault (d : MemoryFaultDetail)
  | lengthOverflow (d : LengthOverflowDetail)
  deriving DecidableEq, Repr

/-! ## Reset -/

/-- The state after reset of an engine with `nctx` slots on the platform `cfg`, nothing stored yet (70 R340). -/
def State.resetWith (nctx : Nat) (cfg : Config) : State where
  busy := false
  err := false
  cp := 0
  errcode := 0
  errcp := 0
  ctx := List.replicate nctx none
  mem := []
  cfg := cfg
  sync := Sync.empty
  pending := []
  hostData := []
  draws := 0

/-- The state after reset with the parameters the spec's vectors use (70 R340, 95). -/
def State.reset : State := State.resetWith Config.vectorsNctx Config.vectors

end Sys2Proof.Machine
end

