-- ==== Sys2Proof/Machine/Memory.lean ====
section
/-!
DEFINITION. The byte memory (20_memory.md rule R60) as a sorted list of the bytes that differ from what an unlisted address
reads as, and sets of addresses as sorted lists.
-/

namespace Sys2Proof.Machine

/-- What an address nothing is listed for reads as. DESIGN CHOICE, log 2: the spec gives memory no power-on contents; its
vectors start from zeroed memory. -/
def Memory.unlisted : Byte := 0

/-- The byte at address `a`. -/
def Memory.read : Memory → Nat → Byte
  | [], _ => Memory.unlisted
  | (k, v) :: m, a => if a = k then v else Memory.read m a

/-- Memory with address `a` unlisted. -/
def Memory.erase (m : Memory) (a : Nat) : Memory := m.filter fun c => c.1 != a

/-- The pair `(a, b)` put before the first higher address. -/
def Memory.insert : Memory → Nat → Byte → Memory
  | [], a, b => [(a, b)]
  | (k, v) :: m, a, b => if a < k then (a, b) :: (k, v) :: m else (k, v) :: Memory.insert m a b

/-- Byte `b` written at address `a`; writing what an unlisted address reads as removes the entry. -/
def Memory.write (m : Memory) (a : Nat) (b : Byte) : Memory :=
  if b = Memory.unlisted then Memory.erase m a else Memory.insert (Memory.erase m a) a b

/-- The bytes `bs` written at `a`, `a+1`, … in ascending order (00 R12). -/
def Memory.writeBytes : Memory → Nat → List Byte → Memory
  | m, _, [] => m
  | m, a, b :: bs => Memory.writeBytes (Memory.write m a b) (a + 1) bs

/-- The canonical form: addresses strictly rising, no entry equal to what an unlisted address reads as. -/
def Memory.wf : Memory → Bool
  | [] => true
  | [(_, v)] => v != Memory.unlisted
  | (k, v) :: (k', v') :: m => v != Memory.unlisted && decide (k < k') && Memory.wf ((k', v') :: m)

/-- Every listed address is a 32-bit address (20 R60). -/
def Memory.bounded (m : Memory) : Bool := m.all fun c => decide (c.1 < addrSpace)

/-- Address `a` added. -/
def AddrSet.insert : AddrSet → Nat → AddrSet
  | [], a => [a]
  | k :: m, a => if a < k then a :: k :: m else if a = k then k :: m else k :: AddrSet.insert m a

/-- Address `a` removed. -/
def AddrSet.erase (m : AddrSet) (a : Nat) : AddrSet := m.filter fun k => k != a

/-- The addresses of `l` added. -/
def AddrSet.union (m l : AddrSet) : AddrSet := l.foldl AddrSet.insert m

/-- The canonical form of a set of addresses: strictly rising. -/
def AddrSet.wf : AddrSet → Bool
  | [] => true
  | [_] => true
  | k :: k' :: m => decide (k < k') && AddrSet.wf (k' :: m)

end Sys2Proof.Machine
end

