-- ==== Sys2Proof/Machine/Flags.lean ====
section
/-!
DEFINITION. Every flag and status word of NH-CORE (10_state.md rule R23: there are no condition codes): the register views
STATUS, ERRCODE and CAPS, the error codes of 60_exceptions.md rule R301, and the per-slot lifecycle flags and KIND.
-/

namespace Sys2Proof.Machine

/-! ## Error codes (60 R301) -/

/-- CLASS of an error. -/
def EngineError.cls : EngineError → Byte
  | .configuration _ => 1
  | .lifecycle _ => 2
  | .buffer _ => 3
  | .illegalCommand _ => 4
  | .badContext _ => 5
  | .memoryFault _ => 6
  | .lengthOverflow _ => 7

/-- DETAIL of an error. -/
def EngineError.detail : EngineError → Byte
  | .configuration .outlen => 1
  | .configuration .keylen => 2
  | .configuration .saltlen => 3
  | .configuration .perslen => 4
  | .configuration .rate => 5
  | .configuration .rounds => 6
  | .lifecycle .destroyed => 1
  | .lifecycle .finished => 2
  | .lifecycle .notXof => 3
  | .buffer .tooSmall => 1
  | .illegalCommand .unknownOpcode => 1
  | .illegalCommand .reservedNonzero => 2
  | .badContext .indexRange => 1
  | .badContext .freeSlot => 2
  | .badContext .sameSlot => 3
  | .memoryFault .descFetch => 1
  | .memoryFault .dataRead => 2
  | .memoryFault .dataWrite => 3
  | .lengthOverflow .counter => 1

/-- ERRCODE = CLASS | DETAIL << 8, bits 31:16 zero (10 R28, 60 R301). -/
def EngineError.code (e : EngineError) : Word := (0 : BitVec 16) ++ e.detail ++ e.cls

/-- Every error of the table of rule R301. -/
def EngineError.all : List EngineError :=
  [.configuration .outlen, .configuration .keylen, .configuration .saltlen, .configuration .perslen,
   .configuration .rate, .configuration .rounds,
   .lifecycle .destroyed, .lifecycle .finished, .lifecycle .notXof,
   .buffer .tooSmall,
   .illegalCommand .unknownOpcode, .illegalCommand .reservedNonzero,
   .badContext .indexRange, .badContext .freeSlot, .badContext .sameSlot,
   .memoryFault .descFetch, .memoryFault .dataRead, .memoryFault .dataWrite,
   .lengthOverflow .counter]

/-! ## Status registers -/

/-- STATUS: BUSY in bit 0, ERR in bit 1, the rest 0 (10 R27). -/
def State.status (s : State) : Word := (0 : BitVec 30) ++ BitVec.ofBool s.err ++ BitVec.ofBool s.busy

/-- CAPS: NCTX in bits 7:0 (10 R30). -/
def State.caps (s : State) : Word := (0 : BitVec 24) ++ BitVec.ofNat 8 s.ctx.length

/-! ## Lifecycle flags and KIND of a slot -/

/-- FINISHED (10 R35, R39). -/
def Ctx.finished : Ctx → Bool
  | .sponge x => x.finished
  | .blake2 _ x => x.finished

/-- DESTROYED (10 R35, R39). -/
def Ctx.destroyed : Ctx → Bool
  | .sponge x => x.destroyed
  | .blake2 _ x => x.destroyed

/-- OUTLEN (10 R33, R37). -/
def Ctx.outlen : Ctx → Nat
  | .sponge x => x.outlen
  | .blake2 _ x => x.outlen

/-- Whether XOF is permitted: KIND = SPONGE and XOF = 1 (44 R247). -/
def Ctx.isXof : Ctx → Bool
  | .sponge x => x.xof
  | .blake2 _ _ => false

/-- KIND of a slot (10 R32). -/
def Slot.kind : Slot → BitVec 2
  | none => 0
  | some (.sponge _) => 1
  | some (.blake2 .s _) => 2
  | some (.blake2 .b _) => 3

/-- LENGTH + n stays within the 2w bits of the counter (43 R224); a sponge has no counter. -/
def Ctx.counterFits (x : Ctx) (n : Nat) : Bool :=
  match x with
  | .sponge _ => true
  | .blake2 v y => decide (y.length + n ≤ 2 ^ (2 * v.w) - 1)

end Sys2Proof.Machine
end

