-- ==== Sys2Proof/Machine/Ops.lean ====
section
/-!
DEFINITION. The named operations every command is written with: CP, error entry, checks, slots, and the engine's byte memory
(00_scope.md rules R11-R13, 20_memory.md rules R60-R74, 60_exceptions.md rule R310). There is no return from an error
(60 R312): the host reads ERRCODE and ERRCP and starts again (HostPort.lean).
-/

namespace Sys2Proof.Machine

/-! ## Command pointer -/

/-- What a write to CP stores: bits 1:0 are hardwired zero (10 R26). -/
def cpOf (w : Word) : Word := w &&& 0xFFFFFFFC

/-- The end of a command that succeeds: CP <- CP + 32 mod 2^32 (10 R31). The draw counter moves on (log 6). -/
def State.advance (s : State) : State := { s with cp := s.cp + 32, draws := s.draws + 1 }

/-! ## Error entry -/

/-- Error entry (60 R310): ERRCODE and ERRCP written, ERR set, BUSY cleared; CP keeps the failing descriptor's address, and no
slot and no memory byte changes. The draw counter moves on (log 6). -/
def State.raise (s : State) (e : EngineError) : State :=
  { s with errcode := e.code, errcp := s.cp, err := true, busy := false, draws := s.draws + 1 }

/-- `check(ok) else raise e`, then the rest of the command (00 R13). -/
def State.check (s : State) (ok : Bool) (e : EngineError) (rest : Out) : Out :=
  if ok then rest else .next (s.raise e)

/-! ## Context slots -/

/-- NCTX (10 R30). -/
def State.nctx (s : State) : Nat := s.ctx.length

/-- Slot c holds `x` from now on (00 R11). -/
def State.setSlot (s : State) (c : Byte) (x : Ctx) : State := { s with ctx := s.ctx.set c.toNat (some x) }

/-- The slot checks `c < NCTX` and `KIND != FREE`, then the rest with what the slot holds (44 R240, R249). -/
def State.occupied (s : State) (c : Byte) (rest : Ctx → Out) : Out :=
  match s.ctx[c.toNat]? with
  | none => .next (s.raise (.badContext .indexRange))
  | some none => .next (s.raise (.badContext .freeSlot))
  | some (some x) => rest x

/-- `Live(c)`: the slot checks, then DESTROYED = 0 (44 R240). -/
def State.live (s : State) (c : Byte) (rest : Ctx → Out) : Out :=
  s.occupied c fun x => s.check (!x.destroyed) (.lifecycle .destroyed) (rest x)

/-- `check(c < NCTX)` of the INIT commands (41 R160, 42 R205). -/
def State.indexOK (s : State) (c : Byte) : Bool := decide (c.toNat < s.nctx)

/-! ## Which bytes the engine may access -/

end Sys2Proof.Machine

namespace Sys2Proof

/-- Whether a region covers address `a`. -/
def Region.covers (r : Region) (a : Nat) : Bool := decide (r.base.toNat ≤ a) && decide (a < r.base.toNat + r.size)

/-- MemOK(a): the platform admits address `a` (20 R60). -/
def Config.memOK (c : Config) (a : Nat) : Bool := decide (a < addrSpace) && c.regions.any fun r => r.covers a

/-- MemOK for the `n` addresses from `a`. -/
def Config.allOK (c : Config) : Nat → Nat → Bool
  | _, 0 => true
  | a, n + 1 => c.memOK a && Config.allOK c (a + 1) n

/-- RangeOK(a, n): empty, or inside the address space on admitted bytes (20 R62). -/
def Config.rangeOK (c : Config) (a n : Nat) : Bool :=
  n == 0 || (decide (a + n ≤ addrSpace) && c.allOK a n)

/-- Whether address `a` is in the 64-byte register block at MMIO_BASE, which does not wrap (10 R24; log 18). -/
def Config.inBlock (c : Config) (a : Nat) : Bool :=
  decide (c.mmioBase ≤ a) && decide (a < c.mmioBase + 64)

/-- Whether a device stands at address `a` (20 R70). -/
def Config.isDevice (c : Config) (a : Nat) : Bool :=
  c.regions.any fun r => decide (r.kind = .device) && r.covers a

/-- Why the engine's access to the admitted byte `a` is refused, if it is (20 R61, R70). -/
def Config.barred (c : Config) (a : Nat) : Option Machine.Refusal :=
  if c.inBlock a then some .engineOnRegisterBlock
  else if c.isDevice a then some .engineOnDevice
  else none

/-- The first refusal among the `n` bytes from `a`, accessed in ascending order (20 R68). -/
def Config.barredRange (c : Config) : Nat → Nat → Option Machine.Refusal
  | _, 0 => none
  | a, n + 1 => (c.barred a).or (Config.barredRange c (a + 1) n)

end Sys2Proof

namespace Sys2Proof.Machine

/-! ## Engine memory accesses -/

/-- RangeOK on a state (20 R62). -/
def State.rangeOK (s : State) (a : Word) (n : Nat) : Bool := s.cfg.rangeOK a.toNat n

/-- The byte the engine reads at `a` in access number `access` of the current command: a byte the host races for reads as any
value (20 R73), any other as what was last written (20 R70, R74). -/
def State.engineByte (s : State) (access a : Nat) : Byte :=
  if s.sync.hostWrote.contains a || s.sync.raced.contains a then Config.engineRaceByte s.draws access a
  else s.mem.read a

/-- The `n` bytes the engine reads from `a`, ascending (00 R12). -/
def State.engineBytes (s : State) (access : Nat) : Nat → Nat → List Byte
  | _, 0 => []
  | a, n + 1 => s.engineByte access a :: State.engineBytes s access (a + 1) n

/-- What an engine read of `n` bytes from `a` does to the race bookkeeping (20 R73): those the host stored during this run are
raced (log 7). -/
def Sync.engineReads (y : Sync) (a n : Nat) : Sync :=
  { y with readRaced := AddrSet.union y.readRaced (y.hostWrote.filter fun k => decide (a ≤ k ∧ k < a + n)) }

/-- The state after the engine has read the `n` bytes from `a`. -/
def State.engineRead (s : State) (a n : Nat) : State := { s with sync := s.sync.engineReads a n }

/-- `MemRead(a, n)` of an admitted range, then the rest with the bytes read, on the state after the read (00 R12, 20 R63).
`access` numbers the reads of one command, so that two reads of one raced byte are two free values. -/
def State.memRead (s : State) (access : Nat) (a : Word) (n : Nat) (rest : List Byte → State → Out) : Out :=
  match s.cfg.barredRange a.toNat n with
  | some r => .refused r
  | none => rest (s.engineBytes access a.toNat n) (s.engineRead a.toNat n)

/-- What an engine write of byte `a`, which held `old`, does to the race bookkeeping (20 R73): the host may still read `old`
(93 U7), and a byte the host stored during this run is raced. A byte raced in an earlier run is no longer raced, but what it held
before this write is any value to the host. -/
def Sync.engineWrite (y : Sync) (a : Nat) (old : Byte) : Sync :=
  { y with
    engineWrote := AddrSet.insert y.engineWrote a
    older := (a, old) :: y.older
    raced := if y.hostWrote.contains a then AddrSet.insert y.raced a else AddrSet.erase y.raced a
    unsettled := if y.raced.contains a && !y.hostWrote.contains a then AddrSet.insert y.unsettled a else y.unsettled }

/-- The same for `n` bytes from `a`, which held what `m` holds. -/
def Sync.engineWrites : Sync → Memory → Nat → Nat → Sync
  | y, _, _, 0 => y
  | y, m, a, n + 1 => Sync.engineWrites (y.engineWrite a (m.read a)) m (a + 1) n

/-- The bytes `data` stored by the engine from `a`, ascending (00 R12). -/
def State.engineStore (s : State) (a : Nat) (data : List Byte) : State :=
  { s with mem := s.mem.writeBytes a data, sync := s.sync.engineWrites s.mem a data.length }

/-- `MemWrite(a, |data|, data)` to an admitted range, then the rest on the state after it (00 R12, 20 R63). -/
def State.memWrite (s : State) (a : Word) (data : List Byte) (rest : State → Out) : Out :=
  match s.cfg.barredRange a.toNat data.length with
  | some r => .refused r
  | none => rest (s.engineStore a.toNat data)

/-! ## Descriptor fetch -/

/-- The 32 bytes at CP as the engine reads them (45 R272). -/
def State.descBytes (s : State) : DescBytes := Vector.ofFn fun j => s.engineByte 0 (s.cp.toNat + j.val)

/-- The fetch of the descriptor at CP: RangeOK(CP, 32), the read, then the decode and the rest, on the state after the read
(45 R271, R272). -/
def State.fetch (s : State) (rest : Instr → State → Out) : Out :=
  s.check (s.rangeOK s.cp 32) (.memoryFault .descFetch) <|
    match s.cfg.barredRange s.cp.toNat 32 with
    | some r => .refused r
    | none =>
      match decode s.descBytes with
      | .error e => .next ((s.engineRead s.cp.toNat 32).raise (.illegalCommand e))
      | .ok i => rest i (s.engineRead s.cp.toNat 32)

end Sys2Proof.Machine
end

