-- ==== Sys2Proof/Machine/Operands.lean ====
section
/-!
DEFINITION. Operand assembly (30_encoding.md rule R93): slot numbers, addresses, lengths and the packed IMM are taken whole
by the decoder, so what is left is the optional ranges of F-INITB: their length and range checks and their bytes.
-/

namespace Sys2Proof.Machine

/-- `check(FLAGS[i] = 0 or lo <= L_i <= hi)`: the length rule of a present option (42 R201, R205). -/
def optLenOK (r : OptRange) (lo hi : Nat) : Bool :=
  !r.present || (decide (lo ≤ r.len.toNat) && decide (r.len.toNat ≤ hi))

/-- `check(FLAGS[i] = 0 or RangeOK(A_i, L_i))` (42 R205). -/
def State.optRangeOK (s : State) (r : OptRange) : Bool := !r.present || s.rangeOK r.addr r.len.toNat

/-- `FLAGS[i] ? MemRead(A_i, L_i) : absent`, then the rest on the state after it (42 R205). -/
def State.readOption (s : State) (access : Nat) (r : OptRange) (rest : Option (List Byte) → State → Out) : Out :=
  if r.present then s.memRead access r.addr r.len.toNat fun bs => rest (some bs) else rest none s

end Sys2Proof.Machine
end

