-- ==== Sys2Proof/Machine/Blake2.lean ====
section
/-!
DEFINITION. The BLAKE2 constants, compression function and parameter block (42_blake2_compress.md rules R190-R200, R204), for
both variants at once.
-/

namespace Sys2Proof.Machine

/-! ## Constants (42 R192-R194; the widths w and BB are in Config.lean) -/

/-- KK, the longest key and the longest digest (42 R192). -/
def blake2KK : Variant → Nat
  | .s => 32
  | .b => 64

/-- SL, the salt's length (42 R192). -/
def blake2SL : Variant → Nat
  | .s => 8
  | .b => 16

/-- PL, the personalization's length (42 R192). -/
def blake2PL : Variant → Nat
  | .s => 8
  | .b => 16

/-- NR, the rounds (42 R192). -/
def blake2NR : Variant → Nat
  | .s => 10
  | .b => 12

/-- HB = 8·(w/8), the bytes of the serialized state (42 R191). -/
def blake2HB (v : Variant) : Nat := 8 * (v.w / 8)

/-- ROT1 (42 R192). -/
def blake2Rot1 : Variant → Nat
  | .s => 16
  | .b => 32

/-- ROT2 (42 R192). -/
def blake2Rot2 : Variant → Nat
  | .s => 12
  | .b => 24

/-- ROT3 (42 R192). -/
def blake2Rot3 : Variant → Nat
  | .s => 8
  | .b => 16

/-- ROT4 (42 R192). -/
def blake2Rot4 : Variant → Nat
  | .s => 7
  | .b => 63

/-- The initialization vector (42 R193). -/
def blake2Iv : (v : Variant) → Vector (BitVec v.w) 8
  | .s => #v[0x6A09E667, 0xBB67AE85, 0x3C6EF372, 0xA54FF53A, 0x510E527F, 0x9B05688C, 0x1F83D9AB, 0x5BE0CD19]
  | .b => #v[0x6A09E667F3BCC908, 0xBB67AE8584CAA73B, 0x3C6EF372FE94F82B, 0xA54FF53A5F1D36F1,
             0x510E527FADE682D1, 0x9B05688C2B3E6C1F, 0x1F83D9ABFB41BD6B, 0x5BE0CD19137E2179]

/-- The message schedule (42 R194). -/
def blake2Sigma : Vector (Vector (Fin 16) 16) 10 :=
  #v[#v[0, 1, 2, 3, 4, 5, 6, 7, 8, 9, 10, 11, 12, 13, 14, 15],
     #v[14, 10, 4, 8, 9, 15, 13, 6, 1, 12, 0, 2, 11, 7, 5, 3],
     #v[11, 8, 12, 0, 5, 2, 15, 13, 10, 14, 3, 6, 7, 1, 9, 4],
     #v[7, 9, 3, 1, 13, 12, 11, 14, 2, 6, 5, 10, 4, 0, 15, 8],
     #v[9, 0, 5, 7, 2, 4, 10, 15, 14, 1, 11, 12, 6, 8, 3, 13],
     #v[2, 12, 6, 10, 0, 11, 8, 3, 4, 13, 7, 5, 15, 14, 1, 9],
     #v[12, 5, 1, 15, 14, 13, 4, 10, 0, 7, 6, 3, 9, 2, 8, 11],
     #v[13, 11, 7, 14, 12, 1, 3, 9, 5, 0, 15, 4, 8, 6, 2, 10],
     #v[6, 15, 14, 9, 11, 3, 0, 8, 12, 2, 13, 7, 1, 4, 10, 5],
     #v[10, 2, 8, 4, 7, 6, 1, 5, 15, 11, 9, 14, 3, 12, 13, 0]]

/-! ## The compression function -/

/-- The mixing function G on the working vector (42 R195); all sums wrap at 2^w. -/
def blake2G (v : Variant) (q : Vector (BitVec v.w) 16) (a b c d : Fin 16) (x y : BitVec v.w) : Vector (BitVec v.w) 16 :=
  let q := q.set a.val (q[a.val] + q[b.val] + x)
  let q := q.set d.val ((q[d.val] ^^^ q[a.val]).rotateRight (blake2Rot1 v))
  let q := q.set c.val (q[c.val] + q[d.val])
  let q := q.set b.val ((q[b.val] ^^^ q[c.val]).rotateRight (blake2Rot2 v))
  let q := q.set a.val (q[a.val] + q[b.val] + y)
  let q := q.set d.val ((q[d.val] ^^^ q[a.val]).rotateRight (blake2Rot3 v))
  let q := q.set c.val (q[c.val] + q[d.val])
  q.set b.val ((q[b.val] ^^^ q[c.val]).rotateRight (blake2Rot4 v))

/-- One round: G on the four columns, then on the four diagonals (42 R196). -/
def blake2Round (v : Variant) (m q : Vector (BitVec v.w) 16) (r : Nat) : Vector (BitVec v.w) 16 :=
  let s := blake2Sigma[r % 10]'(by omega)
  let q := blake2G v q 0 4 8 12 m[s[0].val] m[s[1].val]
  let q := blake2G v q 1 5 9 13 m[s[2].val] m[s[3].val]
  let q := blake2G v q 2 6 10 14 m[s[4].val] m[s[5].val]
  let q := blake2G v q 3 7 11 15 m[s[6].val] m[s[7].val]
  let q := blake2G v q 0 5 10 15 m[s[8].val] m[s[9].val]
  let q := blake2G v q 1 6 11 12 m[s[10].val] m[s[11].val]
  let q := blake2G v q 2 7 8 13 m[s[12].val] m[s[13].val]
  blake2G v q 3 4 9 14 m[s[14].val] m[s[15].val]

/-- The message words: a block as 16 little-endian w-bit words (42 R197). -/
def blake2Message (v : Variant) (block : Vector Byte v.bb) : Vector (BitVec v.w) 16 :=
  Vector.ofFn fun i => leWord v.w ((block.toList.drop (i.val * (v.w / 8))).take (v.w / 8))

/-- The working vector before the rounds: H and IV, with the counter t in v[12] and v[13] and the last-block flag in v[14]
(42 R197). -/
def blake2Start (v : Variant) (h : Vector (BitVec v.w) 8) (t : Nat) (last : Bool) : Vector (BitVec v.w) 16 :=
  let iv := blake2Iv v
  #v[h[0], h[1], h[2], h[3], h[4], h[5], h[6], h[7],
     iv[0], iv[1], iv[2], iv[3],
     iv[4] ^^^ BitVec.ofNat v.w t,
     iv[5] ^^^ BitVec.ofNat v.w (t / 2 ^ v.w),
     if last then iv[6] ^^^ BitVec.allOnes v.w else iv[6],
     iv[7]]

/-- Compress(var, H, block, t, last) (42 R197). Irreducible so that no proof unfolds the rounds by accident. -/
@[irreducible] def blake2Compress (v : Variant) (h : Vector (BitVec v.w) 8) (block : Vector Byte v.bb) (t : Nat) (last : Bool) :
    Vector (BitVec v.w) 8 :=
  let q := (List.range (blake2NR v)).foldl (blake2Round v (blake2Message v block)) (blake2Start v h t last)
  Vector.ofFn fun i => h[i.val] ^^^ q[i.val] ^^^ q[i.val + 8]

/-- D(H), the serialized state words, HB bytes (42 R199). -/
def blake2Serialize (v : Variant) (h : Vector (BitVec v.w) 8) : List Byte := h.toList.flatMap leBytes

/-! ## Parameter block -/

/-- The two words a salt or personalization is split into (42 R204); an absent one changes nothing, as two zero words. -/
def blake2OptionWord (v : Variant) (o : Option (List Byte)) (k : Nat) : BitVec v.w :=
  match o with
  | none => 0
  | some bs => leWord v.w ((bs.drop (k * (v.w / 8))).take (v.w / 8))

/-- ParamInit: IV with digest length, key length, fanout 1, depth 1, salt and personalization (42 R200). -/
def blake2ParamInit (v : Variant) (outlen kl : Nat) (salt pers : Option (List Byte)) : Vector (BitVec v.w) 8 :=
  let iv := blake2Iv v
  #v[iv[0] ^^^ (BitVec.ofNat v.w outlen ||| (BitVec.ofNat v.w kl <<< 8) ||| (1 <<< 16) ||| (1 <<< 24)),
     iv[1], iv[2], iv[3],
     iv[4] ^^^ blake2OptionWord v salt 0,
     iv[5] ^^^ blake2OptionWord v salt 1,
     iv[6] ^^^ blake2OptionWord v pers 0,
     iv[7] ^^^ blake2OptionWord v pers 1]

end Sys2Proof.Machine
end

