-- ==== Sys2Proof/Machine/Blake2Driver.lean ====
section
/-!
DEFINITION. The BLAKE2 streaming driver (43_blake2_driver.md rules R220-R231) and the commands INIT_BLAKE2S and INIT_BLAKE2B
(42_blake2_compress.md rules R201-R206).
-/

namespace Sys2Proof.Machine

/-! ## The driver -/

/-- A full buffer that another byte follows is compressed, not as the last block, with t = LENGTH (43 R220, R221). -/
def Blake2Ctx.flushFull {v : Variant} (x : Blake2Ctx v) : Blake2Ctx v :=
  if x.pos = v.bb then { x with h := blake2Compress v x.h x.buf x.length false, pos := 0 } else x

/-- One byte put into the buffer at POS (43 R220). -/
def Blake2Ctx.putByte {v : Variant} (x : Blake2Ctx v) (b : Byte) : Blake2Ctx v :=
  { x with buf := x.buf.setIfInBounds x.pos b, pos := x.pos + 1, length := x.length + 1 }

/-- B2Update (43 R220), byte by byte: a full buffer is compressed exactly when another byte arrives. DEDUCED, log 15: the
rule's loop takes the same bytes in runs of up to BB - POS. -/
def Blake2Ctx.update {v : Variant} (x : Blake2Ctx v) (data : List Byte) : Blake2Ctx v :=
  data.foldl (fun x b => x.flushFull.putByte b) x

/-- BUF with BUF[POS..BB) zeroed (43 R228). -/
def Blake2Ctx.zeroTail {v : Variant} (x : Blake2Ctx v) : Vector Byte v.bb :=
  Vector.ofFn fun j => if j.val < x.pos then x.buf[j.val] else 0

/-- B2Finish: zero fill, the last compression, FINISHED (43 R228). -/
def Blake2Ctx.finish {v : Variant} (x : Blake2Ctx v) : Blake2Ctx v :=
  { x with buf := x.zeroTail, h := blake2Compress v x.h x.zeroTail x.length true, finished := true }

/-- B2Destroy (43 R230); the other fields stay, unobservable (log 3). -/
def Blake2Ctx.destroy {v : Variant} (x : Blake2Ctx v) : Blake2Ctx v :=
  { x with h := Vector.replicate 8 0, buf := Vector.replicate v.bb 0, destroyed := true }

/-! ## Creating a BLAKE2 slot -/

/-- The slot before its key is absorbed (42 R202). -/
def Blake2Ctx.fresh (v : Variant) (outlen kl : Nat) (salt pers : Option (List Byte)) : Blake2Ctx v where
  h := blake2ParamInit v outlen kl salt pers
  buf := Vector.replicate v.bb 0
  pos := 0
  length := 0
  outlen := outlen
  finished := false
  destroyed := false

/-- The key block: the key zero-padded to BB bytes (42 R203). -/
def blake2KeyBlock (v : Variant) (key : List Byte) : List Byte := key ++ List.replicate (v.bb - key.length) 0

/-- B2Init: the fresh slot, with the key block absorbed when there is a key (42 R202, R203). -/
def Blake2Ctx.create (v : Variant) (outlen : Nat) (key salt pers : Option (List Byte)) : Blake2Ctx v :=
  match key with
  | none => Blake2Ctx.fresh v outlen 0 salt pers
  | some k =>
    if k.length > 0 then (Blake2Ctx.fresh v outlen k.length salt pers).update (blake2KeyBlock v k)
    else Blake2Ctx.fresh v outlen 0 salt pers

/-- The INIT command of a variant (42 R205, R206). -/
def initBlake2 (v : Variant) (c : Byte) (outlen : Word) (key salt pers : OptRange) (s : State) : Out :=
  s.check (s.indexOK c) (.badContext .indexRange) <|
  s.check (decide (1 ≤ outlen.toNat) && decide (outlen.toNat ≤ blake2KK v)) (.configuration .outlen) <|
  s.check (optLenOK key 1 (blake2KK v)) (.configuration .keylen) <|
  s.check (optLenOK salt (blake2SL v) (blake2SL v)) (.configuration .saltlen) <|
  s.check (optLenOK pers (blake2PL v) (blake2PL v)) (.configuration .perslen) <|
  s.check (s.optRangeOK key) (.memoryFault .dataRead) <|
  s.check (s.optRangeOK salt) (.memoryFault .dataRead) <|
  s.check (s.optRangeOK pers) (.memoryFault .dataRead) <|
  s.readOption 1 key fun k s =>
  s.readOption 2 salt fun sa s =>
  s.readOption 3 pers fun pe s =>
  .next (s.setSlot c (.blake2 v (Blake2Ctx.create v outlen.toNat k sa pe))).advance

/-- INIT_BLAKE2S (42 R205). -/
def execInitBlake2s (c : Byte) (outlen : Word) (key salt pers : OptRange) (s : State) : Out :=
  initBlake2 .s c outlen key salt pers s

/-- INIT_BLAKE2B (42 R206). -/
def execInitBlake2b (c : Byte) (outlen : Word) (key salt pers : OptRange) (s : State) : Out :=
  initBlake2 .b c outlen key salt pers s

end Sys2Proof.Machine
end

