-- ==== Sys2Proof/Machine/Keccak.lean ====
section
/-!
DEFINITION. The Keccak-f[1600] permutation with its constant tables, and the command KECCAK_P (40_keccak.md rules R130-R142).
-/

namespace Sys2Proof.Machine

/-- The 25 lanes of the permutation state; lane (x, y) is lane x + 5y (40 R130). -/
abbrev Lanes := Vector Lane 25

/-! ## Tables (10 R41: read-only constants, present from reset) -/

/-- The three tables side by side, row t holding PI[t], ROTL[t] and RC[t] (40 R133-R135). -/
def keccakTable : Vector (Fin 25 × Nat × Lane) 24 :=
  #v[(10, 1, 0x1), (7, 3, 0x8082), (11, 6, 0x800000000000808A), (17, 10, 0x8000000080008000),
     (18, 15, 0x808B), (3, 21, 0x80000001), (5, 28, 0x8000000080008081), (16, 36, 0x8000000000008009),
     (8, 45, 0x8A), (21, 55, 0x88), (24, 2, 0x80008009), (4, 14, 0x8000000A),
     (15, 27, 0x8000808B), (23, 41, 0x800000000000008B), (19, 56, 0x8000000000008089), (13, 8, 0x8000000000008003),
     (12, 25, 0x8000000000008002), (2, 43, 0x8000000000000080), (20, 62, 0x800A), (14, 18, 0x800000008000000A),
     (22, 39, 0x8000000080008081), (9, 61, 0x8000000000008080), (6, 20, 0x80000001), (1, 44, 0x8000000080008008)]

/-- PI[t]: destination lane of step t of the ρ/π pass (40 R133). -/
def keccakPi (t : Fin 24) : Fin 25 := keccakTable[t.val].1

/-- ROTL[t]: rotation applied at step t (40 R134). -/
def keccakRotl (t : Fin 24) : Nat := keccakTable[t.val].2.1

/-- RC[ir]: the ι constant of round ir (40 R135). -/
def keccakRc (ir : Fin 24) : Lane := keccakTable[ir.val].2.2

/-! ## Lanes and bytes -/

/-- Lane i is `le_64` of bytes 8i..8i+7 (40 R130). -/
def lanesOf (s : Vector Byte 200) : Lanes :=
  Vector.ofFn fun i => leWord 64
    [s[8 * i.val], s[8 * i.val + 1], s[8 * i.val + 2], s[8 * i.val + 3],
     s[8 * i.val + 4], s[8 * i.val + 5], s[8 * i.val + 6], s[8 * i.val + 7]]

/-- The 200 bytes of the lanes (40 R130). -/
def bytesOfLanes (a : Lanes) : Vector Byte 200 :=
  Vector.ofFn fun j => leByte (a[j.val / 8]'(by omega)) (j.val % 8)

/-! ## The round -/

/-- C[x], the parity of column x (40 R137). -/
def thetaC (a : Lanes) : Vector Lane 5 :=
  Vector.ofFn fun x => a[x.val] ^^^ a[x.val + 5] ^^^ a[x.val + 10] ^^^ a[x.val + 15] ^^^ a[x.val + 20]

/-- D[x] = C[x-1] xor C[x+1] rotated by 1 (40 R137). -/
def thetaD (p : Vector Lane 5) : Vector Lane 5 :=
  Vector.ofFn fun x => p[(x.val + 4) % 5]'(by omega) ^^^ (p[(x.val + 1) % 5]'(by omega)).rotateLeft 1

/-- θ (40 R137). -/
def theta (a : Lanes) : Lanes :=
  let d := thetaD (thetaC a)
  Vector.ofFn fun i => a[i.val] ^^^ d[i.val % 5]'(by omega)

/-- One step of the fused ρ/π pass: the carried lane, rotated, is put into its place and the lane found there is carried on
(40 R138). -/
def rhoPiStep (st : Lanes × Lane) (t : Fin 24) : Lanes × Lane :=
  let j : Fin 25 := keccakPi t
  (st.1.set j.val (st.2.rotateLeft (keccakRotl t)), st.1[j.val])

/-- ρ and π, fused: 24 steps that start from lane 1 (40 R138). -/
def rhoPi (a : Lanes) : Lanes := ((List.finRange 24).foldl rhoPiStep (a, a[1])).1

/-- χ: each lane xor (not the next, and the one after) along its row of 5 (40 R139). -/
def chi (a : Lanes) : Lanes :=
  Vector.ofFn fun i =>
    a[i.val] ^^^ (~~~(a[5 * (i.val / 5) + (i.val + 1) % 5]'(by omega)) &&& a[5 * (i.val / 5) + (i.val + 2) % 5]'(by omega))

/-- ι: the round's constant into lane (0, 0) (40 R140). -/
def iota (a : Lanes) (ir : Fin 24) : Lanes := a.set 0 (a[0] ^^^ keccakRc ir)

/-- One round (40 R132). -/
def keccakRound (a : Lanes) (ir : Fin 24) : Lanes := iota (chi (rhoPi (theta a))) ir

/-- Rounds 24-r, …, 23 on the lanes: fewer rounds skip leading rounds (40 R132). -/
def keccakRounds (a : Lanes) (r : Nat) : Lanes := ((List.finRange 24).drop (24 - r)).foldl keccakRound a

/-- KeccakP(S, r) (40 R132). Irreducible so that no proof unfolds 24 rounds by accident. -/
@[irreducible] def keccakP (s : Vector Byte 200) (r : Nat) : Vector Byte 200 := bytesOfLanes (keccakRounds (lanesOf s) r)

/-- 200 bytes read from memory as a permutation state. -/
def stateOfBytes (bs : List Byte) : Vector Byte 200 := Vector.ofFn fun j => bs.getD j.val 0

/-! ## KECCAK_P -/

/-- KECCAK_P (40 R142): all 200 source bytes are read before any destination byte is written. -/
def execKeccakP (rounds src dst : Word) (s : State) : Out :=
  s.check (decide (1 ≤ rounds.toNat) && decide (rounds.toNat ≤ 24)) (.configuration .rounds) <|
  s.check (s.rangeOK src 200) (.memoryFault .dataRead) <|
  s.check (s.rangeOK dst 200) (.memoryFault .dataWrite) <|
  s.memRead 1 src 200 fun bs s =>
  s.memWrite dst (keccakP (stateOfBytes bs) rounds.toNat).toList fun s' =>
  .next s'.advance

end Sys2Proof.Machine
end

