-- ==== Sys2Proof/Machine/Sponge.lean ====
section
/-!
DEFINITION. The sponge state machine and the command INIT_SPONGE (41_sponge.md rules R160-R172).
-/

namespace Sys2Proof.Machine

/-- 200 zero bytes. -/
def zeroState : Vector Byte 200 := Vector.replicate 200 0

/-- The slot INIT_SPONGE makes (41 R161). -/
def SpongeCtx.fresh (rate : Nat) (suffix : Byte) (rounds : Nat) (xof : Bool) (outlen : Nat) : SpongeCtx where
  s := zeroState
  rate := rate
  suffix := suffix
  rounds := rounds
  xof := xof
  outlen := outlen
  pos := 0
  posOut := 0
  finished := false
  destroyed := false

/-- `S[i] <- S[i] xor b`. -/
def SpongeCtx.xorAt (x : SpongeCtx) (i : Nat) (b : Byte) : SpongeCtx :=
  { x with s := x.s.setIfInBounds i (x.s.getD i 0 ^^^ b) }

/-- SpPermute: the permutation with the slot's round count; both cursors back to 0 (41 R162). -/
def SpongeCtx.permute (x : SpongeCtx) : SpongeCtx :=
  { x with s := keccakP x.s x.rounds, pos := 0, posOut := 0 }

/-- One byte of SpAbsorb (41 R163). -/
def SpongeCtx.absorbByte (x : SpongeCtx) (b : Byte) : SpongeCtx :=
  let x1 := x.xorAt x.pos b
  let x2 := { x1 with pos := x1.pos + 1 }
  if x2.pos = x2.rate then x2.permute else x2

/-- SpAbsorb (41 R163). -/
def SpongeCtx.absorb (x : SpongeCtx) (data : List Byte) : SpongeCtx := data.foldl SpongeCtx.absorbByte x

/-- SpFinish: the multi-rate padding, once (41 R166). -/
def SpongeCtx.finish (x : SpongeCtx) : SpongeCtx :=
  if x.finished then x
  else
    let x1 := { x with finished := true }
    let x2 := x1.xorAt x1.pos x1.suffix
    let x3 := if x2.suffix.getLsbD 7 && decide (x1.pos = x2.rate - 1) then x2.permute else x2
    let x4 := x3.xorAt (x3.rate - 1) 0x80
    x4.permute

/-- The permutation a squeeze performs when its cursor stands at RATE (41 R169, lazy). -/
def SpongeCtx.refill (x : SpongeCtx) : SpongeCtx := if x.posOut ≥ x.rate then x.permute else x

/-- The copying loop of SpSqueeze: n bytes from the squeeze cursor on, and the slot after it (41 R169). -/
def SpongeCtx.squeezeLoop : Nat → SpongeCtx → List Byte × SpongeCtx
  | 0, x => ([], x)
  | n + 1, x =>
    let x1 := x.refill
    let r := SpongeCtx.squeezeLoop n { x1 with posOut := x1.posOut + 1 }
    (x1.s.getD x1.posOut 0 :: r.1, r.2)

/-- SpSqueeze: finalize if needed, then n bytes (41 R169). -/
def SpongeCtx.squeeze (x : SpongeCtx) (n : Nat) : List Byte × SpongeCtx := SpongeCtx.squeezeLoop n x.finish

/-- SpDestroy (41 R171); the other fields stay, unobservable (log 3). -/
def SpongeCtx.destroy (x : SpongeCtx) : SpongeCtx := { x with s := zeroState, destroyed := true }

/-- INIT_SPONGE (41 R160): RATE, SUFFIX, ROUNDS are the bytes of IMM, XOF its bit 24. -/
def execInitSponge (c rate suffix rounds : Byte) (xof : Bool) (outlen : Word) (s : State) : Out :=
  s.check (s.indexOK c) (.badContext .indexRange) <|
  s.check (decide (1 ≤ rate.toNat) && decide (rate.toNat ≤ 199)) (.configuration .rate) <|
  s.check (decide (1 ≤ rounds.toNat) && decide (rounds.toNat ≤ 24)) (.configuration .rounds) <|
  s.check (decide (1 ≤ outlen.toNat)) (.configuration .outlen) <|
  .next (s.setSlot c (.sponge (SpongeCtx.fresh rate.toNat suffix rounds.toNat xof outlen.toNat))).advance

end Sys2Proof.Machine
end

