-- ==== Sys2Proof/Machine/Context.lean ====
section
/-!
DEFINITION. The context commands UPDATE, DIGEST, DIGEST_INTO, XOF, CLONE and DESTROY (44_context_commands.md rules R240-R249),
each written once over the slot's KIND.
-/

namespace Sys2Proof.Machine

/-! ## What the commands do to a slot -/

/-- UPDATE's effect on a slot: SpAbsorb or B2Update (44 R241). -/
def Ctx.absorb (x : Ctx) (data : List Byte) : Ctx :=
  match x with
  | .sponge y => .sponge (y.absorb data)
  | .blake2 v y => .blake2 v (y.update data)

/-- SpDestroy or B2Destroy (44 R249). -/
def Ctx.destroy (x : Ctx) : Ctx :=
  match x with
  | .sponge y => .sponge y.destroy
  | .blake2 v y => .blake2 v y.destroy

/-- DIGEST's output and the slot after it: OUTLEN bytes, then the slot is destroyed (44 R243). -/
def Ctx.digest (x : Ctx) : List Byte × Ctx :=
  match x with
  | .sponge y => ((y.squeeze y.outlen).1, .sponge (y.squeeze y.outlen).2.destroy)
  | .blake2 v y => ((blake2Serialize v y.finish.h).take y.outlen, .blake2 v y.finish.destroy)

/-- DIGEST_INTO's output and the slot after it for a buffer of `n` bytes: a sponge gives OUTLEN bytes and is destroyed
(44 R245), a BLAKE2 slot gives min(n, HB) bytes of its state words and is not (44 R246). -/
def Ctx.digestInto (x : Ctx) (n : Nat) : List Byte × Ctx :=
  match x with
  | .sponge y => ((y.squeeze y.outlen).1, .sponge (y.squeeze y.outlen).2.destroy)
  | .blake2 v y => ((blake2Serialize v y.finish.h).take (min n (blake2HB v)), .blake2 v y.finish)

/-- XOF's output and the slot after it (44 R247). A BLAKE2 slot never gets here: the command's NOT_XOF check stops it. -/
def Ctx.squeeze (x : Ctx) (n : Nat) : List Byte × Ctx :=
  match x with
  | .sponge y => ((y.squeeze n).1, .sponge (y.squeeze n).2)
  | .blake2 v y => ([], .blake2 v y)

/-! ## The commands -/

/-- UPDATE (44 R241). -/
def execUpdate (c : Byte) (addr len : Word) (s : State) : Out :=
  s.live c fun x =>
  s.check (!x.finished) (.lifecycle .finished) <|
  s.check (s.rangeOK addr len.toNat) (.memoryFault .dataRead) <|
  s.check (x.counterFits len.toNat) (.lengthOverflow .counter) <|
  s.memRead 1 addr len.toNat fun data s =>
  .next (s.setSlot c (x.absorb data)).advance

/-- DIGEST (44 R243). -/
def execDigest (c : Byte) (addr : Word) (s : State) : Out :=
  s.live c fun x =>
  s.check (!x.finished) (.lifecycle .finished) <|
  s.check (s.rangeOK addr x.outlen) (.memoryFault .dataWrite) <|
  s.memWrite addr x.digest.1 fun s' =>
  .next (s'.setSlot c x.digest.2).advance

/-- DIGEST_INTO (44 R244): the whole buffer must be admitted, though fewer bytes may be written. -/
def execDigestInto (c : Byte) (addr len : Word) (s : State) : Out :=
  s.live c fun x =>
  s.check (!x.finished) (.lifecycle .finished) <|
  s.check (decide (x.outlen ≤ len.toNat)) (.buffer .tooSmall) <|
  s.check (s.rangeOK addr len.toNat) (.memoryFault .dataWrite) <|
  s.memWrite addr (x.digestInto len.toNat).1 fun s' =>
  .next (s'.setSlot c (x.digestInto len.toNat).2).advance

/-- XOF (44 R247). -/
def execXof (c : Byte) (addr len : Word) (s : State) : Out :=
  s.live c fun x =>
  s.check x.isXof (.lifecycle .notXof) <|
  s.check (s.rangeOK addr len.toNat) (.memoryFault .dataWrite) <|
  s.memWrite addr (x.squeeze len.toNat).1 fun s' =>
  .next (s'.setSlot c (x.squeeze len.toNat).2).advance

/-- CLONE (44 R248): the destination receives every field of the source (41 R172, 43 R231). -/
def execClone (src dst : Byte) (s : State) : Out :=
  s.check (s.indexOK src && s.indexOK dst) (.badContext .indexRange) <|
  s.check (src != dst) (.badContext .sameSlot) <|
  s.live src fun x =>
  .next (s.setSlot dst x).advance

/-- DESTROY (44 R249): succeeds on a destroyed slot too. -/
def execDestroy (c : Byte) (s : State) : Out :=
  s.occupied c fun x => .next (s.setSlot c x.destroy).advance

end Sys2Proof.Machine
end

