-- ==== Sys2Proof/Machine/Control.lean ====
section
/-!
DEFINITION. The commands HALT and NOP (45_control_commands.md rules R273, R274).
-/

namespace Sys2Proof.Machine

/-- HALT (45 R273): CP moves on, then BUSY <- 0. -/
def execHalt (s : State) : Out := .next { s.advance with busy := false }

/-- NOP (45 R274). -/
def execNop (s : State) : Out := .next s.advance

end Sys2Proof.Machine
end

