-- ==== Sys2Proof/Machine/Dispatch.lean ====
section
/-!
DEFINITION. The dispatch on the opcode map of 30_encoding.md rule R94: one arm per command, each one call of its meaning.
-/

namespace Sys2Proof.Machine

def exec (i : Instr) (s : State) : Host.Outcome State Fault Refusal :=
  match i with
  | .halt => Sys2Proof.Machine.execHalt s
  | .nop => Sys2Proof.Machine.execNop s
  | .initSponge ctx rate suffix rounds xof outlen => Sys2Proof.Machine.execInitSponge ctx rate suffix rounds xof outlen s
  | .initBlake2s ctx outlen key salt pers => Sys2Proof.Machine.execInitBlake2s ctx outlen key salt pers s
  | .initBlake2b ctx outlen key salt pers => Sys2Proof.Machine.execInitBlake2b ctx outlen key salt pers s
  | .update ctx addr len => Sys2Proof.Machine.execUpdate ctx addr len s
  | .digest ctx addr => Sys2Proof.Machine.execDigest ctx addr s
  | .digestInto ctx addr len => Sys2Proof.Machine.execDigestInto ctx addr len s
  | .xof ctx addr len => Sys2Proof.Machine.execXof ctx addr len s
  | .clone src dst => Sys2Proof.Machine.execClone src dst s
  | .destroy ctx => Sys2Proof.Machine.execDestroy ctx s
  | .keccakP rounds src dst => Sys2Proof.Machine.execKeccakP rounds src dst s

end Sys2Proof.Machine
end

