-- ==== Sys2Proof/Machine/HostPort.lean ====
section
/-!
DEFINITION. What the outside world does to the machine: the register block (10_state.md rules R24-R30), START
(45_control_commands.md rules R270, R278), the host's memory accesses with the races of 20_memory.md rule R73, and reset
(70_reset_and_hazards.md rules R340, R341).
-/

namespace Sys2Proof

/-- Whether the `n` bytes from `a` touch the register block, 64 bytes that do not wrap (10 R24; log 18). -/
def Config.touchesBlock (c : Config) (a n : Nat) : Bool :=
  decide (0 < n) && decide (a < c.mmioBase + 64) && decide (c.mmioBase < a + n)

/-- The register offset a host access of `n` bytes at `a` names: only one aligned 32-bit access inside the block names one
(10 R24). -/
def Config.registerAt (c : Config) (a n : Nat) : Option Nat :=
  if n = 4 ∧ c.mmioBase ≤ a ∧ a < c.mmioBase + 64 ∧ (a - c.mmioBase) % 4 = 0
  then some (a - c.mmioBase) else none

/-- Whether a device stands at one of the `n` addresses from `a` (93 U6). -/
def Config.anyDevice (c : Config) : Nat → Nat → Bool
  | _, 0 => false
  | a, n + 1 => c.isDevice a || Config.anyDevice c (a + 1) n

end Sys2Proof

namespace Sys2Proof.Machine

/-! ## START and the register block -/

/-- What START does to the race bookkeeping: what the host stored before is ordered before the run, and so is what earlier runs
read and wrote (20 R73(a)); the new run races with none of it. -/
def Sync.start (y : Sync) : Sync :=
  { y with hostWrote := [], engineWrote := [], readRaced := [], unsettled := AddrSet.union y.unsettled y.readRaced }

/-- START (45 R270): ERR, ERRCODE, ERRCP <- 0, BUSY <- 1; CP and the slots stay. -/
def State.start (s : State) : State :=
  { s with err := false, errcode := 0, errcp := 0, busy := true, sync := s.sync.start }

/-- CP as the host reads it: while BUSY = 1 the address of the command being executed or of the next, a free choice
(45 R278, log 9). -/
def State.cpSeen (s : State) : Word :=
  if s.busy && Config.cpReadsNext s.draws then s.cp + 32 else s.cp

/-- What a load of the register at `off` reads (10 R24-R30); CTRL and the reserved offsets read 0. -/
def State.readRegister (s : State) (off : Nat) : Word :=
  match off with
  | 0x04 => s.status
  | 0x08 => s.cpSeen
  | 0x0C => s.errcode
  | 0x10 => s.errcp
  | 0x14 => s.caps
  | _ => 0

/-- A load of the register at `off`. Reading STATUS with BUSY = 0 orders the run, its reads and its writes, before the host's
later reads (20 R73(b)). -/
def State.loadRegister (s : State) (off : Nat) : State :=
  { s with
    hostData := leBytes (s.readRegister off)
    sync := if off = 0x04 ∧ s.busy = false then { s.sync with older := [], readRaced := [], unsettled := [] } else s.sync
    draws := s.draws + 1 }

/-- A store of `v` to the register at `off` (10 R24-R26): CTRL bit 0 starts an idle engine, CP is written while BUSY = 0 with
bits 1:0 discarded, everything else is ignored. -/
def State.storeRegister (s : State) (off : Nat) (v : Word) : State :=
  match off with
  | 0x00 => if v.getLsbD 0 && !s.busy then s.start else s
  | 0x08 => if s.busy then s else { s with cp := cpOf v }
  | _ => s

/-! ## The host's memory accesses -/

/-- The values byte `a` held before engine writes that no read of BUSY = 0 has ordered before the host. -/
def Sync.olderAt (y : Sync) (a : Nat) : List Byte := (y.older.filter fun c => c.1 == a).map Prod.snd

/-- The host's store is now what byte `a` was last written with, for the host and for every run begun after it. -/
def Sync.settle (y : Sync) (a : Nat) : Sync :=
  { y with
    older := y.older.filter fun c => c.1 != a
    raced := AddrSet.erase y.raced a
    unsettled := AddrSet.erase y.unsettled a }

/-- What a host store of byte `a` does to the race bookkeeping (20 R73): while BUSY = 1 it may race with the run, and it has no
order with a write this run has made; a write of an earlier run stands before it (45 R270), as every write does while BUSY = 0. -/
def Sync.hostWrite (y : Sync) (busy : Bool) (a : Nat) : Sync :=
  if busy then
    if y.engineWrote.contains a then
      { y with hostWrote := AddrSet.insert y.hostWrote a, raced := AddrSet.insert y.raced a }
    else { y.settle a with hostWrote := AddrSet.insert y.hostWrote a }
  else { y.settle a with readRaced := AddrSet.erase y.readRaced a }

/-- The same for `n` bytes from `a`. -/
def Sync.hostWrites (busy : Bool) : Sync → Nat → Nat → Sync
  | y, _, 0 => y
  | y, a, n + 1 => Sync.hostWrites busy (y.hostWrite busy a) (a + 1) n

/-- The bytes `data` stored by the host from `a`. -/
def State.hostPut (s : State) (a : Nat) (data : List Byte) : State :=
  { s with mem := s.mem.writeBytes a data, sync := s.sync.hostWrites s.busy a data.length }

/-- The value number `n` of `b` and the further values, the last one when there are not so many. -/
def pickByte : Nat → Byte → List Byte → Byte
  | _, b, [] => b
  | n, b, c :: cs => if n = 0 then b else pickByte (n - 1) c cs

/-- The values other than memory's a host read of byte `a` may give (93 U7; log 8): the one memory holds in the run's coming
state `t`, and those the byte held before engine writes that no read of BUSY = 0 has ordered. -/
def State.hostOthers (s t : State) (a : Nat) : List Byte :=
  (t.mem.read a :: s.sync.olderAt a).filter fun b => b != s.mem.read a

/-- Whether byte `a` is one the host stored during a run that also writes it, or that reads it after the store (20 R73), or was
one in an earlier run and nothing has ordered it since. -/
def Sync.hostRaced (y : Sync) (a : Nat) : Bool := y.raced.contains a || y.readRaced.contains a || y.unsettled.contains a

/-- The byte a host load reads at `a`: any value if the host stored it during a run that also writes it or then reads it, be it
with a command still to come, and nothing has settled it since (20 R73), the old or the new value, a free choice, if the run writes it without order (93 U7), and what memory holds otherwise (20 R70). `ahead k` is the
state the run comes to in `k` engine turns. -/
def State.hostByte (s : State) (ahead : Nat → State) (a : Nat) : Byte :=
  let t := ahead (Config.hostLookAhead s.draws a)
  if s.sync.hostRaced a || t.sync.hostRaced a then Config.hostRaceByte s.draws a
  else pickByte (Config.hostRaceChoice s.draws a) (s.mem.read a) (s.hostOthers t a)

/-- The `n` bytes a host load reads from `a`. -/
def State.hostBytes (s : State) (ahead : Nat → State) : Nat → Nat → List Byte
  | _, 0 => []
  | a, n + 1 => s.hostByte ahead a :: State.hostBytes s ahead (a + 1) n

/-- How a host access of `n` bytes at `a` is routed: to a register, to memory, or to a stop (10 R24, 20 R61, log 11). -/
def State.hostAccess (s : State) (a n : Nat) (register : Nat → State) (memory : State) : Out :=
  if s.cfg.touchesBlock a n then
    match s.cfg.registerAt a n with
    | some off => .next (register off)
    | none => .refused .hostRegisterAccess
  else if !s.cfg.allOK a n then .fault .hostUnbacked
  else if s.cfg.anyDevice a n then .refused .hostOnDevice
  else .next memory

/-- A host load of `n` bytes at `a`, one turn (10 R21, R24; log 13). -/
def State.hostLoad (s : State) (a n : Nat) (ahead : Nat → State) : Out :=
  s.hostAccess a n s.loadRegister { s with hostData := s.hostBytes ahead a n, draws := s.draws + 1 }

/-- A host store of `data` at `a` (10 R21, R24); a register is written with the 4 bytes little-endian (20 R64(e)). -/
def State.hostStore (s : State) (a : Nat) (data : List Byte) : Out :=
  s.hostAccess a data.length (fun off => s.storeRegister off (leWord 32 data)) (s.hostPut a data)

/-! ## Reset -/

/-- Memory when reset interrupts a command that would turn `old` into `new`: each byte holds its old or its new value, a free
choice per byte (70 R341, log 10). -/
def Memory.blend (draw : Nat) (old new : Memory) : Memory :=
  ((old ++ new).map Prod.fst).foldl
    (fun m a => if Config.resetAfterWrite draw a then m.write a (new.read a) else m) old

/-- Reset (70 R340, R341): registers 0, every slot FREE, parameters kept, memory kept but for the output bytes of the command
in progress. `command` is what the engine's turn would have answered. -/
def State.resetEvent (s : State) (command : Out) : State :=
  let kept := { State.resetWith s.nctx s.cfg with
    mem := s.mem, sync := s.sync, pending := s.pending, hostData := s.hostData, draws := s.draws + 1 }
  if s.busy then
    match command with
    | .next t =>
      { kept with
        mem := Memory.blend s.draws s.mem t.mem
        sync := { t.sync with raced := AddrSet.union s.sync.raced t.sync.raced } }
    | _ => kept
  else kept

end Sys2Proof.Machine
end

