-- ==== Sys2Proof/Machine/Step.lean ====
section
/-!
DEFINITION. One step of the machine (45_control_commands.md rule R271): an engine turn, or one turn of the host or the
platform, as `pending` says.
-/

namespace Sys2Proof.Machine

/-- The engine's turn: while BUSY = 1 it fetches, decodes and executes the descriptor at CP (45 R271); an idle engine keeps all
its state (60 R325, 70 R342; log 17). -/
def engineTurn (s : State) : Out := if s.busy then s.fetch exec else .next s

/-- Where `n` turns of the engine alone bring a state; it stays where a turn has no next state. -/
def engineAhead : Nat → State → State
  | 0, s => s
  | n + 1, s =>
    match engineTurn s with
    | .next t => engineAhead n t
    | .fault _ => s
    | .refused _ => s

/-- The states a running engine comes to after the host's current turn; an idle engine stays (93 U7; log 8). -/
def State.coming (s : State) (n : Nat) : State := if s.busy then engineAhead n { s with draws := s.draws + 1 } else s

/-- One turn of the outside world. -/
def hostTurn (t : HostTurn) (s : State) : Out :=
  match t with
  | .engine => engineTurn s
  | .load a n => s.hostLoad a n s.coming
  | .store a data => s.hostStore a data
  | .reset => .next (s.resetEvent (engineTurn s))

/-- One step. -/
def step (s : State) : Host.Outcome State Fault Refusal :=
  match s.pending with
  | [] => engineTurn s
  | t :: rest => hostTurn t { s with pending := rest }

/-- `s` with the instruction of `nbits` bits `w` stored at CP and the engine started on it (70 R343), no host turn pending: the
next step fetches and runs it. Log 4. -/
def State.withFetchWord (s : State) (nbits w : Nat) : State :=
  let idle := { s with busy := false, pending := [] }
  (idle.hostPut s.cp.toNat (tableBytes nbits w).toList).start

end Sys2Proof.Machine
end

