-- ==== Sys2Proof/Safety.lean ====
section
/-!
DEFINITION. What a good state is: the invariants 10_state.md rules R26, R28, R34 and R38 state, the canonical form of memory,
and the register rule of 45_control_commands.md rule R278; what a safe step is; and the words the claims are stated in: what a
slot holds, which ranges are plain memory, the opcode map and the check order as the spec's own tables write them.
-/

namespace Sys2Proof.Machine

/-- The legal values of a SPONGE slot's fields (10 R33) and the invariant of 10 R34. -/
structure SpongeCtx.Inv (x : SpongeCtx) : Prop where
  rate     : 1 ≤ x.rate ∧ x.rate ≤ 199
  rounds   : 1 ≤ x.rounds ∧ x.rounds ≤ 24
  outlen   : 1 ≤ x.outlen ∧ x.outlen < 2 ^ 32
  pos      : x.pos < x.rate
  posOut   : x.posOut ≤ x.rate
  absorbing : x.finished = false → x.posOut = 0
  wiped    : x.destroyed = true → x.s = zeroState

/-- The legal values of a BLAKE2 slot's fields (10 R37) and the invariant of 10 R38, with what DESTROY leaves (43 R230). -/
structure Blake2Ctx.Inv {v : Variant} (x : Blake2Ctx v) : Prop where
  outlen   : 1 ≤ x.outlen ∧ x.outlen ≤ blake2KK v
  length   : x.length ≤ 2 ^ (2 * v.w) - 1
  empty    : x.pos = 0 ↔ x.length = 0
  buffered : 0 < x.length → 1 ≤ x.pos ∧ x.pos ≤ v.bb ∧ x.length % v.bb = x.pos % v.bb
  wiped    : x.destroyed = true → x.h = Vector.replicate 8 0 ∧ x.buf = Vector.replicate v.bb 0

/-- The invariant of what a slot holds. -/
def Ctx.Inv : Ctx → Prop
  | .sponge x => x.Inv
  | .blake2 _ x => x.Inv

/-- The invariant of the machine. -/
structure State.Inv (s : State) : Prop where
  /-- NCTX is 1..255 (10 R30) -/
  slots    : 1 ≤ s.ctx.length ∧ s.ctx.length ≤ 255
  /-- CP[1:0] is 0 (10 R26) -/
  cp       : s.cp &&& 3 = 0
  /-- a recorded error's descriptor address is aligned as CP is (10 R29, R31) -/
  errcp    : s.errcp &&& 3 = 0
  /-- no error is recorded while ERR = 0 (10 R28, R29, 45 R270) -/
  noError  : s.err = false → s.errcode = 0 ∧ s.errcp = 0
  /-- a recorded error is one of the table of rule R301 -/
  error    : s.err = true → ∃ e : EngineError, s.errcode = e.code
  /-- while BUSY = 1, ERR is 0 (45 R278) -/
  running  : s.busy = true → s.err = false
  /-- every slot that is not FREE is as its KIND says -/
  contexts : ∀ (c : Nat) (x : Ctx), s.ctx[c]? = some (some x) → x.Inv
  /-- memory keeps its canonical form -/
  memory   : s.mem.wf = true
  /-- memory has only 32-bit addresses (20 R60) -/
  bounded  : s.mem.bounded = true

/-- A step that answers a next state: neither a fault nor a refusal. -/
def Safe (o : Out) : Prop := ∃ t, o = .next t

/-- `n` steps in a row, stopping at the first that does not answer a next state. -/
def runFor : Nat → State → Out
  | 0, s => .next s
  | n + 1, s =>
    match step s with
    | .next t => runFor n t
    | .fault f => .fault f
    | .refused r => .refused r

/-! ## Words of the claims -/

/-- Slot c holds the instance `x` (10 R32). -/
abbrev State.Holds (s : State) (c : Byte) (x : Ctx) : Prop := s.ctx[c.toNat]? = some (some x)

/-- The `n` bytes from `a` are admitted (20 R62), and neither the register block nor a device stands there (20 R61, R70). -/
abbrev State.Plain (s : State) (a : Word) (n : Nat) : Prop := s.rangeOK a n = true ∧ s.cfg.barredRange a.toNat n = none

/-- No byte of the `n` from `a` is one the host has raced for (20 R73). -/
abbrev State.Unraced (s : State) (a n : Nat) : Prop := ∀ k < n, a + k ∉ s.sync.hostWrote ∧ a + k ∉ s.sync.raced

/-- Every 32-byte group of the address space is plain memory, holds a NOP, and no byte is raced: a memory without an end for a
run (45 R277). -/
structure State.NopsEverywhere (s : State) : Prop where
  plain   : ∀ a : Word, a.toNat % 32 = 0 → s.Plain a 32
  nop     : ∀ a : Word, a.toNat % 32 = 0 → decode (Vector.ofFn fun j => s.mem.read (a.toNat + j.val)) = .ok .nop
  unraced : s.sync.hostWrote = [] ∧ s.sync.raced = []

/-- The `n` bytes memory holds from `a`. -/
def Memory.bytes (m : Memory) (a n : Nat) : List Byte := (List.range n).map fun k => m.read (a + k)

/-- The slot-number operands a command changes the slot of (44, 41 R160, 42 R205): every other slot is left alone (70 R350). -/
def changedSlot : Instr → Option Byte
  | .halt => none
  | .nop => none
  | .initSponge c _ _ _ _ _ => some c
  | .initBlake2s c _ _ _ _ => some c
  | .initBlake2b c _ _ _ _ => some c
  | .update c _ _ => some c
  | .digest c _ => some c
  | .digestInto c _ _ => some c
  | .xof c _ _ => some c
  | .clone _ dst => some dst
  | .destroy c => some c
  | .keccakP _ _ _ => none

/-- The commands that replace what slot c holds by a new instance: INIT of it and CLONE into it (10 R32). -/
def replacesSlot : Instr → Byte → Prop
  | .initSponge c _ _ _ _ _, d => c = d
  | .initBlake2s c _ _ _ _, d => c = d
  | .initBlake2b c _ _ _ _, d => c = d
  | .clone _ c, d => c = d
  | _, _ => False

/-- How many bytes DIGEST writes from a slot (44 R243). -/
def Ctx.digestCount : Ctx → Nat
  | .sponge x => x.outlen
  | .blake2 v x => min x.outlen (blake2HB v)

/-- How many bytes DIGEST_INTO writes from a slot into a buffer of `n` (44 R245, R246). -/
def Ctx.digestIntoCount (n : Nat) : Ctx → Nat
  | .sponge x => x.outlen
  | .blake2 v _ => min n (blake2HB v)

/-- What slot c holds, FREE beyond the last slot. -/
def State.slot (s : State) (c : Byte) : Slot := (s.ctx[c.toNat]?).getD none

/-- The byte range a command stores to (20 R68): nothing, or a start and a length. -/
def storedRange : Instr → State → Option (Word × Nat)
  | .halt, _ => none
  | .nop, _ => none
  | .initSponge _ _ _ _ _ _, _ => none
  | .initBlake2s _ _ _ _ _, _ => none
  | .initBlake2b _ _ _ _ _, _ => none
  | .update _ _ _, _ => none
  | .digest c addr, s => (s.slot c).map fun x => (addr, x.digestCount)
  | .digestInto c addr len, s => (s.slot c).map fun x => (addr, x.digestIntoCount len.toNat)
  | .xof _ addr len, _ => some (addr, len.toNat)
  | .clone _ _, _ => none
  | .destroy _, _ => none
  | .keccakP _ _ dst, _ => some (dst, 200)

/-- The byte ranges a command reads (20 R68). -/
def readRanges : Instr → List (Word × Nat)
  | .halt => []
  | .nop => []
  | .initSponge _ _ _ _ _ _ => []
  | .initBlake2s _ _ key salt pers => ([key, salt, pers].filter (·.present)).map fun r => (r.addr, r.len.toNat)
  | .initBlake2b _ _ key salt pers => ([key, salt, pers].filter (·.present)).map fun r => (r.addr, r.len.toNat)
  | .update _ addr len => [(addr, len.toNat)]
  | .digest _ _ => []
  | .digestInto _ _ _ => []
  | .xof _ _ _ => []
  | .clone _ _ => []
  | .destroy _ => []
  | .keccakP _ src _ => [(src, 200)]

/-- A check of rule R302: whether it passes, and the error it raises when it does not. -/
abbrev Check := Bool × EngineError

/-- BAD_CONTEXT(INDEX_RANGE), then BAD_CONTEXT(FREE_SLOT) (60 R302). -/
def slotChecks (s : State) (c : Byte) : List Check :=
  [(decide (c.toNat < s.nctx), .badContext .indexRange), ((s.slot c).isSome, .badContext .freeSlot)]

/-- LIFECYCLE(DESTROYED) (60 R302). -/
def destroyedCheck (s : State) (c : Byte) : Check := ((s.slot c).all fun x => !x.destroyed, .lifecycle .destroyed)

/-- LIFECYCLE(FINISHED) (60 R302). -/
def finishedCheck (s : State) (c : Byte) : Check := ((s.slot c).all fun x => !x.finished, .lifecycle .finished)

/-- The checks of INIT_BLAKE2S/INIT_BLAKE2B in order, with the numbers of the variant (60 R302, 42 R201). -/
def blake2Checks (kk sl pl : Nat) (s : State) (c : Byte) (outlen : Word) (key salt pers : OptRange) : List Check :=
  [(decide (c.toNat < s.nctx), .badContext .indexRange),
   (decide (1 ≤ outlen.toNat ∧ outlen.toNat ≤ kk), .configuration .outlen),
   (decide (key.present → 1 ≤ key.len.toNat ∧ key.len.toNat ≤ kk), .configuration .keylen),
   (decide (salt.present → salt.len.toNat = sl), .configuration .saltlen),
   (decide (pers.present → pers.len.toNat = pl), .configuration .perslen),
   (decide (key.present → s.rangeOK key.addr key.len.toNat), .memoryFault .dataRead),
   (decide (salt.present → s.rangeOK salt.addr salt.len.toNat), .memoryFault .dataRead),
   (decide (pers.present → s.rangeOK pers.addr pers.len.toNat), .memoryFault .dataRead)]

/-- The table of rule R302: the checks of each command, in order. -/
def checksOf : Instr → State → List Check
  | .halt, _ => []
  | .nop, _ => []
  | .initSponge c rate _ rounds _ outlen, s =>
    [(decide (c.toNat < s.nctx), .badContext .indexRange),
     (decide (1 ≤ rate.toNat ∧ rate.toNat ≤ 199), .configuration .rate),
     (decide (1 ≤ rounds.toNat ∧ rounds.toNat ≤ 24), .configuration .rounds),
     (decide (1 ≤ outlen.toNat), .configuration .outlen)]
  | .initBlake2s c outlen key salt pers, s => blake2Checks 32 8 8 s c outlen key salt pers
  | .initBlake2b c outlen key salt pers, s => blake2Checks 64 16 16 s c outlen key salt pers
  | .update c addr len, s =>
    slotChecks s c ++
      [destroyedCheck s c, finishedCheck s c, (s.rangeOK addr len.toNat, .memoryFault .dataRead),
       ((s.slot c).all fun x => x.counterFits len.toNat, .lengthOverflow .counter)]
  | .digest c addr, s =>
    slotChecks s c ++
      [destroyedCheck s c, finishedCheck s c,
       ((s.slot c).all fun x => s.rangeOK addr x.outlen, .memoryFault .dataWrite)]
  | .digestInto c addr len, s =>
    slotChecks s c ++
      [destroyedCheck s c, finishedCheck s c, ((s.slot c).all fun x => decide (x.outlen ≤ len.toNat), .buffer .tooSmall),
       (s.rangeOK addr len.toNat, .memoryFault .dataWrite)]
  | .xof c addr len, s =>
    slotChecks s c ++
      [destroyedCheck s c, ((s.slot c).all fun x => x.isXof, .lifecycle .notXof),
       (s.rangeOK addr len.toNat, .memoryFault .dataWrite)]
  | .clone src dst, s =>
    [(decide (src.toNat < s.nctx ∧ dst.toNat < s.nctx), .badContext .indexRange),
     (decide (src ≠ dst), .badContext .sameSlot),
     ((s.slot src).isSome, .badContext .freeSlot),
     destroyedCheck s src]
  | .destroy c, s => slotChecks s c
  | .keccakP rounds src dst, s =>
    [(decide (1 ≤ rounds.toNat ∧ rounds.toNat ≤ 24), .configuration .rounds),
     (s.rangeOK src 200, .memoryFault .dataRead),
     (s.rangeOK dst 200, .memoryFault .dataWrite)]

/-- The error a command raises: that of its first check that fails (60 R304). -/
def firstError (i : Instr) (s : State) : Option EngineError := ((checksOf i s).find? fun c => !c.1).map Prod.snd

/-- The opcode map of 30 R94: OPC, W0 mask, and the words that must be zero whole. -/
def opcodeMap : List (Byte × Word × List (Fin 8)) :=
  [(0x01, 0xFFFFFFFF, [1, 2, 3, 4, 5, 6, 7]),
   (0x02, 0xFFFFFFFF, [1, 2, 3, 4, 5, 6, 7]),
   (0x10, 0xFFFF00FF, [2, 4, 5, 6, 7]),
   (0x11, 0xF8FF00FF, []),
   (0x12, 0xF8FF00FF, []),
   (0x20, 0xFFFF00FF, [1, 4, 5, 6, 7]),
   (0x30, 0xFFFF00FF, [1, 3, 4, 5, 6, 7]),
   (0x31, 0xFFFF00FF, [1, 4, 5, 6, 7]),
   (0x32, 0xFFFF00FF, [1, 4, 5, 6, 7]),
   (0x40, 0xFF0000FF, [1, 2, 3, 4, 5, 6, 7]),
   (0x41, 0xFFFF00FF, [1, 2, 3, 4, 5, 6, 7]),
   (0x50, 0xFFFFFFFF, [3, 5, 6, 7])]

/-- `reserved` of 30 R95 for a row of the map. -/
abbrev ReservedSet (row : Byte × Word × List (Fin 8)) (d : Desc) : Prop :=
  (d[0] &&& row.2.1 &&& 0xFFFFFF00) ≠ 0 ∨ (∃ k ∈ row.2.2, d[k] ≠ 0) ∨
  (row.1 = 0x10 ∧ d[1].extractLsb' 25 7 ≠ 0) ∨
  ((row.1 = 0x11 ∨ row.1 = 0x12) ∧
    ((d[0].getLsbD 24 = false ∧ (d[2] ≠ 0 ∨ d[3] ≠ 0)) ∨
     (d[0].getLsbD 25 = false ∧ (d[4] ≠ 0 ∨ d[5] ≠ 0)) ∨
     (d[0].getLsbD 26 = false ∧ (d[6] ≠ 0 ∨ d[7] ≠ 0))))

/-- One iteration of the procedure of 40 R136: the LFSR byte and the round constant after step j. -/
def lfsrStep (st : Nat × Nat) (j : Nat) : Nat × Nat :=
  let l := ((st.1 <<< 1) ^^^ ((st.1 >>> 7) * 0x71)) % 256
  (l, if l &&& 2 ≠ 0 then st.2 ^^^ (1 <<< ((1 <<< j) - 1)) else st.2)

/-- The procedure of 40 R136 run for `n` steps from LFSR `l` and lane (x, y): the rows (PI[t], ROTL[t], RC[t]) from step t on. -/
def deriveTables : Nat → Nat → Nat → Nat → Nat → List (Nat × Nat × Nat)
  | 0, _, _, _, _ => []
  | n + 1, t, l, x, y =>
    let x' := y
    let y' := (2 * x + 3 * y) % 5
    let r := (List.range 7).foldl lfsrStep (l, 0)
    (x' + 5 * y', ((t + 1) * (t + 2) / 2) % 64, r.2) :: deriveTables n (t + 1) r.1 x' y'

/-- The ρ offset of source lane x + 5y, one row y of lanes at a time (40 R134). -/
def rhoOffset (x y : Fin 5) : Nat :=
  match y with
  | 0 => #v[0, 1, 62, 28, 27][x.val]
  | 1 => #v[36, 44, 6, 55, 20][x.val]
  | 2 => #v[3, 10, 43, 25, 39][x.val]
  | 3 => #v[41, 45, 15, 21, 8][x.val]
  | 4 => #v[18, 2, 61, 56, 14][x.val]

end Sys2Proof.Machine
end

