-- ==== Sys2Proof/Certificates/Slice0/Obligations.lean ====
section
/-!
DEFINITION. The statements for the provers, in the order encoding, step, commands, errors, frames, algorithms, host, reset and
races, invariants. Each docstring names the rule of spec/ it formalises; the vocabulary is that of Safety.lean.
-/

open Sys2Proof Sys2Proof.Machine

/-! ## Encoding -/

/-- Decoding the 32 bytes of a well-formed command gives that command back, every operand at every value (30 R90-R94). -/
def Obligations.EncodeThenDecodeGivesCommand : Prop :=
  ∀ i : Instr, i.wellFormed = true → decode (encodeBytes i) = .ok i

/-- Bytes that decode are exactly the encoding of the command they decode to, and that command is well formed (30 R92, R95). -/
def Obligations.DecodedBytesAreTheEncoding : Prop :=
  ∀ (bs : DescBytes) (i : Instr), decode bs = .ok i → encodeBytes i = bs ∧ i.wellFormed = true

/-- An absent option with a non-zero address or length word is RESERVED_NONZERO (30 R93, R95). -/
def Obligations.AbsentOptionWordsAreReserved : Prop :=
  ∀ i : Instr, i.wellFormed = false → decode (encodeBytes i) = .error .reservedNonzero

/-- The decoder of 30 R95 on any 32 bytes, with the masks and zero lists of R94. -/
def Obligations.DecodeFollowsOpcodeMap : Prop :=
  ∀ bs : DescBytes,
    ((∀ row ∈ opcodeMap, row.1 ≠ (Desc.ofBytes bs).opc) → decode bs = .error .unknownOpcode) ∧
    ∀ row ∈ opcodeMap, row.1 = (Desc.ofBytes bs).opc →
      (ReservedSet row (Desc.ofBytes bs) → decode bs = .error .reservedNonzero) ∧
      (¬ ReservedSet row (Desc.ofBytes bs) → ∃ i, decode bs = .ok i ∧ i.opcode.toByte = row.1)

/-- One descriptor of each command, its words as 95 and the worked examples of the rules print them. -/
def Obligations.SpecDescriptorsDecode : Prop :=
  decodeDesc #v[0x00000001, 0, 0, 0, 0, 0, 0, 0] = .ok .halt ∧
  decodeDesc #v[0x00000002, 0, 0, 0, 0, 0, 0, 0] = .ok .nop ∧
  decodeDesc #v[0x00000010, 0x00180688, 0, 0x00000020, 0, 0, 0, 0] = .ok (.initSponge 0 136 0x06 24 false 32) ∧
  decodeDesc #v[0x01000011, 0x00000020, 0x00001100, 0x00000001, 0, 0, 0, 0] =
    .ok (.initBlake2s 0 32 ⟨true, 0x1100, 1⟩ .absent .absent) ∧
  decodeDesc #v[0x06000312, 0x00000040, 0, 0, 0x00001200, 0x00000010, 0x00001210, 0x00000010] =
    .ok (.initBlake2b 3 64 .absent ⟨true, 0x1200, 16⟩ ⟨true, 0x1210, 16⟩) ∧
  decodeDesc #v[0x00000020, 0, 0x00001000, 0x00000003, 0, 0, 0, 0] = .ok (.update 0 0x1000 3) ∧
  decodeDesc #v[0x00000030, 0, 0x00002000, 0, 0, 0, 0, 0] = .ok (.digest 0 0x2000) ∧
  decodeDesc #v[0x00000031, 0, 0x00002000, 0x00000028, 0, 0, 0, 0] = .ok (.digestInto 0 0x2000 40) ∧
  decodeDesc #v[0x00000032, 0, 0x00002000, 0, 0, 0, 0, 0] = .ok (.xof 0 0x2000 0) ∧
  decodeDesc #v[0x00010040, 0, 0, 0, 0, 0, 0, 0] = .ok (.clone 0 1) ∧
  decodeDesc #v[0x00000041, 0, 0, 0, 0, 0, 0, 0] = .ok (.destroy 0) ∧
  decodeDesc #v[0x00000050, 0x00000018, 0x00001000, 0, 0x00001008, 0, 0, 0] = .ok (.keccakP 24 0x1000 0x1008)

/-! ## Step -/

/-- A running engine whose descriptor at CP decodes runs exactly that command (45 R271); the step takes the engine's turn off
`pending`, notes the 32 bytes read in the race record (log 7) and does nothing else. -/
def Obligations.StepRunsDecodedCommand : Prop :=
  ∀ (s : State) (i : Instr), s.busy = true → (s.pending = [] ∨ s.pending.head? = some .engine) → s.Plain s.cp 32 →
    decode s.descBytes = .ok i →
    step s = exec i { s with pending := s.pending.tail, sync := s.sync.engineReads s.cp.toNat 32 }

/-- A descriptor that is not admitted, or does not decode, ends the run with its error (45 R271, R272; 30 R95, R96); one in the
register block or on a device is refused (20 R61, R70). -/
def Obligations.FetchFailuresStopTheRun : Prop :=
  ∀ s : State, s.busy = true → (s.pending = [] ∨ s.pending.head? = some .engine) →
    let s' : State := { s with pending := s.pending.tail }
    (s.rangeOK s.cp 32 = false → step s = .next (s'.raise (.memoryFault .descFetch))) ∧
    (2 ^ 32 < s.cp.toNat + 32 → step s = .next (s'.raise (.memoryFault .descFetch))) ∧
    (∀ e, s.Plain s.cp 32 → decode s.descBytes = .error e →
      step s = .next (State.raise { s' with sync := s.sync.engineReads s.cp.toNat 32 } (.illegalCommand e))) ∧
    (∀ r, s.rangeOK s.cp 32 = true → s.cfg.barredRange s.cp.toNat 32 = some r → step s = .refused r)

/-- An idle engine keeps all its state until the next START or reset (60 R325, 70 R342). -/
def Obligations.IdleEngineKeepsState : Prop :=
  ∀ s : State, s.busy = false →
    (s.pending = [] → step s = .next s) ∧
    (∀ rest, s.pending = .engine :: rest → step s = .next { s with pending := rest })

/-- The boot sequence of 70 R343: the host stores a command's descriptor, writes CP, writes CTRL = 1, and the next step runs
that command. -/
def Obligations.StoredCommandRuns : Prop :=
  ∀ (s : State) (i : Instr) (a : Word), i.wellFormed = true → s.busy = false → a &&& 3 = 0 → s.Plain a 32 →
    s.pending = [.store a.toNat (encodeBytes i).toList, .store (s.cfg.mmioBase + 8) (leBytes a),
      .store s.cfg.mmioBase (leBytes (1 : Word))] →
    ∃ s1 s2 s3, step s = .next s1 ∧ step s1 = .next s2 ∧ step s2 = .next s3 ∧
      s3.busy = true ∧ s3.err = false ∧ s3.cp = a ∧ s3.ctx = s.ctx ∧ s3.pending = [] ∧ step s3 = exec i s3

/-- A run ends only at a HALT or an error, and where neither is met it never ends: over a memory of NOPs it is still running
after any number of steps, CP wrapping at the top (45 R277, 93 U16; that the register block can stand beyond that memory is the model's
choice, log 18). -/
def Obligations.RunEndsOnlyAtHaltOrError : Prop :=
  (∀ s t : State, s.busy = true → engineTurn s = .next t → t.busy = false →
    decode s.descBytes = .ok .halt ∨ t.err = true) ∧
  (∀ s : State, s.busy = true → s.pending = [] → s.cp.toNat % 32 = 0 → s.NopsEverywhere →
    ∀ n, ∃ t, runFor n s = .next t ∧ t.busy = true ∧ t.err = s.err ∧ t.cp = s.cp + BitVec.ofNat 32 (32 * n))

/-! ## Commands that complete -/

/-- HALT and NOP (45 R273, R274): their one descriptor each, any other with their opcode being RESERVED_NONZERO, and their whole
effect, with the model's own counter `draws` moving on (log 6). -/
def Obligations.HaltStopsAndNopAdvances : Prop :=
  (∀ s : State, exec .halt s = .next { s with cp := s.cp + 32, busy := false, draws := s.draws + 1 }) ∧
  (∀ s : State, exec .nop s = .next { s with cp := s.cp + 32, draws := s.draws + 1 }) ∧
  (∀ d : Desc, d.opc = 0x01 →
    decodeDesc d = if d = #v[1, 0, 0, 0, 0, 0, 0, 0] then .ok .halt else .error .reservedNonzero) ∧
  (∀ d : Desc, d.opc = 0x02 →
    decodeDesc d = if d = #v[2, 0, 0, 0, 0, 0, 0, 0] then .ok .nop else .error .reservedNonzero)

/-- INIT_SPONGE completes with the slot of 41 R161, whatever the slot held before. -/
def Obligations.InitSpongeMakesFreshSlot : Prop :=
  ∀ (s : State) (c rate suffix rounds : Byte) (xof : Bool) (outlen : Word),
    c.toNat < s.nctx → 1 ≤ rate.toNat → rate.toNat ≤ 199 → 1 ≤ rounds.toNat → rounds.toNat ≤ 24 → 1 ≤ outlen.toNat →
    exec (.initSponge c rate suffix rounds xof outlen) s =
      .next { s with
        ctx := s.ctx.set c.toNat (some (.sponge
          { s := Vector.replicate 200 0, rate := rate.toNat, suffix := suffix, rounds := rounds.toNat, xof := xof,
            outlen := outlen.toNat, pos := 0, posOut := 0, finished := false, destroyed := false }))
        cp := s.cp + 32
        draws := s.draws + 1 }

/-- INIT_BLAKE2S completes with the slot B2Init makes of the option bytes read (42 R205). -/
def Obligations.InitBlake2sMakesSlot : Prop :=
  ∀ (s : State) (c : Byte) (outlen : Word) (key salt pers : OptRange),
    c.toNat < s.nctx → 1 ≤ outlen.toNat → outlen.toNat ≤ 32 →
    (key.present = true → 1 ≤ key.len.toNat ∧ key.len.toNat ≤ 32) →
    (salt.present = true → salt.len.toNat = 8) → (pers.present = true → pers.len.toNat = 8) →
    (∀ r ∈ [key, salt, pers], r.present = true → s.Plain r.addr r.len.toNat) →
    exec (.initBlake2s c outlen key salt pers) s =
      .next { s with
        sync := [key, salt, pers].foldl (fun y r => if r.present then y.engineReads r.addr.toNat r.len.toNat else y) s.sync
        ctx := s.ctx.set c.toNat (some (.blake2 .s (Blake2Ctx.create .s outlen.toNat
          (if key.present then some (s.engineBytes 1 key.addr.toNat key.len.toNat) else none)
          (if salt.present then some (s.engineBytes 2 salt.addr.toNat salt.len.toNat) else none)
          (if pers.present then some (s.engineBytes 3 pers.addr.toNat pers.len.toNat) else none))))
        cp := s.cp + 32
        draws := s.draws + 1 }

/-- INIT_BLAKE2B, with its own bounds (42 R206). -/
def Obligations.InitBlake2bMakesSlot : Prop :=
  ∀ (s : State) (c : Byte) (outlen : Word) (key salt pers : OptRange),
    c.toNat < s.nctx → 1 ≤ outlen.toNat → outlen.toNat ≤ 64 →
    (key.present = true → 1 ≤ key.len.toNat ∧ key.len.toNat ≤ 64) →
    (salt.present = true → salt.len.toNat = 16) → (pers.present = true → pers.len.toNat = 16) →
    (∀ r ∈ [key, salt, pers], r.present = true → s.Plain r.addr r.len.toNat) →
    exec (.initBlake2b c outlen key salt pers) s =
      .next { s with
        sync := [key, salt, pers].foldl (fun y r => if r.present then y.engineReads r.addr.toNat r.len.toNat else y) s.sync
        ctx := s.ctx.set c.toNat (some (.blake2 .b (Blake2Ctx.create .b outlen.toNat
          (if key.present then some (s.engineBytes 1 key.addr.toNat key.len.toNat) else none)
          (if salt.present then some (s.engineBytes 2 salt.addr.toNat salt.len.toNat) else none)
          (if pers.present then some (s.engineBytes 3 pers.addr.toNat pers.len.toNat) else none))))
        cp := s.cp + 32
        draws := s.draws + 1 }

/-- UPDATE completes by absorbing the bytes read, sponge or BLAKE2 (44 R241). -/
def Obligations.UpdateAbsorbsTheRange : Prop :=
  ∀ (s : State) (c : Byte) (addr len : Word) (x : Ctx),
    s.Holds c x → x.destroyed = false → x.finished = false → s.Plain addr len.toNat → x.counterFits len.toNat = true →
    exec (.update c addr len) s =
      .next { s with
        sync := s.sync.engineReads addr.toNat len.toNat
        ctx := s.ctx.set c.toNat (some (match x with
          | .sponge y => .sponge (y.absorb (s.engineBytes 1 addr.toNat len.toNat))
          | .blake2 v y => .blake2 v (y.update (s.engineBytes 1 addr.toNat len.toNat))))
        cp := s.cp + 32
        draws := s.draws + 1 }

/-- DIGEST completes: OUTLEN bytes stored, the slot finished, wiped and destroyed (44 R243, 41 R171, 43 R230). -/
def Obligations.DigestStoresAndDestroys : Prop :=
  (∀ (s : State) (c : Byte) (addr : Word) (x : SpongeCtx),
    s.Holds c (.sponge x) → x.destroyed = false → x.finished = false → s.Plain addr x.outlen →
    exec (.digest c addr) s =
      .next { s with
        mem := s.mem.writeBytes addr.toNat (x.squeeze x.outlen).1
        sync := s.sync.engineWrites s.mem addr.toNat x.outlen
        ctx := s.ctx.set c.toNat (some (.sponge
          { (x.squeeze x.outlen).2 with s := Vector.replicate 200 0, destroyed := true }))
        cp := s.cp + 32
        draws := s.draws + 1 }) ∧
  (∀ (s : State) (c : Byte) (addr : Word) (v : Variant) (x : Blake2Ctx v),
    s.Holds c (.blake2 v x) → x.destroyed = false → x.finished = false → x.outlen ≤ blake2KK v → s.Plain addr x.outlen →
    exec (.digest c addr) s =
      .next { s with
        mem := s.mem.writeBytes addr.toNat ((blake2Serialize v x.finish.h).take x.outlen)
        sync := s.sync.engineWrites s.mem addr.toNat x.outlen
        ctx := s.ctx.set c.toNat (some (.blake2 v
          { x.finish with h := Vector.replicate 8 0, buf := Vector.replicate v.bb 0, destroyed := true }))
        cp := s.cp + 32
        draws := s.draws + 1 })

/-- DIGEST_INTO completes: a sponge stores OUTLEN bytes and is destroyed (44 R245), a BLAKE2 slot stores min(L0, HB) bytes and
stays, finished (44 R246). -/
def Obligations.DigestIntoFillsTheBuffer : Prop :=
  (∀ (s : State) (c : Byte) (addr len : Word) (x : SpongeCtx),
    s.Holds c (.sponge x) → x.destroyed = false → x.finished = false → x.outlen ≤ len.toNat → s.Plain addr len.toNat →
    exec (.digestInto c addr len) s =
      .next { s with
        mem := s.mem.writeBytes addr.toNat (x.squeeze x.outlen).1
        sync := s.sync.engineWrites s.mem addr.toNat x.outlen
        ctx := s.ctx.set c.toNat (some (.sponge
          { (x.squeeze x.outlen).2 with s := Vector.replicate 200 0, destroyed := true }))
        cp := s.cp + 32
        draws := s.draws + 1 }) ∧
  (∀ (s : State) (c : Byte) (addr len : Word) (v : Variant) (x : Blake2Ctx v),
    s.Holds c (.blake2 v x) → x.destroyed = false → x.finished = false → x.outlen ≤ len.toNat → s.Plain addr len.toNat →
    exec (.digestInto c addr len) s =
      .next { s with
        mem := s.mem.writeBytes addr.toNat ((blake2Serialize v x.finish.h).take (min len.toNat (8 * (v.w / 8))))
        sync := s.sync.engineWrites s.mem addr.toNat (min len.toNat (8 * (v.w / 8)))
        ctx := s.ctx.set c.toNat (some (.blake2 v x.finish))
        cp := s.cp + 32
        draws := s.draws + 1 })

/-- XOF completes: L0 squeezed bytes stored, the slot finished and not destroyed (44 R247); and which bytes SpSqueeze gives, one
at a time, for every length (41 R169): it finalizes first, takes S[POSOUT], and permutes when POSOUT stands at RATE. -/
def Obligations.XofStoresSqueezedBytes : Prop :=
  (∀ (s : State) (c : Byte) (addr len : Word) (x : SpongeCtx),
    s.Holds c (.sponge x) → x.destroyed = false → x.xof = true → s.Plain addr len.toNat →
    exec (.xof c addr len) s =
        .next { s with
          mem := s.mem.writeBytes addr.toNat (x.squeeze len.toNat).1
          sync := s.sync.engineWrites s.mem addr.toNat len.toNat
          ctx := s.ctx.set c.toNat (some (.sponge (x.squeeze len.toNat).2))
          cp := s.cp + 32
          draws := s.draws + 1 } ∧
      (x.squeeze len.toNat).1.length = len.toNat ∧ (x.squeeze len.toNat).2.finished = true ∧
      (x.squeeze len.toNat).2.destroyed = false) ∧
  (∀ (x : SpongeCtx) (n : Nat),
    x.squeeze 0 = ([], x.finish) ∧
    x.squeeze n = x.finish.squeeze n ∧
    (∀ (h : x.posOut < x.rate) (hr : x.rate ≤ 199), x.finished = true →
      x.squeeze (n + 1) =
        (x.s[x.posOut]'(by omega) :: (SpongeCtx.squeeze { x with posOut := x.posOut + 1 } n).1,
         (SpongeCtx.squeeze { x with posOut := x.posOut + 1 } n).2)) ∧
    (x.finished = true → 1 ≤ x.rate → x.rate ≤ x.posOut →
      x.squeeze (n + 1) = SpongeCtx.squeeze { x with s := keccakP x.s x.rounds, pos := 0, posOut := 0 } (n + 1)))

/-- CLONE completes: the destination receives every field of the source, whatever it held (44 R248, 41 R172, 43 R231). -/
def Obligations.CloneCopiesEveryField : Prop :=
  ∀ (s : State) (src dst : Byte) (x : Ctx),
    s.Holds src x → x.destroyed = false → dst.toNat < s.nctx → src ≠ dst →
    exec (.clone src dst) s =
      .next { s with ctx := s.ctx.set dst.toNat (some x), cp := s.cp + 32, draws := s.draws + 1 }

/-- DESTROY completes on every occupied slot; on a destroyed one it changes no slot (44 R249, 90 C4). -/
def Obligations.DestroyWipesAndMarks : Prop :=
  (∀ (s : State) (c : Byte) (x : SpongeCtx), s.Holds c (.sponge x) →
    exec (.destroy c) s =
      .next { s with
        ctx := s.ctx.set c.toNat (some (.sponge { x with s := Vector.replicate 200 0, destroyed := true }))
        cp := s.cp + 32
        draws := s.draws + 1 }) ∧
  (∀ (s : State) (c : Byte) (v : Variant) (x : Blake2Ctx v), s.Holds c (.blake2 v x) →
    exec (.destroy c) s =
      .next { s with
        ctx := s.ctx.set c.toNat (some (.blake2 v
          { x with h := Vector.replicate 8 0, buf := Vector.replicate v.bb 0, destroyed := true }))
        cp := s.cp + 32
        draws := s.draws + 1 }) ∧
  (∀ (s : State) (c : Byte) (x : Ctx), s.Inv → s.Holds c x → x.destroyed = true →
    exec (.destroy c) s = .next { s with cp := s.cp + 32, draws := s.draws + 1 })

/-- KECCAK_P completes: the 200 destination bytes are the permutation of the 200 source bytes as read before any write
(40 R142). -/
def Obligations.KeccakPPermutesMemory : Prop :=
  ∀ (s : State) (rounds src dst : Word),
    1 ≤ rounds.toNat → rounds.toNat ≤ 24 → s.Plain src 200 → s.Plain dst 200 →
    exec (.keccakP rounds src dst) s =
      .next { s with
        mem := s.mem.writeBytes dst.toNat
          (keccakP (Vector.ofFn fun j => s.engineByte 1 (src.toNat + j.val)) rounds.toNat).toList
        sync := (s.sync.engineReads src.toNat 200).engineWrites s.mem dst.toNat 200
        cp := s.cp + 32
        draws := s.draws + 1 }

/-! ## What the engine reads -/

/-- The engine reads what memory holds (20 R70), but for a byte the host races for, which reads as any value (20 R73). -/
def Obligations.EngineReadsMemoryUnlessRaced : Prop :=
  ∀ (s : State) (k a n : Nat),
    (s.Unraced a n → s.engineBytes k a n = s.mem.bytes a n) ∧
    (s.Unraced s.cp.toNat 32 → s.descBytes.toList = s.mem.bytes s.cp.toNat 32) ∧
    ((a ∈ s.sync.hostWrote ∨ a ∈ s.sync.raced) → s.engineByte k a = Config.engineRaceByte s.draws k a)

/-- A later read, a descriptor fetch included, of bytes an earlier command wrote gives the bytes written (20 R74, R77). -/
def Obligations.EngineReadsBackItsWrites : Prop :=
  ∀ (s : State) (k a : Nat) (data : List Byte), (∀ j < data.length, a + j ∉ s.sync.hostWrote) →
    (s.engineStore a data).engineBytes k a data.length = data ∧
    (a = s.cp.toNat → data.length = 32 → (s.engineStore a data).descBytes.toList = data)

/-! ## Errors -/

/-- The first failed check of 60 R302's list decides the error (R304); a command that passes them all completes, or is refused
for the register block or a device (20 R61, R70). -/
def Obligations.FirstFailedCheckDecides : Prop :=
  ∀ (i : Instr) (s : State),
    (∀ e, firstError i s = some e → exec i s = .next (s.raise e)) ∧
    (firstError i s = none →
      (∀ r ∈ readRanges i ++ (storedRange i s).toList, s.cfg.barredRange r.1.toNat r.2 = none) →
      ∃ t, exec i s = .next t ∧ t.cp = s.cp + 32 ∧ t.err = s.err ∧ t.errcode = s.errcode ∧ t.errcp = s.errcp) ∧
    (firstError i s = none →
      (∃ r ∈ readRanges i ++ (storedRange i s).toList, s.cfg.barredRange r.1.toNat r.2 ≠ none) →
      ∃ q, exec i s = .refused q)

/-- Error entry (60 R310): ERRCODE, ERRCP, ERR and BUSY are written, CP keeps the failing descriptor's address, and no slot and
no memory byte changes. -/
def Obligations.ErrorEntryIsPrecise : Prop :=
  ∀ s t : State, s.busy = true → s.err = false → engineTurn s = .next t → t.err = true →
    (∃ e : EngineError, t.errcode.toNat = e.cls.toNat + e.detail.toNat * 2 ^ 8) ∧
    t.errcp = s.cp ∧ t.busy = false ∧ t.cp = s.cp ∧ t.ctx = s.ctx ∧ t.mem = s.mem

/-- The ERRCODE column of 60 R301, and that the model has no other error. -/
def Obligations.ErrorCodesMatchTheTable : Prop :=
  EngineError.all.map EngineError.code =
    [0x00000101, 0x00000201, 0x00000301, 0x00000401, 0x00000501, 0x00000601,
     0x00000102, 0x00000202, 0x00000302,
     0x00000103,
     0x00000104, 0x00000204,
     0x00000105, 0x00000205, 0x00000305,
     0x00000106, 0x00000206, 0x00000306,
     0x00000107] ∧
  ∀ e : EngineError, e ∈ EngineError.all

/-! ## Frames -/

/-- HALT, NOP, the INITs, UPDATE, CLONE and DESTROY store nothing (20 R68): every byte of memory reads as before. -/
def Obligations.NonStoringCommandsKeepMemory : Prop :=
  ∀ (i : Instr) (s t : State), storedRange i s = none → exec i s = .next t →
    ∀ a, t.mem.read a = s.mem.read a

/-- DIGEST, DIGEST_INTO, XOF and KECCAK_P change no byte outside the range they store to (20 R68). -/
def Obligations.StoringCommandsKeepOtherBytes : Prop :=
  ∀ (i : Instr) (s t : State) (a : Word) (n : Nat), storedRange i s = some (a, n) → exec i s = .next t →
    ∀ b, b < a.toNat ∨ a.toNat + n ≤ b → t.mem.read b = s.mem.read b

/-- A slot is changed only by a command that names it, and CLONE changes only its destination (70 R350). -/
def Obligations.CommandsChangeOnlyNamedSlots : Prop :=
  ∀ (i : Instr) (s t : State) (d : Nat), exec i s = .next t → (∀ c, changedSlot i = some c → c.toNat ≠ d) →
    t.ctx[d]? = s.ctx[d]?

/-- What every command leaves of the registers: CP moves by 32 and the error registers stay, or an error is entered; nothing
else of the machine changes (10 R23, R28, R29, R31; 45 R276). -/
def Obligations.CommandsFrameTheRegisters : Prop :=
  ∀ (i : Instr) (s t : State), exec i s = .next t →
    t.cfg = s.cfg ∧ t.nctx = s.nctx ∧ t.pending = s.pending ∧ t.hostData = s.hostData ∧
    t.sync.hostWrote = s.sync.hostWrote ∧
    ((t.cp = s.cp + 32 ∧ t.err = s.err ∧ t.errcode = s.errcode ∧ t.errcp = s.errcp ∧
        t.busy = (s.busy && decide (i ≠ .halt))) ∨
     (∃ e : EngineError, t = s.raise e))

/-- A slot keeps its KIND and its fixed parameters, and never loses FINISHED or DESTROYED, except by an INIT of it or a CLONE
into it; no command frees a slot (10 R32, R33, R35, R39). -/
def Obligations.SlotsKeepKindAndParameters : Prop :=
  ∀ (i : Instr) (s t : State) (c : Byte) (x : Ctx), exec i s = .next t → s.Holds c x →
    ∃ y, t.Holds c y ∧
      (¬ replacesSlot i c →
        Slot.kind (some y) = Slot.kind (some x) ∧ y.outlen = x.outlen ∧
        (x.finished = true → y.finished = true) ∧ (x.destroyed = true → y.destroyed = true) ∧
        (∀ u w, x = .sponge u → y = .sponge w →
          w.rate = u.rate ∧ w.suffix = u.suffix ∧ w.rounds = u.rounds ∧ w.xof = u.xof))

/-- Every command on a destroyed slot but DESTROY, INIT and CLONE into it raises LIFECYCLE(DESTROYED) (44 R249, 90 C4). -/
def Obligations.DestroyedSlotIsRejected : Prop :=
  ∀ (s : State) (c dst : Byte) (addr len : Word) (x : Ctx), s.Holds c x → x.destroyed = true →
    exec (.update c addr len) s = .next (s.raise (.lifecycle .destroyed)) ∧
    exec (.digest c addr) s = .next (s.raise (.lifecycle .destroyed)) ∧
    exec (.digestInto c addr len) s = .next (s.raise (.lifecycle .destroyed)) ∧
    exec (.xof c addr len) s = .next (s.raise (.lifecycle .destroyed)) ∧
    (dst.toNat < s.nctx → c ≠ dst → exec (.clone c dst) s = .next (s.raise (.lifecycle .destroyed)))

/-! ## Keccak -/

/-- The π, ρ and ι tables are what the derivation procedure gives (40 R136). -/
def Obligations.KeccakTablesFollowDerivation : Prop :=
  (List.finRange 24).map (fun t => ((keccakPi t).val, keccakRotl t, (keccakRc t).toNat)) =
    deriveTables 24 0 1 1 0

/-- The fused pass is the standard ρ then π, with the offsets of R134 (40 R138). -/
def Obligations.FusedRhoPiIsStandard : Prop :=
  ∀ (a : Lanes) (x y : Fin 5),
    (rhoPi a)[y.val + 5 * ((2 * x.val + 3 * y.val) % 5)]'(by omega) =
      (a[x.val + 5 * y.val]'(by omega)).rotateLeft (rhoOffset x y)

/-- θ, χ and ι lane by lane (40 R137, R139, R140). -/
def Obligations.ThetaChiIotaByLane : Prop :=
  (∀ (a : Lanes) (x y : Fin 5),
    let c := fun k : Fin 5 => a[k.val] ^^^ a[k.val + 5] ^^^ a[k.val + 10] ^^^ a[k.val + 15] ^^^ a[k.val + 20]
    (theta a)[x.val + 5 * y.val]'(by omega) =
      a[x.val + 5 * y.val]'(by omega) ^^^ (c (x + 4) ^^^ (c (x + 1)).rotateLeft 1)) ∧
  (∀ (a : Lanes) (x y : Fin 5),
    (chi a)[x.val + 5 * y.val]'(by omega) =
      a[x.val + 5 * y.val]'(by omega) ^^^
        (~~~(a[(x + 1).val + 5 * y.val]'(by omega)) &&& a[(x + 2).val + 5 * y.val]'(by omega))) ∧
  (∀ (a : Lanes) (ir : Fin 24),
    (iota a ir)[0] = a[0] ^^^ keccakRc ir ∧ ∀ i : Fin 25, i.val ≠ 0 → (iota a ir)[i.val] = a[i.val])

/-- r rounds are the last r of the 24: one more round runs the one before them first (40 R132). -/
def Obligations.FewerRoundsSkipLeadingOnes : Prop :=
  (∀ a : Lanes, keccakRounds a 0 = a) ∧
  (∀ (a : Lanes) (r : Nat) (h : r < 24),
    keccakRounds a (r + 1) = keccakRounds (iota (chi (rhoPi (theta a))) ⟨23 - r, by omega⟩) r) ∧
  (∀ (s : Vector Byte 200) (r : Nat), keccakP s r = bytesOfLanes (keccakRounds (lanesOf s) r))

/-- Lane i is the little-endian number of bytes 8i..8i+7, and lanes and bytes determine each other (40 R130, 20 R64). -/
def Obligations.LanesAreLittleEndian : Prop :=
  (∀ (s : Vector Byte 200) (i : Fin 25),
    ((lanesOf s)[i.val]).toNat = leNat ((s.toList.drop (8 * i.val)).take 8)) ∧
  (∀ s : Vector Byte 200, bytesOfLanes (lanesOf s) = s) ∧
  (∀ a : Lanes, lanesOf (bytesOfLanes a) = a)

/-! ## Sponge -/

/-- SpFinish (41 R166) in its cases (41 R168): nothing when finished, one permutation, or two when the suffix's top bit meets
the closing bit; in case (a) both go into one byte; both cursors are 0 after it. -/
def Obligations.SpongePaddingCases : Prop :=
  ∀ x : SpongeCtx,
    let f : SpongeCtx := { x with finished := true }
    (x.finished = true → x.finish = x) ∧
    (x.finished = false → ¬ (x.suffix.getLsbD 7 = true ∧ x.pos = x.rate - 1) →
      x.finish = ((f.xorAt x.pos x.suffix).xorAt (x.rate - 1) 0x80).permute) ∧
    (x.finished = false → x.suffix.getLsbD 7 = true → x.pos = x.rate - 1 →
      x.finish = (((f.xorAt x.pos x.suffix).permute).xorAt (x.rate - 1) 0x80).permute) ∧
    (x.finished = false → x.suffix.getLsbD 7 = false → x.pos = x.rate - 1 → x.rate ≤ 199 →
      x.finish = (f.xorAt (x.rate - 1) (x.suffix ^^^ 0x80)).permute) ∧
    (x.finished = false → x.finish.pos = 0 ∧ x.finish.posOut = 0)

/-- SpAbsorb up to the rate boundary (41 R163, R164): the bytes are xored in from POS on, no byte from RATE on is touched, and
reaching RATE permutes at once. -/
def Obligations.AbsorbXorsUpToTheRate : Prop :=
  ∀ (x : SpongeCtx) (data : List Byte), x.rate ≤ 199 →
    let mixed : Vector Byte 200 :=
      Vector.ofFn fun j => if x.pos ≤ j.val ∧ j.val < x.pos + data.length then x.s[j.val] ^^^ data.getD (j.val - x.pos) 0
        else x.s[j.val]
    (x.pos + data.length < x.rate → x.absorb data = { x with s := mixed, pos := x.pos + data.length }) ∧
    (x.pos + data.length = x.rate → data ≠ [] →
      x.absorb data = { x with s := keccakP mixed x.rounds, pos := 0, posOut := 0 })

/-- Absorb chunking invariance at command level (41 R165, 43 R227): an UPDATE of m bytes and one of the n bytes after them leave
the slots and the memory that one UPDATE of m + n bytes leaves. That BUF[POS..BB) of a BLAKE2 slot agrees too is the model's
choice (log 3), which 43 R227 does not promise. -/
def Obligations.UpdateChunkingInvariance : Prop :=
  ∀ (s : State) (c : Byte) (a : Word) (m n : Nat) (x : Ctx),
    s.Holds c x → x.destroyed = false → x.finished = false → m + n < 2 ^ 32 → s.Plain a (m + n) →
    s.Unraced a.toNat (m + n) → x.counterFits (m + n) = true →
    ∃ t1 t2 t, exec (.update c a (BitVec.ofNat 32 m)) s = .next t1 ∧
      exec (.update c (a + BitVec.ofNat 32 m) (BitVec.ofNat 32 n)) t1 = .next t2 ∧
      exec (.update c a (BitVec.ofNat 32 (m + n))) s = .next t ∧ t2.ctx = t.ctx ∧ t2.mem = t.mem

/-- Squeeze chunking invariance at command level (41 R170): an XOF of m bytes and one of n into the bytes after them leave the
slots and the memory that one XOF of m + n bytes leaves. -/
def Obligations.XofChunkingInvariance : Prop :=
  ∀ (s : State) (c : Byte) (a : Word) (m n : Nat) (x : SpongeCtx),
    s.Holds c (.sponge x) → x.destroyed = false → x.xof = true → m + n < 2 ^ 32 → s.Plain a (m + n) →
    ∃ t1 t2 t, exec (.xof c a (BitVec.ofNat 32 m)) s = .next t1 ∧
      exec (.xof c (a + BitVec.ofNat 32 m) (BitVec.ofNat 32 n)) t1 = .next t2 ∧
      exec (.xof c a (BitVec.ofNat 32 (m + n))) s = .next t ∧ t2.ctx = t.ctx ∧ t2.mem = t.mem

/-- Clone correctness and isolation (43 R232): the same command on a slot and on its copy gives the same slot and the same
memory and error registers, and leaves the other slot as it was. -/
def Obligations.CloneBehavesAsItsSource : Prop :=
  ∀ (s : State) (src dst : Byte) (x : Ctx) (a n : Word), src ≠ dst → s.Holds src x → s.Holds dst x →
    ∀ op ∈ [fun c => Instr.update c a n, fun c => Instr.digest c a, fun c => Instr.digestInto c a n,
        fun c => Instr.xof c a n, fun c => Instr.destroy c],
    ∀ t u : State, exec (op src) s = .next t → exec (op dst) s = .next u →
      t.slot src = u.slot dst ∧ t.mem = u.mem ∧ t.err = u.err ∧ t.errcode = u.errcode ∧ t.errcp = u.errcp ∧
      t.slot dst = some x ∧ u.slot src = some x

/-! ## BLAKE2 -/

/-- The state a successful INIT gives (42 R200, R202, R203): H from the parameter block, no key: nothing absorbed; a key: its
zero-padded block buffered and not compressed. -/
def Obligations.Blake2InitialState : Prop :=
  (∀ (v : Variant) (outlen kl : Nat) (salt pers : Option (List Byte)),
    let w0 := fun o : Option (List Byte) => o.elim (0 : BitVec v.w) fun b => leWord v.w (b.take (v.w / 8))
    let w1 := fun o : Option (List Byte) => o.elim (0 : BitVec v.w) fun b => leWord v.w ((b.drop (v.w / 8)).take (v.w / 8))
    blake2ParamInit v outlen kl salt pers =
      #v[(blake2Iv v)[0] ^^^ (BitVec.ofNat v.w outlen ||| BitVec.ofNat v.w kl <<< 8 ||| 1 <<< 16 ||| 1 <<< 24),
         (blake2Iv v)[1], (blake2Iv v)[2], (blake2Iv v)[3], (blake2Iv v)[4] ^^^ w0 salt, (blake2Iv v)[5] ^^^ w1 salt,
         (blake2Iv v)[6] ^^^ w0 pers, (blake2Iv v)[7] ^^^ w1 pers]) ∧
  (∀ (v : Variant) (outlen : Nat) (salt pers : Option (List Byte)),
    Blake2Ctx.create v outlen none salt pers =
      { h := blake2ParamInit v outlen 0 salt pers, buf := Vector.replicate v.bb 0, pos := 0, length := 0,
        outlen := outlen, finished := false, destroyed := false }) ∧
  (∀ (v : Variant) (outlen : Nat) (key : List Byte) (salt pers : Option (List Byte)),
    1 ≤ key.length → key.length ≤ blake2KK v →
    Blake2Ctx.create v outlen (some key) salt pers =
      { h := blake2ParamInit v outlen key.length salt pers, buf := Vector.ofFn fun j => key.getD j.val 0, pos := v.bb,
        length := v.bb, outlen := outlen, finished := false, destroyed := false })

/-- The loop of B2Update (43 R220): one iteration, whatever the input; the empty input changes nothing. -/
def Obligations.Blake2UpdateLoop : Prop :=
  ∀ (v : Variant) (x : Blake2Ctx v),
    x.update [] = x ∧
    ∀ data : List Byte, data ≠ [] → x.pos ≤ v.bb →
      let y : Blake2Ctx v := if x.pos = v.bb then { x with h := blake2Compress v x.h x.buf x.length false, pos := 0 } else x
      let take := min (v.bb - y.pos) data.length
      x.update data =
        Blake2Ctx.update
          { y with
            buf := Vector.ofFn fun j =>
              if y.pos ≤ j.val ∧ j.val < y.pos + take then data.getD (j.val - y.pos) 0 else y.buf[j.val]
            pos := y.pos + take
            length := y.length + take }
          (data.drop take)

/-- Deferral (43 R222): bytes that fit the buffer compress nothing, a full buffer is compressed, not as the last block, when a
further byte arrives, and the last byte of every input stays in the buffer. -/
def Obligations.Blake2DefersFullBlock : Prop :=
  ∀ (v : Variant) (x : Blake2Ctx v),
    (∀ data : List Byte, x.pos + data.length ≤ v.bb →
      (x.update data).h = x.h ∧ (x.update data).pos = x.pos + data.length ∧
      (x.update data).length = x.length + data.length) ∧
    (∀ b : Byte, x.pos = v.bb →
      (x.update [b]).h = blake2Compress v x.h x.buf x.length false ∧ (x.update [b]).pos = 1 ∧
      (x.update [b]).length = x.length + 1) ∧
    (∀ (data : List Byte) (b : Byte), x.pos ≤ v.bb →
      1 ≤ (x.update (data ++ [b])).pos ∧ (x.update (data ++ [b])).pos ≤ v.bb ∧
      (x.update (data ++ [b])).buf.toList[(x.update (data ++ [b])).pos - 1]? = some b)

/-- B2Finish (43 R228): the zero fill, one compression with the last-block flag and t = LENGTH; POS and LENGTH stay. -/
def Obligations.Blake2FinishCompressesLastBlock : Prop :=
  ∀ (v : Variant) (x : Blake2Ctx v), x.pos ≤ v.bb →
    ∃ block : Vector Byte v.bb,
      block.toList = x.buf.toList.take x.pos ++ List.replicate (v.bb - x.pos) 0 ∧
      x.finish = { x with buf := block, h := blake2Compress v x.h block x.length true, finished := true }

/-- The worked compressions of 42 R207, and those behind the digests 95 B2-D prints of "abc" (t = 3), of the empty message, and of
one block of zeros and one zero more (t = BB, not the last block, then t = BB + 1), for both variants. -/
def Obligations.Blake2WorkedCompressions : Prop :=
  let h := blake2ParamInit .s 32 0 none none
  let hb := blake2ParamInit .b 64 0 none none
  let abcS : Vector Byte 64 := Vector.ofFn fun j => ([0x61, 0x62, 0x63] : List Byte).getD j.val 0
  let abcB : Vector Byte 128 := Vector.ofFn fun j => ([0x61, 0x62, 0x63] : List Byte).getD j.val 0
  h = #v[0x6B08E647, 0xBB67AE85, 0x3C6EF372, 0xA54FF53A, 0x510E527F, 0x9B05688C, 0x1F83D9AB, 0x5BE0CD19] ∧
  blake2Compress .s h (Vector.replicate 64 0) 0 true =
    #v[0x307A2169, 0x94809079, 0xD02111E1, 0x7C4A3542, 0x48B6551F, 0x1EA5A12C, 0xFD0D251B, 0xF9EED01E] ∧
  blake2Serialize .s (blake2Compress .s h (Vector.replicate 64 0) 0 true) =
    [0x69, 0x21, 0x7a, 0x30, 0x79, 0x90, 0x80, 0x94, 0xe1, 0x11, 0x21, 0xd0, 0x42, 0x35, 0x4a, 0x7c,
     0x1f, 0x55, 0xb6, 0x48, 0x2c, 0xa1, 0xa5, 0x1e, 0x1b, 0x25, 0x0d, 0xfd, 0x1e, 0xd0, 0xee, 0xf9] ∧
  blake2Compress .s h (Vector.replicate 64 0) 0 false =
    #v[0xF4BF0CE8, 0x8B13FF22, 0x418EA50E, 0x125AC1CE, 0x97D1391D, 0xA1212B55, 0x32BD4013, 0xE51DF954] ∧
  blake2Serialize .s (blake2Compress .s h abcS 3 true) =
    [0x50, 0x8c, 0x5e, 0x8c, 0x32, 0x7c, 0x14, 0xe2, 0xe1, 0xa7, 0x2b, 0xa3, 0x4e, 0xeb, 0x45, 0x2f,
     0x37, 0x45, 0x8b, 0x20, 0x9e, 0xd6, 0x3a, 0x29, 0x4d, 0x99, 0x9b, 0x4c, 0x86, 0x67, 0x59, 0x82] ∧
  blake2Serialize .s (blake2Compress .s (blake2Compress .s h (Vector.replicate 64 0) 64 false) (Vector.replicate 64 0) 65 true) =
    [0x85, 0x73, 0x28, 0xbf, 0x99, 0x0b, 0x00, 0x92, 0x27, 0x82, 0xd3, 0xe8, 0x1c, 0x60, 0x54, 0xc2,
     0x5d, 0x33, 0x75, 0xd3, 0x86, 0xc7, 0x42, 0x4a, 0xbe, 0x3e, 0x01, 0xd7, 0x90, 0x41, 0x04, 0x6c] ∧
  blake2Serialize .b (blake2Compress .b hb (Vector.replicate 128 0) 0 true) =
    [0x78, 0x6a, 0x02, 0xf7, 0x42, 0x01, 0x59, 0x03, 0xc6, 0xc6, 0xfd, 0x85, 0x25, 0x52, 0xd2, 0x72,
     0x91, 0x2f, 0x47, 0x40, 0xe1, 0x58, 0x47, 0x61, 0x8a, 0x86, 0xe2, 0x17, 0xf7, 0x1f, 0x54, 0x19,
     0xd2, 0x5e, 0x10, 0x31, 0xaf, 0xee, 0x58, 0x53, 0x13, 0x89, 0x64, 0x44, 0x93, 0x4e, 0xb0, 0x4b,
     0x90, 0x3a, 0x68, 0x5b, 0x14, 0x48, 0xb7, 0x55, 0xd5, 0x6f, 0x70, 0x1a, 0xfe, 0x9b, 0xe2, 0xce] ∧
  blake2Serialize .b (blake2Compress .b hb abcB 3 true) =
    [0xba, 0x80, 0xa5, 0x3f, 0x98, 0x1c, 0x4d, 0x0d, 0x6a, 0x27, 0x97, 0xb6, 0x9f, 0x12, 0xf6, 0xe9,
     0x4c, 0x21, 0x2f, 0x14, 0x68, 0x5a, 0xc4, 0xb7, 0x4b, 0x12, 0xbb, 0x6f, 0xdb, 0xff, 0xa2, 0xd1,
     0x7d, 0x87, 0xc5, 0x39, 0x2a, 0xab, 0x79, 0x2d, 0xc2, 0x52, 0xd5, 0xde, 0x45, 0x33, 0xcc, 0x95,
     0x18, 0xd3, 0x8a, 0xa8, 0xdb, 0xf1, 0x92, 0x5a, 0xb9, 0x23, 0x86, 0xed, 0xd4, 0x00, 0x99, 0x23] ∧
  blake2Serialize .b
      (blake2Compress .b (blake2Compress .b hb (Vector.replicate 128 0) 128 false) (Vector.replicate 128 0) 129 true) =
    [0xa6, 0x0e, 0xdb, 0xa3, 0x43, 0xe7, 0xa6, 0x93, 0x3c, 0x14, 0xd2, 0x03, 0xd2, 0xe5, 0x35, 0xf3,
     0x5e, 0x6d, 0xeb, 0x6c, 0x8a, 0x4f, 0x8e, 0x62, 0x4c, 0x1a, 0x6f, 0x6e, 0x26, 0x12, 0x86, 0x04,
     0x47, 0xcb, 0x4c, 0x37, 0xe5, 0xaa, 0x11, 0xbc, 0xf0, 0x3b, 0x7c, 0x3e, 0xea, 0x72, 0x28, 0xeb,
     0x8b, 0x99, 0x8f, 0x92, 0x27, 0x94, 0xf2, 0xd1, 0xb8, 0xf2, 0xdc, 0x63, 0xf0, 0x3b, 0xd3, 0xfa]

/-! ## Host -/

/-- START (45 R270): a write of CTRL with bit 0 set starts an idle engine; it is ignored while BUSY = 1, and a write with bit 0
clear does nothing. -/
def Obligations.StartBeginsARun : Prop :=
  ∀ (s : State) (v : Word),
    (s.busy = false → v.getLsbD 0 = true →
      ∃ t, s.hostStore s.cfg.mmioBase (leBytes v) = .next t ∧
        t.busy = true ∧ t.err = false ∧ t.errcode = 0 ∧ t.errcp = 0 ∧ t.cp = s.cp ∧ t.ctx = s.ctx ∧ t.mem = s.mem) ∧
    (s.busy = true → s.hostStore s.cfg.mmioBase (leBytes v) = .next s) ∧
    (v.getLsbD 0 = false → s.hostStore s.cfg.mmioBase (leBytes v) = .next s)

/-- What the host reads of each register (10 R24-R30; of CP during a run 45 R278, log 9); the read leaves the engine and the memory as they are. -/
def Obligations.RegisterLoadsReadTheirFields : Prop :=
  ∀ (s : State) (k : Fin 16),
    ∃ (t : State) (v : Word), hostTurn (.load (s.cfg.mmioBase + 4 * k.val) 4) s = .next t ∧
      t.hostData = leBytes v ∧
      (k = 1 → v = BitVec.ofNat 32 (s.busy.toNat + 2 * s.err.toNat)) ∧
      (k = 2 → s.busy = false → v = s.cp) ∧ (k = 2 → s.busy = true → v = s.cp ∨ v = s.cp + 32) ∧
      (k = 3 → v = s.errcode) ∧ (k = 4 → v = s.errcp) ∧
      (k = 5 → s.nctx ≤ 255 → v.toNat = s.nctx) ∧
      (k = 0 ∨ 6 ≤ k.val → v = 0) ∧
      t.busy = s.busy ∧ t.err = s.err ∧ t.cp = s.cp ∧ t.errcode = s.errcode ∧ t.errcp = s.errcp ∧ t.ctx = s.ctx ∧
      t.mem = s.mem

/-- Host writes to the other registers (10 R24, R26): CP takes the written address with bits 1:0 discarded while BUSY = 0 and
ignores it while BUSY = 1; a write to a read-only or reserved register changes nothing (read-only: log 12). -/
def Obligations.RegisterStoresWriteOnlyCp : Prop :=
  ∀ (s : State) (k : Fin 16) (v : Word), k ≠ 0 →
    (k = 2 → s.busy = false →
      s.hostStore (s.cfg.mmioBase + 8) (leBytes v) = .next { s with cp := v &&& 0xFFFFFFFC }) ∧
    (k ≠ 2 ∨ s.busy = true →
      s.hostStore (s.cfg.mmioBase + 4 * k.val) (leBytes v) = .next s)

/-- An access to the register block of any other width or alignment is refused (10 R24, 93 U5). -/
def Obligations.OddRegisterAccessRefused : Prop :=
  ∀ (s : State) (a : Nat) (data : List Byte),
    (∃ k < data.length, s.cfg.mmioBase ≤ a + k ∧ a + k < s.cfg.mmioBase + 64) →
    ¬ (data.length = 4 ∧ ∃ j < 16, a = s.cfg.mmioBase + 4 * j) →
    hostTurn (.load a data.length) s = .refused .hostRegisterAccess ∧ s.hostStore a data = .refused .hostRegisterAccess

/-- While BUSY = 1 the host reads STATUS = 1, ERRCODE = 0, ERRCP = 0, and of CP the address of the command being executed or of
the next (45 R278). -/
def Obligations.RunningEngineAsTheHostSeesIt : Prop :=
  ∀ s : State, s.Inv → s.busy = true →
    s.readRegister 0x04 = 1 ∧ s.readRegister 0x0C = 0 ∧ s.readRegister 0x10 = 0 ∧
    (s.readRegister 0x08 = s.cp ∨ s.readRegister 0x08 = s.cp + 32)

/-! ## Reset and races -/

/-- The fields of the state after reset (70 R340); NCTX = 4, MemOK and MMIO_BASE are the model's choice (log 1), as are the
empty memory (log 2) and the model's own fields (logs 4-7). -/
def Obligations.ResetStateValues : Prop :=
  State.reset.busy = false ∧ State.reset.err = false ∧ State.reset.cp = 0 ∧ State.reset.errcode = 0 ∧
  State.reset.errcp = 0 ∧ State.reset.ctx = [none, none, none, none] ∧ State.reset.mem = [] ∧ State.reset.pending = []

/-- The reset event (70 R340): every register 0, every slot FREE, the parameters kept, and the memory of an idle engine kept. -/
def Obligations.ResetClearsTheEngine : Prop :=
  ∀ (s : State) (rest : List HostTurn), s.pending = .reset :: rest →
    ∃ t, step s = .next t ∧ t.busy = false ∧ t.err = false ∧ t.cp = 0 ∧ t.errcode = 0 ∧ t.errcp = 0 ∧
      t.caps = s.caps ∧ t.ctx = List.replicate s.nctx none ∧ t.cfg = s.cfg ∧ t.pending = rest ∧
      (∀ k : Fin 16, k.val = 0 ∨ 6 ≤ k.val → t.readRegister (4 * k.val) = 0) ∧
      (s.busy = false → t.mem = s.mem)

/-- Reset during a run (70 R341): every byte of memory holds its old value or the value the command in progress would have
written. -/
def Obligations.ResetDuringRunKeepsOldOrNewBytes : Prop :=
  ∀ (s : State) (rest : List HostTurn), s.pending = .reset :: rest → s.busy = true →
    ∃ u, step s = .next u ∧
      (∀ t, engineTurn { s with pending := rest } = .next t →
        ∀ a, u.mem.read a = s.mem.read a ∨ u.mem.read a = t.mem.read a) ∧
      ((∀ t, engineTurn { s with pending := rest } ≠ .next t) → u.mem = s.mem)

/-- A host write before START is seen by the run START begins (20 R73(a)); one made while BUSY = 1 is a race, and the engine
reads any value there for the rest of that run (20 R73(c)), but the next run sees it where this one has written nothing. -/
def Obligations.HostWritesAreSeenOrRaced : Prop :=
  ∀ (s : State) (a : Word) (data : List Byte) (k : Nat), s.Plain a data.length →
    ∃ t, s.hostStore a.toNat data = .next t ∧
      (s.busy = false → t.start.engineBytes k a.toNat data.length = data) ∧
      (s.busy = true → ∀ j < data.length,
        t.engineByte k (a.toNat + j) = Config.engineRaceByte t.draws k (a.toNat + j)) ∧
      (s.busy = true → (∀ j < data.length, a.toNat + j ∉ s.sync.engineWrote) →
        (State.start { t with busy := false }).engineBytes k a.toNat data.length = data)

/-- What the host reads of memory. After it has read STATUS.BUSY = 0, what memory holds (20 R73(b)), bytes that it and the
engine both wrote without order apart. At any time, of a byte it has not itself written during the run: what memory holds, what
the byte held before an engine write not yet ordered, or what it comes to hold within some number of the run's coming commands
(93 U7, as log 8 reads it); so what memory holds where the run writes nothing (20 R70). Of a byte it stored during the run and
the run then read or has written too, any value (20 R73(c)); and what a read, a write and START make of these bytes: one raced in
an earlier run keeps any value as its old value, also after a later run has written it, until BUSY = 0 is read. -/
def Obligations.BusyZeroOrdersEngineWrites : Prop :=
  (∀ (s : State) (a : Word) (n : Nat), s.busy = false → s.Plain a n → (∀ j < n, a.toNat + j ∉ s.sync.raced) →
    ∃ t u, hostTurn (.load (s.cfg.mmioBase + 4) 4) s = .next t ∧ hostTurn (.load a.toNat n) t = .next u ∧
      u.hostData = s.mem.bytes a.toNat n ∧ u.mem = s.mem) ∧
  (∀ (s : State) (a : Word) (n : Nat), s.Plain a n → s.Unraced a.toNat n →
    (∀ j < n, a.toNat + j ∉ s.sync.readRaced ∧ a.toNat + j ∉ s.sync.unsettled) →
    ∃ u, hostTurn (.load a.toNat n) s = .next u ∧ u.mem = s.mem ∧ u.hostData.length = n ∧
      ∀ j < n, ∃ b, u.hostData[j]? = some b ∧
        (b = s.mem.read (a.toNat + j) ∨ (a.toNat + j, b) ∈ s.sync.older ∨
          ∃ m, b = (engineAhead m { s with draws := s.draws + 1 }).mem.read (a.toNat + j))) ∧
  (∀ (s : State) (a : Word), s.Plain a 1 →
    (a.toNat ∈ s.sync.raced ∨ a.toNat ∈ s.sync.readRaced ∨ a.toNat ∈ s.sync.unsettled) →
    ∃ u, hostTurn (.load a.toNat 1) s = .next u ∧ u.hostData = [Config.hostRaceByte s.draws a.toNat]) ∧
  (∀ (y : Sync) (a n k : Nat),
    k ∈ (y.engineReads a n).readRaced ↔ k ∈ y.readRaced ∨ (k ∈ y.hostWrote ∧ a ≤ k ∧ k < a + n)) ∧
  (∀ (y : Sync) (m : Memory) (a n k : Nat),
    (k ∈ (y.engineWrites m a n).raced ↔ if a ≤ k ∧ k < a + n then k ∈ y.hostWrote else k ∈ y.raced) ∧
    (k ∈ (y.engineWrites m a n).unsettled ↔ k ∈ y.unsettled ∨ (k ∈ y.raced ∧ k ∉ y.hostWrote ∧ a ≤ k ∧ k < a + n)) ∧
    (k ∈ y.start.unsettled ↔ k ∈ y.unsettled ∨ k ∈ y.readRaced))

/-! ## Invariants -/

/-- Every step keeps the invariant of the machine (10 R26, R28, R34, R38; 45 R278): registers, slots and memory. -/
def Obligations.StepKeepsInvariant : Prop :=
  ∀ s t : State, s.Inv → step s = .next t → t.Inv

/-- The state after reset meets the invariant. -/
def Obligations.ResetMeetsInvariant : Prop := State.reset.Inv

/-- NCTX, MemOK and MMIO_BASE never change, whatever the step (00 R6, 10 R30). -/
def Obligations.ParametersNeverChange : Prop :=
  ∀ s t : State, step s = .next t → t.cfg = s.cfg ∧ t.nctx = s.nctx
end

