-- ==== Sys2Proof/Laws/Bytes.lean ====
section
/-!
SUPPORT. Byte order (20_memory.md rule R64): splitting a word into bytes and assembling bytes into a word undo each other, for
words of any number of bytes and for the 32 bytes of a descriptor.
-/

namespace Sys2Proof

theorem leByte_eq {w : Nat} (v : BitVec w) (k : Nat) : leByte v k = BitVec.ofNat 8 (v.toNat / 2 ^ (8 * k)) := by
  apply BitVec.eq_of_toNat_eq
  simp [leByte, BitVec.extractLsb'_toNat, Nat.shiftRight_eq_div_pow]

/-- The bytes of a number assemble to the number, cut to their length. -/
theorem leNat_map_range (n x : Nat) :
    leNat ((List.range n).map fun k => BitVec.ofNat 8 (x / 2 ^ (8 * k))) = x % 2 ^ (8 * n) := by
  induction n generalizing x with
  | zero => simp [leNat, Nat.mod_one]
  | succ n ih =>
    have hs : (fun k => BitVec.ofNat 8 (x / 2 ^ (8 * k))) ∘ Nat.succ = fun k => BitVec.ofNat 8 (x / 256 / 2 ^ (8 * k)) := by
      funext k
      have hp : 2 ^ (8 * (k + 1)) = 256 * 2 ^ (8 * k) := by rw [Nat.mul_succ, Nat.pow_add, Nat.mul_comm]
      simp only [Function.comp_apply, Nat.succ_eq_add_one, hp, Nat.div_div_eq_div_mul]
    rw [List.range_succ_eq_map, List.map_cons, List.map_map, hs, leNat, ih]
    have hp : 2 ^ (8 * (n + 1)) = 256 * 2 ^ (8 * n) := by rw [Nat.mul_succ, Nat.pow_add, Nat.mul_comm]
    rw [hp, Nat.mod_mul]
    simp [BitVec.toNat_ofNat]

/-- `le_w(bytes_le_w(v)) = v` (00 R9). -/
theorem leWord_leBytes {n : Nat} (v : BitVec (8 * n)) : leWord (8 * n) (leBytes v) = v := by
  apply BitVec.eq_of_toNat_eq
  have h : leByte v = fun k => BitVec.ofNat 8 (v.toNat / 2 ^ (8 * k)) := funext (leByte_eq v)
  rw [leWord, leBytes, h, Nat.mul_div_cancel_left _ (by omega), leNat_map_range]
  simp

/-- Four bytes of a word assemble to the word. -/
theorem leWord_four (v : Word) : leWord 32 [leByte v 0, leByte v 1, leByte v 2, leByte v 3] = v :=
  leWord_leBytes (n := 4) v

/-- A byte of the word four bytes assemble to is that byte. -/
theorem leByte_leWord_four (b0 b1 b2 b3 : Byte) (k : Nat) (hk : k < 4) :
    leByte (leWord 32 [b0, b1, b2, b3]) k = [b0, b1, b2, b3][k] := by
  have h0 := b0.isLt
  have h1 := b1.isLt
  have h2 := b2.isLt
  have h3 := b3.isLt
  apply BitVec.eq_of_toNat_eq
  rw [leByte_eq]
  rcases k with _ | _ | _ | _ | k
  all_goals first
    | omega
    | (simp [leWord, leNat]; omega)

theorem Desc.getElem_ofBytes (bs : DescBytes) (k : Nat) (hk : k < 8) :
    (Desc.ofBytes bs)[k] = leWord 32 [bs[4 * k], bs[4 * k + 1], bs[4 * k + 2], bs[4 * k + 3]] := by
  simp only [Desc.ofBytes, Vector.getElem_ofFn]

theorem Desc.getElem_toBytes (d : Desc) (k m : Nat) (hk : k < 8) (hm : m < 4) :
    d.toBytes[4 * k + m]'(by omega) = leByte d[k] m := by
  have e : (4 * k + m) / 4 = k := by omega
  have f : (4 * k + m) % 4 = m := by omega
  simp only [Desc.toBytes, Vector.getElem_ofFn, e, f]

/-- The words of a descriptor's bytes are its words. -/
@[simp] theorem Desc.ofBytes_toBytes (d : Desc) : Desc.ofBytes d.toBytes = d := by
  refine Vector.ext fun k hk => ?_
  have h0 := Desc.getElem_toBytes d k 0 hk (by omega)
  have h1 := Desc.getElem_toBytes d k 1 hk (by omega)
  have h2 := Desc.getElem_toBytes d k 2 hk (by omega)
  have h3 := Desc.getElem_toBytes d k 3 hk (by omega)
  simp only [Nat.add_zero] at h0
  rw [Desc.getElem_ofBytes _ _ hk, h0, h1, h2, h3, leWord_four]

/-- The bytes of a descriptor's words are its bytes. -/
@[simp] theorem Desc.toBytes_ofBytes (bs : DescBytes) : (Desc.ofBytes bs).toBytes = bs := by
  refine Vector.ext fun j hj => ?_
  obtain ⟨k, m, hk, hm, rfl⟩ : ∃ k m, k < 8 ∧ m < 4 ∧ j = 4 * k + m := ⟨j / 4, j % 4, by omega, by omega, by omega⟩
  rw [Desc.getElem_toBytes _ k m hk hm, Desc.getElem_ofBytes _ k hk, leByte_leWord_four _ _ _ _ _ hm]
  rcases m with _ | _ | _ | _ | m
  · rfl
  · rfl
  · rfl
  · rfl
  · omega

end Sys2Proof
end

