-- ==== Sys2Proof/Laws/State.lean ====
section
/-!
SUPPORT. What each field is after each named update of the state: one lemma per field per update, so that no proof unfolds a
record update.
-/

namespace Sys2Proof.Machine

/-! ## advance: the end of a successful command -/

@[simp] theorem State.advance_busy (s : State) : s.advance.busy = s.busy := rfl
@[simp] theorem State.advance_err (s : State) : s.advance.err = s.err := rfl
@[simp] theorem State.advance_cp (s : State) : s.advance.cp = s.cp + 32 := rfl
@[simp] theorem State.advance_errcode (s : State) : s.advance.errcode = s.errcode := rfl
@[simp] theorem State.advance_errcp (s : State) : s.advance.errcp = s.errcp := rfl
@[simp] theorem State.advance_ctx (s : State) : s.advance.ctx = s.ctx := rfl
@[simp] theorem State.advance_mem (s : State) : s.advance.mem = s.mem := rfl
@[simp] theorem State.advance_cfg (s : State) : s.advance.cfg = s.cfg := rfl
@[simp] theorem State.advance_sync (s : State) : s.advance.sync = s.sync := rfl
@[simp] theorem State.advance_pending (s : State) : s.advance.pending = s.pending := rfl
@[simp] theorem State.advance_hostData (s : State) : s.advance.hostData = s.hostData := rfl
@[simp] theorem State.advance_draws (s : State) : s.advance.draws = s.draws + 1 := rfl

/-! ## raise: error entry -/

@[simp] theorem State.raise_busy (s : State) (e : EngineError) : (s.raise e).busy = false := rfl
@[simp] theorem State.raise_err (s : State) (e : EngineError) : (s.raise e).err = true := rfl
@[simp] theorem State.raise_cp (s : State) (e : EngineError) : (s.raise e).cp = s.cp := rfl
@[simp] theorem State.raise_errcode (s : State) (e : EngineError) : (s.raise e).errcode = e.code := rfl
@[simp] theorem State.raise_errcp (s : State) (e : EngineError) : (s.raise e).errcp = s.cp := rfl
@[simp] theorem State.raise_ctx (s : State) (e : EngineError) : (s.raise e).ctx = s.ctx := rfl
@[simp] theorem State.raise_mem (s : State) (e : EngineError) : (s.raise e).mem = s.mem := rfl
@[simp] theorem State.raise_cfg (s : State) (e : EngineError) : (s.raise e).cfg = s.cfg := rfl
@[simp] theorem State.raise_sync (s : State) (e : EngineError) : (s.raise e).sync = s.sync := rfl
@[simp] theorem State.raise_pending (s : State) (e : EngineError) : (s.raise e).pending = s.pending := rfl
@[simp] theorem State.raise_hostData (s : State) (e : EngineError) : (s.raise e).hostData = s.hostData := rfl
@[simp] theorem State.raise_draws (s : State) (e : EngineError) : (s.raise e).draws = s.draws + 1 := rfl

/-! ## setSlot: a slot written -/

@[simp] theorem State.setSlot_busy (s : State) (c : Byte) (x : Ctx) : (s.setSlot c x).busy = s.busy := rfl
@[simp] theorem State.setSlot_err (s : State) (c : Byte) (x : Ctx) : (s.setSlot c x).err = s.err := rfl
@[simp] theorem State.setSlot_cp (s : State) (c : Byte) (x : Ctx) : (s.setSlot c x).cp = s.cp := rfl
@[simp] theorem State.setSlot_errcode (s : State) (c : Byte) (x : Ctx) : (s.setSlot c x).errcode = s.errcode := rfl
@[simp] theorem State.setSlot_errcp (s : State) (c : Byte) (x : Ctx) : (s.setSlot c x).errcp = s.errcp := rfl
@[simp] theorem State.setSlot_ctx (s : State) (c : Byte) (x : Ctx) : (s.setSlot c x).ctx = s.ctx.set c.toNat (some x) := rfl
@[simp] theorem State.setSlot_mem (s : State) (c : Byte) (x : Ctx) : (s.setSlot c x).mem = s.mem := rfl
@[simp] theorem State.setSlot_cfg (s : State) (c : Byte) (x : Ctx) : (s.setSlot c x).cfg = s.cfg := rfl
@[simp] theorem State.setSlot_sync (s : State) (c : Byte) (x : Ctx) : (s.setSlot c x).sync = s.sync := rfl
@[simp] theorem State.setSlot_pending (s : State) (c : Byte) (x : Ctx) : (s.setSlot c x).pending = s.pending := rfl
@[simp] theorem State.setSlot_hostData (s : State) (c : Byte) (x : Ctx) : (s.setSlot c x).hostData = s.hostData := rfl
@[simp] theorem State.setSlot_draws (s : State) (c : Byte) (x : Ctx) : (s.setSlot c x).draws = s.draws := rfl

/-! ## engineRead: bytes read by the engine -/

@[simp] theorem State.engineRead_busy (s : State) (a n : Nat) : (s.engineRead a n).busy = s.busy := rfl
@[simp] theorem State.engineRead_err (s : State) (a n : Nat) : (s.engineRead a n).err = s.err := rfl
@[simp] theorem State.engineRead_cp (s : State) (a n : Nat) : (s.engineRead a n).cp = s.cp := rfl
@[simp] theorem State.engineRead_errcode (s : State) (a n : Nat) : (s.engineRead a n).errcode = s.errcode := rfl
@[simp] theorem State.engineRead_errcp (s : State) (a n : Nat) : (s.engineRead a n).errcp = s.errcp := rfl
@[simp] theorem State.engineRead_ctx (s : State) (a n : Nat) : (s.engineRead a n).ctx = s.ctx := rfl
@[simp] theorem State.engineRead_mem (s : State) (a n : Nat) : (s.engineRead a n).mem = s.mem := rfl
@[simp] theorem State.engineRead_cfg (s : State) (a n : Nat) : (s.engineRead a n).cfg = s.cfg := rfl
@[simp] theorem State.engineRead_pending (s : State) (a n : Nat) : (s.engineRead a n).pending = s.pending := rfl
@[simp] theorem State.engineRead_hostData (s : State) (a n : Nat) : (s.engineRead a n).hostData = s.hostData := rfl
@[simp] theorem State.engineRead_draws (s : State) (a n : Nat) : (s.engineRead a n).draws = s.draws := rfl
@[simp] theorem State.engineRead_sync (s : State) (a n : Nat) : (s.engineRead a n).sync = s.sync.engineReads a n := rfl

/-! ## engineStore: bytes stored by the engine -/

@[simp] theorem State.engineStore_busy (s : State) (a : Nat) (d : List Byte) : (s.engineStore a d).busy = s.busy := rfl
@[simp] theorem State.engineStore_err (s : State) (a : Nat) (d : List Byte) : (s.engineStore a d).err = s.err := rfl
@[simp] theorem State.engineStore_cp (s : State) (a : Nat) (d : List Byte) : (s.engineStore a d).cp = s.cp := rfl
@[simp] theorem State.engineStore_errcode (s : State) (a : Nat) (d : List Byte) : (s.engineStore a d).errcode = s.errcode := rfl
@[simp] theorem State.engineStore_errcp (s : State) (a : Nat) (d : List Byte) : (s.engineStore a d).errcp = s.errcp := rfl
@[simp] theorem State.engineStore_ctx (s : State) (a : Nat) (d : List Byte) : (s.engineStore a d).ctx = s.ctx := rfl
@[simp] theorem State.engineStore_mem (s : State) (a : Nat) (d : List Byte) : (s.engineStore a d).mem = s.mem.writeBytes a d := rfl
@[simp] theorem State.engineStore_cfg (s : State) (a : Nat) (d : List Byte) : (s.engineStore a d).cfg = s.cfg := rfl
@[simp] theorem State.engineStore_sync (s : State) (a : Nat) (d : List Byte) : (s.engineStore a d).sync = s.sync.engineWrites s.mem a d.length := rfl
@[simp] theorem State.engineStore_pending (s : State) (a : Nat) (d : List Byte) : (s.engineStore a d).pending = s.pending := rfl
@[simp] theorem State.engineStore_hostData (s : State) (a : Nat) (d : List Byte) : (s.engineStore a d).hostData = s.hostData := rfl
@[simp] theorem State.engineStore_draws (s : State) (a : Nat) (d : List Byte) : (s.engineStore a d).draws = s.draws := rfl

/-! ## hostPut: bytes stored by the host -/

@[simp] theorem State.hostPut_busy (s : State) (a : Nat) (d : List Byte) : (s.hostPut a d).busy = s.busy := rfl
@[simp] theorem State.hostPut_err (s : State) (a : Nat) (d : List Byte) : (s.hostPut a d).err = s.err := rfl
@[simp] theorem State.hostPut_cp (s : State) (a : Nat) (d : List Byte) : (s.hostPut a d).cp = s.cp := rfl
@[simp] theorem State.hostPut_errcode (s : State) (a : Nat) (d : List Byte) : (s.hostPut a d).errcode = s.errcode := rfl
@[simp] theorem State.hostPut_errcp (s : State) (a : Nat) (d : List Byte) : (s.hostPut a d).errcp = s.errcp := rfl
@[simp] theorem State.hostPut_ctx (s : State) (a : Nat) (d : List Byte) : (s.hostPut a d).ctx = s.ctx := rfl
@[simp] theorem State.hostPut_mem (s : State) (a : Nat) (d : List Byte) : (s.hostPut a d).mem = s.mem.writeBytes a d := rfl
@[simp] theorem State.hostPut_cfg (s : State) (a : Nat) (d : List Byte) : (s.hostPut a d).cfg = s.cfg := rfl
@[simp] theorem State.hostPut_sync (s : State) (a : Nat) (d : List Byte) : (s.hostPut a d).sync = s.sync.hostWrites s.busy a d.length := rfl
@[simp] theorem State.hostPut_pending (s : State) (a : Nat) (d : List Byte) : (s.hostPut a d).pending = s.pending := rfl
@[simp] theorem State.hostPut_hostData (s : State) (a : Nat) (d : List Byte) : (s.hostPut a d).hostData = s.hostData := rfl
@[simp] theorem State.hostPut_draws (s : State) (a : Nat) (d : List Byte) : (s.hostPut a d).draws = s.draws := rfl

/-! ## start: START -/

@[simp] theorem State.start_busy (s : State) : s.start.busy = true := rfl
@[simp] theorem State.start_err (s : State) : s.start.err = false := rfl
@[simp] theorem State.start_cp (s : State) : s.start.cp = s.cp := rfl
@[simp] theorem State.start_errcode (s : State) : s.start.errcode = 0 := rfl
@[simp] theorem State.start_errcp (s : State) : s.start.errcp = 0 := rfl
@[simp] theorem State.start_ctx (s : State) : s.start.ctx = s.ctx := rfl
@[simp] theorem State.start_mem (s : State) : s.start.mem = s.mem := rfl
@[simp] theorem State.start_cfg (s : State) : s.start.cfg = s.cfg := rfl
@[simp] theorem State.start_sync (s : State) : s.start.sync = s.sync.start := rfl
@[simp] theorem State.start_pending (s : State) : s.start.pending = s.pending := rfl
@[simp] theorem State.start_hostData (s : State) : s.start.hostData = s.hostData := rfl
@[simp] theorem State.start_draws (s : State) : s.start.draws = s.draws := rfl

/-! ## The number of slots -/

@[simp] theorem State.advance_nctx (s : State) : s.advance.nctx = s.nctx := rfl
@[simp] theorem State.raise_nctx (s : State) (e : EngineError) : (s.raise e).nctx = s.nctx := rfl
@[simp] theorem State.engineRead_nctx (s : State) (a n : Nat) : (s.engineRead a n).nctx = s.nctx := rfl
@[simp] theorem State.engineStore_nctx (s : State) (a : Nat) (d : List Byte) : (s.engineStore a d).nctx = s.nctx := rfl
@[simp] theorem State.setSlot_nctx (s : State) (c : Byte) (x : Ctx) : (s.setSlot c x).nctx = s.nctx := by
  simp [State.nctx]

/-- A slot just written holds what was written. -/
theorem State.setSlot_self (s : State) (c : Byte) (x : Ctx) (h : c.toNat < s.nctx) :
    (s.setSlot c x).ctx[c.toNat]? = some (some x) := by
  simp [List.getElem?_set_self h]

/-- Every other slot keeps what it holds. -/
theorem State.setSlot_other (s : State) (c : Byte) (x : Ctx) (d : Nat) (h : d ≠ c.toNat) :
    (s.setSlot c x).ctx[d]? = s.ctx[d]? := by
  simp [List.getElem?_set_ne (Ne.symm h)]

end Sys2Proof.Machine
end

