-- ==== Sys2Proof/Laws/Memory.lean ====
section
/-!
SUPPORT. The laws of the byte memory (read after write, and that every memory operation keeps the canonical form) and of the
sets of addresses.
-/

namespace Sys2Proof.Machine

/-! ## Reading after writing -/

theorem Memory.read_erase_self (m : Memory) (a : Nat) : (m.erase a).read a = Memory.unlisted := by
  induction m with
  | nil => rfl
  | cons c m ih =>
    obtain ⟨k, v⟩ := c
    by_cases h : k = a
    · simpa [Memory.erase, h] using ih
    · simpa [Memory.erase, h, Memory.read, Ne.symm h] using ih

theorem Memory.read_erase_other (m : Memory) {a a' : Nat} (h : a' ≠ a) : (m.erase a).read a' = m.read a' := by
  induction m with
  | nil => rfl
  | cons c m ih =>
    obtain ⟨k, v⟩ := c
    by_cases hk : k = a
    · subst hk
      simpa [Memory.erase, Memory.read, h] using ih
    · by_cases h' : a' = k
      · simp [Memory.erase, hk, Memory.read, h']
      · simpa [Memory.erase, hk, Memory.read, h'] using ih

theorem Memory.read_insert_other (m : Memory) {a a' : Nat} (b : Byte) (h : a' ≠ a) :
    (m.insert a b).read a' = m.read a' := by
  induction m with
  | nil => simp [Memory.insert, Memory.read, h]
  | cons c m ih =>
    obtain ⟨k, v⟩ := c
    by_cases hk : a < k
    · simp [Memory.insert, hk, Memory.read, h]
    · simp [Memory.insert, hk, Memory.read, ih]

theorem Memory.read_insert_self (m : Memory) (a : Nat) (b : Byte) (h : ∀ c ∈ m, c.1 ≠ a) :
    (m.insert a b).read a = b := by
  induction m with
  | nil => simp [Memory.insert, Memory.read]
  | cons c m ih =>
    obtain ⟨k, v⟩ := c
    have hk : a ≠ k := fun e => h (k, v) (by simp) e.symm
    have hm : ∀ c ∈ m, c.1 ≠ a := fun c hc => h c (by simp [hc])
    by_cases hlt : a < k
    · simp [Memory.insert, hlt, Memory.read]
    · simp [Memory.insert, hlt, Memory.read, hk, ih hm]

/-- A read of the address just written gives the byte written. -/
@[simp] theorem Memory.read_write_self (m : Memory) (a : Nat) (b : Byte) : (m.write a b).read a = b := by
  unfold Memory.write
  split
  · next h => rw [Memory.read_erase_self, h]
  · exact Memory.read_insert_self _ _ _ (by simp [Memory.erase])

/-- A write leaves every other address alone. -/
theorem Memory.read_write_other (m : Memory) {a a' : Nat} (b : Byte) (h : a' ≠ a) : (m.write a b).read a' = m.read a' := by
  unfold Memory.write
  split
  · exact Memory.read_erase_other m h
  · rw [Memory.read_insert_other _ _ h, Memory.read_erase_other m h]

/-- Writing bytes leaves every address outside them alone. -/
theorem Memory.read_writeBytes_outside (bs : List Byte) (m : Memory) (a a' : Nat) (h : a' < a ∨ a + bs.length ≤ a') :
    (m.writeBytes a bs).read a' = m.read a' := by
  induction bs generalizing m a with
  | nil => rfl
  | cons b bs ih =>
    simp only [List.length_cons] at h
    rw [Memory.writeBytes, ih _ _ (by omega), Memory.read_write_other _ _ (by omega)]

/-- The k-th byte written reads back. -/
theorem Memory.read_writeBytes_inside (bs : List Byte) (m : Memory) (a k : Nat) (h : k < bs.length) :
    (m.writeBytes a bs).read (a + k) = bs[k] := by
  induction bs generalizing m a k with
  | nil => simp at h
  | cons b bs ih =>
    cases k with
    | zero => simp [Memory.writeBytes, Memory.read_writeBytes_outside]
    | succ k =>
      have := ih (m.write a b) (a + 1) k (by simpa using h)
      simpa [Memory.writeBytes, Nat.add_assoc, Nat.add_comm 1 k] using this

/-- Writing two strings one after the other is writing their concatenation. -/
theorem Memory.writeBytes_append (xs ys : List Byte) (m : Memory) (a : Nat) :
    m.writeBytes a (xs ++ ys) = (m.writeBytes a xs).writeBytes (a + xs.length) ys := by
  induction xs generalizing m a with
  | nil => rfl
  | cons b xs ih => simp [Memory.writeBytes, ih, Nat.add_assoc, Nat.add_comm 1]

/-! ## The canonical form -/

/-- The canonical form, said once for the whole list: rising addresses, and no entry that an unlisted address would give. -/
theorem Memory.wf_iff (m : Memory) :
    m.wf = true ↔ m.Pairwise (fun c d => c.1 < d.1) ∧ ∀ c ∈ m, c.2 ≠ Memory.unlisted := by
  induction m with
  | nil => simp [Memory.wf]
  | cons c m ih =>
    obtain ⟨k, v⟩ := c
    cases m with
    | nil => simp [Memory.wf]
    | cons c' m =>
      obtain ⟨k', v'⟩ := c'
      simp only [Memory.wf, Bool.and_eq_true, bne_iff_ne, decide_eq_true_eq, ih, List.pairwise_cons, List.mem_cons,
        forall_eq_or_imp]
      constructor
      · rintro ⟨⟨hv, hk⟩, ⟨hp, hq⟩, hv', hm⟩
        exact ⟨⟨⟨hk, fun c hc => lt_trans hk (hp c hc)⟩, hp, hq⟩, hv, hv', hm⟩
      · rintro ⟨⟨⟨hk, -⟩, hp, hq⟩, hv, hv', hm⟩
        exact ⟨⟨hv, hk⟩, ⟨hp, hq⟩, hv', hm⟩

theorem Memory.erase_wf {m : Memory} (a : Nat) (h : m.wf = true) : (m.erase a).wf = true := by
  rw [Memory.wf_iff] at h ⊢
  exact ⟨h.1.filter _, fun c hc => h.2 c (List.mem_filter.1 hc).1⟩

theorem Memory.mem_insert {m : Memory} {a : Nat} {b : Byte} {c : Host.Cell} (h : c ∈ m.insert a b) :
    c = (a, b) ∨ c ∈ m := by
  induction m with
  | nil => simpa [Memory.insert] using h
  | cons d m ih =>
    obtain ⟨k, v⟩ := d
    unfold Memory.insert at h
    split at h
    · simpa using h
    · rcases List.mem_cons.1 h with h | h
      · exact .inr (by simp [h])
      · exact (ih h).imp id (by simp +contextual)

theorem Memory.insert_wf {m : Memory} {a : Nat} {b : Byte} (hb : b ≠ Memory.unlisted) (ha : ∀ c ∈ m, c.1 ≠ a)
    (h : m.wf = true) : (m.insert a b).wf = true := by
  rw [Memory.wf_iff] at h ⊢
  refine ⟨?_, fun c hc => ?_⟩
  · induction m with
    | nil => simp [Memory.insert]
    | cons d m ih =>
      obtain ⟨k, v⟩ := d
      obtain ⟨hp, hn⟩ := h
      rw [List.pairwise_cons] at hp
      unfold Memory.insert
      split
      · next hlt =>
        refine List.pairwise_cons.2 ⟨fun c hc => ?_, List.pairwise_cons.2 hp⟩
        rcases List.mem_cons.1 hc with rfl | hc
        · exact hlt
        · exact lt_trans hlt (hp.1 c hc)
      · next hlt =>
        have hka : k < a := lt_of_le_of_ne (Nat.le_of_not_lt hlt) (ha (k, v) (by simp))
        refine List.pairwise_cons.2 ⟨fun c hc => ?_, ih (fun c hc => ha c (by simp [hc])) ⟨hp.2, fun c hc => hn c (by simp [hc])⟩⟩
        rcases Memory.mem_insert hc with rfl | hc
        · exact hka
        · exact hp.1 c hc
  · rcases Memory.mem_insert hc with rfl | hc
    · exact hb
    · exact h.2 c hc

/-- A write keeps the canonical form. -/
theorem Memory.write_wf {m : Memory} (a : Nat) (b : Byte) (h : m.wf = true) : (m.write a b).wf = true := by
  unfold Memory.write
  split
  · exact Memory.erase_wf a h
  · next hb => exact Memory.insert_wf hb (by simp [Memory.erase]) (Memory.erase_wf a h)

/-- Writing bytes keeps the canonical form. -/
theorem Memory.writeBytes_wf (bs : List Byte) {m : Memory} (a : Nat) (h : m.wf = true) : (m.writeBytes a bs).wf = true := by
  induction bs generalizing m a with
  | nil => exact h
  | cons b bs ih => exact ih (a + 1) (Memory.write_wf a b h)

/-- The merge at reset keeps the canonical form. -/
theorem Memory.blend_wf (draw : Nat) {old : Memory} (new : Memory) (h : old.wf = true) :
    (Memory.blend draw old new).wf = true := by
  suffices H : ∀ (ks : List Nat) (m : Memory), m.wf = true →
      (ks.foldl (fun m a => if Config.resetAfterWrite draw a then m.write a (new.read a) else m) m).wf = true from H _ _ h
  intro ks
  induction ks with
  | nil => exact fun m hm => hm
  | cons a ks ih =>
    intro m hm
    refine ih _ ?_
    by_cases hk : Config.resetAfterWrite draw a = true
    · simpa [hk] using Memory.write_wf _ _ hm
    · simpa [hk] using hm

/-- Memory after reset is canonical: nothing is listed. -/
theorem State.reset_mem_wf : State.reset.mem.wf = true := rfl

/-! ## 32-bit addresses -/

theorem Memory.bounded_iff (m : Memory) : m.bounded = true ↔ ∀ c ∈ m, c.1 < addrSpace := by
  simp [Memory.bounded, List.all_eq_true]

theorem Memory.write_bounded {m : Memory} {a : Nat} (b : Byte) (ha : a < addrSpace) (h : m.bounded = true) :
    (m.write a b).bounded = true := by
  rw [Memory.bounded_iff] at h ⊢
  have he : ∀ c ∈ m.erase a, c.1 < addrSpace := fun c hc => h c (List.mem_filter.1 hc).1
  unfold Memory.write
  intro c hc
  split at hc
  · exact he c hc
  · rcases Memory.mem_insert hc with rfl | hc
    · exact ha
    · exact he c hc

theorem Memory.writeBytes_bounded (bs : List Byte) {m : Memory} {a : Nat} (ha : a + bs.length ≤ addrSpace)
    (h : m.bounded = true) : (m.writeBytes a bs).bounded = true := by
  induction bs generalizing m a with
  | nil => exact h
  | cons b bs ih =>
    simp only [List.length_cons] at ha
    exact ih (by omega) (Memory.write_bounded b (by omega) h)

/-! ## Sets of addresses -/

theorem AddrSet.mem_insert (m : AddrSet) (a k : Nat) : k ∈ AddrSet.insert m a ↔ k = a ∨ k ∈ m := by
  induction m with
  | nil => simp [AddrSet.insert]
  | cons x m ih =>
    unfold AddrSet.insert
    split
    · simp
    · split
      · next h => subst h; simp
      · simp only [List.mem_cons, ih]
        tauto

theorem AddrSet.mem_union (m l : AddrSet) (k : Nat) : k ∈ AddrSet.union m l ↔ k ∈ m ∨ k ∈ l := by
  induction l generalizing m with
  | nil => simp [AddrSet.union]
  | cons c l ih =>
    rw [AddrSet.union, List.foldl_cons, ← AddrSet.union, ih, AddrSet.mem_insert, List.mem_cons]
    tauto

theorem AddrSet.mem_erase (m : AddrSet) (a k : Nat) : k ∈ AddrSet.erase m a ↔ k ≠ a ∧ k ∈ m := by
  simp [AddrSet.erase, and_comm]

theorem AddrSet.wf_iff (m : AddrSet) : m.wf = true ↔ m.Pairwise (· < ·) := by
  induction m with
  | nil => simp [AddrSet.wf]
  | cons k m ih =>
    cases m with
    | nil => simp [AddrSet.wf]
    | cons k' m =>
      simp only [AddrSet.wf, Bool.and_eq_true, decide_eq_true_eq, ih, List.pairwise_cons (a := k), List.mem_cons,
        forall_eq_or_imp]
      constructor
      · rintro ⟨hk, hp⟩
        exact ⟨⟨hk, fun c hc => lt_trans hk ((List.pairwise_cons.1 hp).1 c hc)⟩, hp⟩
      · rintro ⟨⟨hk, -⟩, hp⟩
        exact ⟨hk, hp⟩

/-- Adding an address keeps the canonical form. -/
theorem AddrSet.insert_wf {m : AddrSet} (a : Nat) (h : m.wf = true) : (AddrSet.insert m a).wf = true := by
  rw [AddrSet.wf_iff] at h ⊢
  induction m with
  | nil => simp [AddrSet.insert]
  | cons x m ih =>
    rw [List.pairwise_cons] at h
    unfold AddrSet.insert
    split
    · next hlt =>
      refine List.pairwise_cons.2 ⟨fun c hc => ?_, List.pairwise_cons.2 h⟩
      rcases List.mem_cons.1 hc with rfl | hc
      · exact hlt
      · exact lt_trans hlt (h.1 c hc)
    · split
      · exact List.pairwise_cons.2 h
      · next hlt hne =>
        refine List.pairwise_cons.2 ⟨fun c hc => ?_, ih h.2⟩
        rcases (AddrSet.mem_insert m a c).1 hc with rfl | hc
        · omega
        · exact h.1 c hc

/-- Removing an address keeps the canonical form. -/
theorem AddrSet.erase_wf {m : AddrSet} (a : Nat) (h : m.wf = true) : (AddrSet.erase m a).wf = true := by
  rw [AddrSet.wf_iff] at h ⊢
  exact h.filter _

end Sys2Proof.Machine
end

