-- ==== Sys2Proof/Laws/Ops.lean ====
section
/-!
SUPPORT. What each shared operation can do, said once: the checks, the slots, the memory accesses, the range and refusal
tests, and the fetch.
-/

namespace Sys2Proof

/-! ## RangeOK and the refusals -/

theorem Config.allOK_iff (c : Config) (a n : Nat) : c.allOK a n = true ↔ ∀ k < n, c.memOK (a + k) = true := by
  induction n generalizing a with
  | zero => simp [Config.allOK]
  | succ n ih =>
    simp only [Config.allOK, Bool.and_eq_true, ih]
    constructor
    · rintro ⟨h0, h⟩ k hk
      cases k with
      | zero => exact h0
      | succ k => simpa [Nat.add_assoc, Nat.add_comm 1 k] using h k (by omega)
    · intro h
      exact ⟨h 0 (by omega), fun k hk => by simpa [Nat.add_assoc, Nat.add_comm 1 k] using h (k + 1) (by omega)⟩

/-- RangeOK as 20 R62 writes it. -/
theorem Config.rangeOK_iff (c : Config) (a n : Nat) :
    c.rangeOK a n = true ↔ n = 0 ∨ (a + n ≤ addrSpace ∧ ∀ k < n, c.memOK (a + k) = true) := by
  simp [Config.rangeOK, Config.allOK_iff]

theorem Config.rangeOK_mono (c : Config) {a n n' : Nat} (h : c.rangeOK a n = true) (hn : n' ≤ n) : c.rangeOK a n' = true := by
  rw [Config.rangeOK_iff] at h ⊢
  rcases h with h | ⟨h, hk⟩
  · exact .inl (by omega)
  · exact .inr ⟨by omega, fun k hk' => hk k (by omega)⟩

/-- A range splits into its two parts. -/
theorem Config.rangeOK_add (c : Config) (a m n : Nat) (h : c.rangeOK a (m + n) = true) :
    c.rangeOK a m = true ∧ c.rangeOK (a + m) n = true := by
  rw [Config.rangeOK_iff] at h
  simp only [Config.rangeOK_iff]
  rcases h with h | ⟨h, hk⟩
  · exact ⟨.inl (by omega), .inl (by omega)⟩
  · exact ⟨.inr ⟨by omega, fun k hk' => hk k (by omega)⟩,
      .inr ⟨by omega, fun k hk' => by simpa [Nat.add_assoc] using hk (m + k) (by omega)⟩⟩

theorem Config.barredRange_eq_none (c : Config) (a n : Nat) :
    c.barredRange a n = none ↔ ∀ k < n, c.barred (a + k) = none := by
  induction n generalizing a with
  | zero => simp [Config.barredRange]
  | succ n ih =>
    simp only [Config.barredRange, Option.or_eq_none_iff, ih]
    constructor
    · rintro ⟨h0, h⟩ k hk
      cases k with
      | zero => exact h0
      | succ k => simpa [Nat.add_assoc, Nat.add_comm 1 k] using h k (by omega)
    · intro h
      exact ⟨h 0 (by omega), fun k hk => by simpa [Nat.add_assoc, Nat.add_comm 1 k] using h (k + 1) (by omega)⟩

end Sys2Proof

namespace Sys2Proof.Machine

/-! ## Checks -/

@[simp] theorem State.check_true (s : State) (e : EngineError) (rest : Out) : s.check true e rest = rest := rfl

@[simp] theorem State.check_false (s : State) (e : EngineError) (rest : Out) : s.check false e rest = .next (s.raise e) := rfl

theorem State.check_eq_next {s t : State} {ok : Bool} {e : EngineError} {rest : Out} :
    s.check ok e rest = .next t ↔ (ok = true ∧ rest = .next t) ∨ (ok = false ∧ t = s.raise e) := by
  cases ok <;> simp [eq_comm]

/-! ## Slots -/

theorem State.occupied_of_some {s : State} {c : Byte} {x : Ctx} (h : s.ctx[c.toNat]? = some (some x)) (rest : Ctx → Out) :
    s.occupied c rest = rest x := by
  simp [State.occupied, h]

theorem State.occupied_of_range {s : State} {c : Byte} (h : s.nctx ≤ c.toNat) (rest : Ctx → Out) :
    s.occupied c rest = .next (s.raise (.badContext .indexRange)) := by
  simp [State.occupied, List.getElem?_eq_none (show s.ctx.length ≤ c.toNat from h)]

theorem State.occupied_of_free {s : State} {c : Byte} (h : s.ctx[c.toNat]? = some none) (rest : Ctx → Out) :
    s.occupied c rest = .next (s.raise (.badContext .freeSlot)) := by
  simp [State.occupied, h]

theorem State.occupied_eq_next {s t : State} {c : Byte} {rest : Ctx → Out} (h : s.occupied c rest = .next t) :
    (∃ x, s.ctx[c.toNat]? = some (some x) ∧ rest x = .next t) ∨ ∃ e, t = s.raise e := by
  unfold State.occupied at h
  split at h
  · exact .inr ⟨_, by simpa [eq_comm] using h⟩
  · exact .inr ⟨_, by simpa [eq_comm] using h⟩
  · next x hx => exact .inl ⟨x, hx, h⟩

theorem State.live_of_some {s : State} {c : Byte} {x : Ctx} (h : s.ctx[c.toNat]? = some (some x)) (hd : x.destroyed = false)
    (rest : Ctx → Out) : s.live c rest = rest x := by
  simp [State.live, State.occupied_of_some h, hd]

theorem State.live_of_destroyed {s : State} {c : Byte} {x : Ctx} (h : s.ctx[c.toNat]? = some (some x))
    (hd : x.destroyed = true) (rest : Ctx → Out) : s.live c rest = .next (s.raise (.lifecycle .destroyed)) := by
  simp [State.live, State.occupied_of_some h, hd]

theorem State.live_eq_next {s t : State} {c : Byte} {rest : Ctx → Out} (h : s.live c rest = .next t) :
    (∃ x, s.ctx[c.toNat]? = some (some x) ∧ x.destroyed = false ∧ rest x = .next t) ∨ ∃ e, t = s.raise e := by
  rcases State.occupied_eq_next h with ⟨x, hx, h⟩ | h
  · rcases State.check_eq_next.1 h with ⟨hd, h⟩ | ⟨-, h⟩
    · exact .inl ⟨x, hx, by simpa using hd, h⟩
    · exact .inr ⟨_, h⟩
  · exact .inr h

/-- An occupied slot is one of the NCTX slots. -/
theorem State.lt_nctx_of_some {s : State} {c : Nat} {x : Slot} (h : s.ctx[c]? = some x) : c < s.nctx :=
  (List.getElem?_eq_some_iff.1 h).1

/-! ## Engine memory accesses -/

@[simp] theorem State.engineBytes_length (s : State) (k a n : Nat) : (s.engineBytes k a n).length = n := by
  induction n generalizing a with
  | zero => rfl
  | succ n ih => simp [State.engineBytes, ih]

theorem State.engineBytes_getElem (s : State) (k a n i : Nat) (h : i < (s.engineBytes k a n).length) :
    (s.engineBytes k a n)[i] = s.engineByte k (a + i) := by
  induction n generalizing a i with
  | zero => simp [State.engineBytes] at h
  | succ n ih =>
    cases i with
    | zero => simp [State.engineBytes]
    | succ i => simp [State.engineBytes, ih, Nat.add_assoc, Nat.add_comm 1 i]

/-- A range is read as its two parts. -/
theorem State.engineBytes_add (s : State) (k a m n : Nat) :
    s.engineBytes k a (m + n) = s.engineBytes k a m ++ s.engineBytes k (a + m) n := by
  induction m generalizing a with
  | zero => simp [State.engineBytes]
  | succ m ih => simp [Nat.succ_add, State.engineBytes, ih, Nat.add_assoc]

/-- A byte nobody races for reads as what memory holds. -/
theorem State.engineByte_quiet {s : State} {a : Nat} (k : Nat) (hw : a ∉ s.sync.hostWrote) (hr : a ∉ s.sync.raced) :
    s.engineByte k a = s.mem.read a := by
  simp [State.engineByte, hw, hr]

/-! What a read notes changes neither what is read nor what a range may access. -/

@[simp] theorem Sync.engineReads_hostWrote (y : Sync) (a n : Nat) : (y.engineReads a n).hostWrote = y.hostWrote := rfl
@[simp] theorem Sync.engineReads_engineWrote (y : Sync) (a n : Nat) : (y.engineReads a n).engineWrote = y.engineWrote := rfl
@[simp] theorem Sync.engineReads_older (y : Sync) (a n : Nat) : (y.engineReads a n).older = y.older := rfl
@[simp] theorem Sync.engineReads_raced (y : Sync) (a n : Nat) : (y.engineReads a n).raced = y.raced := rfl

/-- Where the host stored nothing during the run, a read notes nothing. -/
theorem Sync.engineReads_quiet {y : Sync} {a n : Nat} (h : ∀ k ∈ y.hostWrote, k < a ∨ a + n ≤ k) : y.engineReads a n = y := by
  have : (y.hostWrote.filter fun k => decide (a ≤ k ∧ k < a + n)) = [] := by
    rw [List.filter_eq_nil_iff]
    intro k hk
    have := h k hk
    simp only [decide_eq_true_eq]
    omega
  rw [Sync.engineReads, this]
  rfl

@[simp] theorem State.engineRead_engineByte (s : State) (a n k b : Nat) :
    (s.engineRead a n).engineByte k b = s.engineByte k b := rfl

@[simp] theorem State.engineRead_engineBytes (s : State) (a n k b m : Nat) :
    (s.engineRead a n).engineBytes k b m = s.engineBytes k b m := by
  induction m generalizing b with
  | zero => rfl
  | succ m ih => simp [State.engineBytes, ih]

@[simp] theorem State.engineRead_rangeOK (s : State) (a n : Nat) (b : Word) (m : Nat) :
    (s.engineRead a n).rangeOK b m = s.rangeOK b m := rfl

theorem State.memRead_of_open {s : State} {a : Word} {n : Nat} (h : s.cfg.barredRange a.toNat n = none) (k : Nat)
    (rest : List Byte → State → Out) :
    s.memRead k a n rest = rest (s.engineBytes k a.toNat n) (s.engineRead a.toNat n) := by
  simp [State.memRead, h]

theorem State.memRead_eq_next {s t : State} {k n : Nat} {a : Word} {rest : List Byte → State → Out}
    (h : s.memRead k a n rest = .next t) :
    s.cfg.barredRange a.toNat n = none ∧ rest (s.engineBytes k a.toNat n) (s.engineRead a.toNat n) = .next t := by
  unfold State.memRead at h
  split at h
  · exact absurd h (by simp)
  · next hb => exact ⟨hb, h⟩

theorem State.memWrite_of_open {s : State} {a : Word} {d : List Byte} (h : s.cfg.barredRange a.toNat d.length = none)
    (rest : State → Out) : s.memWrite a d rest = rest (s.engineStore a.toNat d) := by
  simp [State.memWrite, h]

theorem State.memWrite_eq_next {s t : State} {a : Word} {d : List Byte} {rest : State → Out}
    (h : s.memWrite a d rest = .next t) :
    s.cfg.barredRange a.toNat d.length = none ∧ rest (s.engineStore a.toNat d) = .next t := by
  unfold State.memWrite at h
  split at h
  · exact absurd h (by simp)
  · next hb => exact ⟨hb, h⟩

/-- What an option reads, when it is read. -/
def optBytes (s : State) (k : Nat) (r : OptRange) : Option (List Byte) :=
  if r.present then some (s.engineBytes k r.addr.toNat r.len.toNat) else none

/-- The state after the read of an option. -/
def State.optRead (s : State) (r : OptRange) : State :=
  if r.present then s.engineRead r.addr.toNat r.len.toNat else s

/-- Reading an option notes what it read, and changes nothing else. -/
theorem State.optRead_eq (s : State) (r : OptRange) : ∃ y : Sync, y.hostWrote = s.sync.hostWrote ∧ y.raced = s.sync.raced ∧
    s.optRead r = { s with sync := y } := by
  unfold State.optRead
  split
  · exact ⟨s.sync.engineReads r.addr.toNat r.len.toNat, rfl, rfl, rfl⟩
  · exact ⟨s.sync, rfl, rfl, rfl⟩

@[simp] theorem optBytes_optRead (s : State) (r : OptRange) (k : Nat) (q : OptRange) :
    optBytes (s.optRead r) k q = optBytes s k q := by
  unfold State.optRead
  split
  · simp [optBytes]
  · rfl

theorem State.readOption_of_open {s : State} {r : OptRange}
    (h : r.present = true → s.cfg.barredRange r.addr.toNat r.len.toNat = none) (k : Nat)
    (rest : Option (List Byte) → State → Out) : s.readOption k r rest = rest (optBytes s k r) (s.optRead r) := by
  by_cases hp : r.present = true
  · simp [State.readOption, optBytes, State.optRead, hp, State.memRead_of_open (h hp)]
  · simp [State.readOption, optBytes, State.optRead, hp]

theorem State.readOption_eq_next {s t : State} {k : Nat} {r : OptRange} {rest : Option (List Byte) → State → Out}
    (h : s.readOption k r rest = .next t) : rest (optBytes s k r) (s.optRead r) = .next t := by
  unfold State.readOption at h
  split at h
  · next hp => simpa [optBytes, State.optRead, hp] using (State.memRead_eq_next h).2
  · next hp => simpa [optBytes, State.optRead, hp] using h

/-! ## Fetch -/

/-- The fetch of an admitted descriptor that decodes runs the command. -/
theorem State.fetch_of_decode {s : State} {i : Instr} (hr : s.rangeOK s.cp 32 = true)
    (hb : s.cfg.barredRange s.cp.toNat 32 = none) (hd : decode s.descBytes = .ok i)
    (rest : Instr → State → Out) : s.fetch rest = rest i (s.engineRead s.cp.toNat 32) := by
  simp [State.fetch, hr, hb, hd]

theorem State.fetch_eq_next {s t : State} {rest : Instr → State → Out} (h : s.fetch rest = .next t) :
    (∃ i, decode s.descBytes = .ok i ∧ rest i (s.engineRead s.cp.toNat 32) = .next t) ∨
    (∃ e, t = s.raise e) ∨ ∃ e, t = (s.engineRead s.cp.toNat 32).raise e := by
  unfold State.fetch at h
  rcases State.check_eq_next.1 h with ⟨-, h⟩ | ⟨-, h⟩
  · split at h
    · exact absurd h (by simp)
    · split at h
      · exact .inr (.inr ⟨_, by simpa [eq_comm] using h⟩)
      · next i hi => exact .inl ⟨i, hi, h⟩
  · exact .inr (.inl ⟨_, h⟩)

/-! ## Race bookkeeping of a run of bytes -/

@[simp] theorem Sync.engineWrites_hostWrote (y : Sync) (m : Memory) (a n : Nat) : (y.engineWrites m a n).hostWrote = y.hostWrote := by
  induction n generalizing y a with
  | zero => rfl
  | succ n ih => rw [Sync.engineWrites, ih]; rfl

/-- An engine read makes exactly the bytes of its range raced that the host stored during the run (20 R73). -/
theorem Sync.mem_engineReads_readRaced (y : Sync) (a n k : Nat) :
    k ∈ (y.engineReads a n).readRaced ↔ k ∈ y.readRaced ∨ (k ∈ y.hostWrote ∧ a ≤ k ∧ k < a + n) := by
  simp [Sync.engineReads, AddrSet.mem_union]

/-- After an engine write of a range, raced are its bytes the host stored during the run, and those outside it that were. -/
theorem Sync.mem_engineWrites_raced (y : Sync) (m : Memory) (a n k : Nat) :
    k ∈ (y.engineWrites m a n).raced ↔ if a ≤ k ∧ k < a + n then k ∈ y.hostWrote else k ∈ y.raced := by
  induction n generalizing y a with
  | zero => simp [Sync.engineWrites, show ¬ (a ≤ k ∧ k < a) by omega]
  | succ n ih =>
    rw [Sync.engineWrites, ih]
    by_cases hk : k = a
    · subst hk
      rw [if_neg (by omega), if_pos (by omega)]
      by_cases hw : k ∈ y.hostWrote <;> simp [Sync.engineWrite, hw, AddrSet.mem_insert, AddrSet.mem_erase]
    · by_cases hr : a + 1 ≤ k ∧ k < a + 1 + n
      · rw [if_pos hr, if_pos (by omega)]; rfl
      · rw [if_neg hr, if_neg (by omega)]
        by_cases hw : a ∈ y.hostWrote <;> simp [Sync.engineWrite, hw, AddrSet.mem_insert, AddrSet.mem_erase, hk]

/-- An engine write of a range leaves with an old value that is any value its bytes an earlier run's race was about (20 R73). -/
theorem Sync.mem_engineWrites_unsettled (y : Sync) (m : Memory) (a n k : Nat) :
    k ∈ (y.engineWrites m a n).unsettled ↔
      k ∈ y.unsettled ∨ (k ∈ y.raced ∧ k ∉ y.hostWrote ∧ a ≤ k ∧ k < a + n) := by
  induction n generalizing y a with
  | zero => simp [Sync.engineWrites, show ¬ (a ≤ k ∧ k < a) by omega]
  | succ n ih =>
    rw [Sync.engineWrites, ih]
    have hu : k ∈ (y.engineWrite a (m.read a)).unsettled ↔ k ∈ y.unsettled ∨ (k = a ∧ a ∈ y.raced ∧ a ∉ y.hostWrote) := by
      by_cases h : a ∈ y.raced ∧ a ∉ y.hostWrote
      · simp [Sync.engineWrite, h, AddrSet.mem_insert, or_comm]
      · have : (y.raced.contains a && !y.hostWrote.contains a) = false := by simpa using h
        rw [Sync.engineWrite, this]
        simp [h]
    have hr : k ≠ a → (k ∈ (y.engineWrite a (m.read a)).raced ↔ k ∈ y.raced) := fun hk => by
      by_cases hw : a ∈ y.hostWrote <;> simp [Sync.engineWrite, hw, AddrSet.mem_insert, AddrSet.mem_erase, hk]
    have hh : (y.engineWrite a (m.read a)).hostWrote = y.hostWrote := rfl
    rw [hu, hh]
    by_cases hk : k = a
    · subst hk
      constructor
      · rintro ((h | ⟨-, h1, h2⟩) | ⟨-, -, h, -⟩)
        · exact .inl h
        · exact .inr ⟨h1, h2, by omega, by omega⟩
        · omega
      · rintro (h | ⟨h1, h2, -, -⟩)
        · exact .inl (.inl h)
        · exact .inl (.inr ⟨rfl, h1, h2⟩)
    · rw [hr hk]
      constructor
      · rintro ((h | ⟨h, -⟩) | ⟨h1, h2, h3, h4⟩)
        · exact .inl h
        · exact absurd h hk
        · exact .inr ⟨h1, h2, by omega, by omega⟩
      · rintro (h | ⟨h1, h2, h3, h4⟩)
        · exact .inl (.inl h)
        · exact .inr ⟨h1, h2, by omega, by omega⟩

theorem Sync.hostWrites_idle_hostWrote (y : Sync) (a n : Nat) :
    (Sync.hostWrites false y a n).hostWrote = y.hostWrote := by
  induction n generalizing y a with
  | zero => rfl
  | succ n ih => rw [Sync.hostWrites, ih]; simp [Sync.hostWrite, Sync.settle]

/-- A byte stored while the engine is idle is not raced. -/
theorem Sync.hostWrites_idle_raced (y : Sync) (a n k : Nat) :
    k ∈ (Sync.hostWrites false y a n).raced ↔ k ∈ y.raced ∧ (k < a ∨ a + n ≤ k) := by
  induction n generalizing y a with
  | zero => simp [Sync.hostWrites]; omega
  | succ n ih =>
    rw [Sync.hostWrites, ih]
    simp only [Sync.hostWrite, Sync.settle, Bool.false_eq_true, if_false, AddrSet.mem_erase]
    constructor
    · rintro ⟨⟨h1, h2⟩, h3⟩; exact ⟨h2, by omega⟩
    · rintro ⟨h1, h2⟩; exact ⟨⟨by omega, h1⟩, by omega⟩

end Sys2Proof.Machine
end

