-- ==== Sys2Proof/Laws/Contexts.lean ====
section
/-!
SUPPORT. What the sponge and BLAKE2 functions leave of a slot's fields, and that each keeps the slot's invariant
(10_state.md rules R34, R38).
-/

namespace Sys2Proof.Machine

/-! ## Sponge: fields each function leaves alone -/

/-- What no sponge function changes: the parameters fixed by INIT_SPONGE (10 R33). -/
def SpongeCtx.params (x : SpongeCtx) : Nat × Byte × Nat × Bool × Nat := (x.rate, x.suffix, x.rounds, x.xof, x.outlen)

@[simp] theorem SpongeCtx.permute_pos (x : SpongeCtx) : x.permute.pos = 0 := rfl
@[simp] theorem SpongeCtx.permute_posOut (x : SpongeCtx) : x.permute.posOut = 0 := rfl
@[simp] theorem SpongeCtx.permute_params (x : SpongeCtx) : x.permute.params = x.params := rfl
@[simp] theorem SpongeCtx.permute_rate (x : SpongeCtx) : x.permute.rate = x.rate := rfl
@[simp] theorem SpongeCtx.permute_finished (x : SpongeCtx) : x.permute.finished = x.finished := rfl
@[simp] theorem SpongeCtx.permute_destroyed (x : SpongeCtx) : x.permute.destroyed = x.destroyed := rfl
@[simp] theorem SpongeCtx.xorAt_pos (x : SpongeCtx) (i : Nat) (b : Byte) : (x.xorAt i b).pos = x.pos := rfl
@[simp] theorem SpongeCtx.xorAt_posOut (x : SpongeCtx) (i : Nat) (b : Byte) : (x.xorAt i b).posOut = x.posOut := rfl
@[simp] theorem SpongeCtx.xorAt_params (x : SpongeCtx) (i : Nat) (b : Byte) : (x.xorAt i b).params = x.params := rfl
@[simp] theorem SpongeCtx.xorAt_rate (x : SpongeCtx) (i : Nat) (b : Byte) : (x.xorAt i b).rate = x.rate := rfl
@[simp] theorem SpongeCtx.xorAt_finished (x : SpongeCtx) (i : Nat) (b : Byte) : (x.xorAt i b).finished = x.finished := rfl
@[simp] theorem SpongeCtx.xorAt_destroyed (x : SpongeCtx) (i : Nat) (b : Byte) : (x.xorAt i b).destroyed = x.destroyed := rfl

theorem SpongeCtx.absorbByte_params (x : SpongeCtx) (b : Byte) : (x.absorbByte b).params = x.params := by
  unfold SpongeCtx.absorbByte; dsimp only; split <;> rfl

theorem SpongeCtx.absorbByte_finished (x : SpongeCtx) (b : Byte) : (x.absorbByte b).finished = x.finished := by
  unfold SpongeCtx.absorbByte; dsimp only; split <;> rfl

theorem SpongeCtx.absorbByte_destroyed (x : SpongeCtx) (b : Byte) : (x.absorbByte b).destroyed = x.destroyed := by
  unfold SpongeCtx.absorbByte; dsimp only; split <;> rfl

theorem SpongeCtx.absorb_params (data : List Byte) (x : SpongeCtx) : (x.absorb data).params = x.params := by
  induction data generalizing x with
  | nil => rfl
  | cons b data ih => exact (ih (x.absorbByte b)).trans (x.absorbByte_params b)

theorem SpongeCtx.absorb_finished (data : List Byte) (x : SpongeCtx) : (x.absorb data).finished = x.finished := by
  induction data generalizing x with
  | nil => rfl
  | cons b data ih => exact (ih (x.absorbByte b)).trans (x.absorbByte_finished b)

theorem SpongeCtx.absorb_destroyed (data : List Byte) (x : SpongeCtx) : (x.absorb data).destroyed = x.destroyed := by
  induction data generalizing x with
  | nil => rfl
  | cons b data ih => exact (ih (x.absorbByte b)).trans (x.absorbByte_destroyed b)

/-- Absorbing a concatenation is absorbing its parts (41 R165). -/
theorem SpongeCtx.absorb_append (x : SpongeCtx) (xs ys : List Byte) : x.absorb (xs ++ ys) = (x.absorb xs).absorb ys :=
  List.foldl_append ..

theorem SpongeCtx.finish_params (x : SpongeCtx) : x.finish.params = x.params := by
  unfold SpongeCtx.finish; dsimp only; split
  · rfl
  · split <;> rfl

@[simp] theorem SpongeCtx.finish_finished (x : SpongeCtx) : x.finish.finished = true := by
  unfold SpongeCtx.finish; dsimp only; split
  · assumption
  · split <;> rfl

@[simp] theorem SpongeCtx.finish_destroyed (x : SpongeCtx) : x.finish.destroyed = x.destroyed := by
  unfold SpongeCtx.finish; dsimp only; split
  · rfl
  · split <;> rfl

/-- Finalization is done once (41 R166). -/
@[simp] theorem SpongeCtx.finish_finish (x : SpongeCtx) : x.finish.finish = x.finish := by
  have h := x.finish_finished
  generalize x.finish = y at h
  simp [SpongeCtx.finish, h]

theorem SpongeCtx.refill_params (x : SpongeCtx) : x.refill.params = x.params := by
  unfold SpongeCtx.refill; split <;> rfl

theorem SpongeCtx.refill_finished (x : SpongeCtx) : x.refill.finished = x.finished := by
  unfold SpongeCtx.refill; split <;> rfl

theorem SpongeCtx.refill_destroyed (x : SpongeCtx) : x.refill.destroyed = x.destroyed := by
  unfold SpongeCtx.refill; split <;> rfl

@[simp] theorem SpongeCtx.squeezeLoop_length (n : Nat) (x : SpongeCtx) : (SpongeCtx.squeezeLoop n x).1.length = n := by
  induction n generalizing x with
  | zero => rfl
  | succ n ih => simp [SpongeCtx.squeezeLoop, ih]

/-- A squeeze gives exactly the bytes asked for (41 R169). -/
@[simp] theorem SpongeCtx.squeeze_length (x : SpongeCtx) (n : Nat) : (x.squeeze n).1.length = n :=
  SpongeCtx.squeezeLoop_length n x.finish

theorem SpongeCtx.squeezeLoop_fixed (n : Nat) (x : SpongeCtx) :
    (SpongeCtx.squeezeLoop n x).2.params = x.params ∧ (SpongeCtx.squeezeLoop n x).2.finished = x.finished ∧
    (SpongeCtx.squeezeLoop n x).2.destroyed = x.destroyed := by
  induction n generalizing x with
  | zero => exact ⟨rfl, rfl, rfl⟩
  | succ n ih =>
    obtain ⟨h1, h2, h3⟩ := ih { x.refill with posOut := x.refill.posOut + 1 }
    exact ⟨h1.trans x.refill_params, h2.trans x.refill_finished, h3.trans x.refill_destroyed⟩

theorem SpongeCtx.squeeze_params (x : SpongeCtx) (n : Nat) : (x.squeeze n).2.params = x.params :=
  (SpongeCtx.squeezeLoop_fixed n x.finish).1.trans x.finish_params

theorem SpongeCtx.squeeze_finished (x : SpongeCtx) (n : Nat) : (x.squeeze n).2.finished = true :=
  (SpongeCtx.squeezeLoop_fixed n x.finish).2.1.trans x.finish_finished

theorem SpongeCtx.squeeze_destroyed (x : SpongeCtx) (n : Nat) : (x.squeeze n).2.destroyed = x.destroyed :=
  (SpongeCtx.squeezeLoop_fixed n x.finish).2.2.trans x.finish_destroyed

/-- A squeeze of m + n bytes is a squeeze of m and then of n from where it stopped (41 R170). -/
theorem SpongeCtx.squeezeLoop_add (m n : Nat) (x : SpongeCtx) :
    SpongeCtx.squeezeLoop (m + n) x =
      ((SpongeCtx.squeezeLoop m x).1 ++ (SpongeCtx.squeezeLoop n (SpongeCtx.squeezeLoop m x).2).1,
       (SpongeCtx.squeezeLoop n (SpongeCtx.squeezeLoop m x).2).2) := by
  induction m generalizing x with
  | zero => simp [SpongeCtx.squeezeLoop]
  | succ m ih => simp [Nat.succ_add, SpongeCtx.squeezeLoop, ih]

/-! ## Sponge: the invariant -/

theorem SpongeCtx.fresh_inv {rate : Nat} {suffix : Byte} {rounds : Nat} {xof : Bool} {outlen : Nat}
    (hr : 1 ≤ rate ∧ rate ≤ 199) (hn : 1 ≤ rounds ∧ rounds ≤ 24) (ho : 1 ≤ outlen ∧ outlen < 2 ^ 32) :
    (SpongeCtx.fresh rate suffix rounds xof outlen).Inv where
  rate := hr
  rounds := hn
  outlen := ho
  pos := hr.1
  posOut := by simp [SpongeCtx.fresh]
  absorbing := fun _ => rfl
  wiped := fun h => by simp [SpongeCtx.fresh] at h

theorem SpongeCtx.absorbByte_inv {x : SpongeCtx} (h : x.Inv) (hf : x.finished = false) (hd : x.destroyed = false) (b : Byte) :
    (x.absorbByte b).Inv := by
  have hr := h.rate
  have hp := h.pos
  unfold SpongeCtx.absorbByte
  dsimp only
  split
  · exact ⟨h.rate, h.rounds, h.outlen, Nat.lt_of_lt_of_le Nat.zero_lt_one hr.1, Nat.zero_le _, fun _ => rfl,
      fun h' => absurd (hd.symm.trans h') (by simp)⟩
  · next hne =>
    have hne' : x.pos + 1 ≠ x.rate := hne
    exact ⟨h.rate, h.rounds, h.outlen, show x.pos + 1 < x.rate by omega, h.posOut, fun _ => h.absorbing hf,
      fun h' => absurd (hd.symm.trans h') (by simp)⟩

theorem SpongeCtx.absorb_inv (data : List Byte) {x : SpongeCtx} (h : x.Inv) (hf : x.finished = false)
    (hd : x.destroyed = false) : (x.absorb data).Inv := by
  induction data generalizing x with
  | nil => exact h
  | cons b data ih =>
    exact ih (SpongeCtx.absorbByte_inv h hf hd b) ((x.absorbByte_finished b).trans hf) ((x.absorbByte_destroyed b).trans hd)

theorem SpongeCtx.finish_inv {x : SpongeCtx} (h : x.Inv) (hd : x.destroyed = false) : x.finish.Inv := by
  have hr := h.rate
  unfold SpongeCtx.finish
  dsimp only
  split
  · exact h
  · split <;>
    exact ⟨h.rate, h.rounds, h.outlen, Nat.lt_of_lt_of_le Nat.zero_lt_one hr.1, Nat.zero_le _, fun _ => rfl,
      fun h' => absurd (hd.symm.trans h') (by simp)⟩

theorem SpongeCtx.squeezeLoop_inv (n : Nat) {x : SpongeCtx} (h : x.Inv) (hf : x.finished = true) (hd : x.destroyed = false) :
    (SpongeCtx.squeezeLoop n x).2.Inv := by
  induction n generalizing x with
  | zero => exact h
  | succ n ih =>
    have hr := h.rate
    refine ih ?_ (x.refill_finished.trans hf) (x.refill_destroyed.trans hd)
    have hp : x.refill.posOut + 1 ≤ x.rate := by
      unfold SpongeCtx.refill
      split
      · exact hr.1
      · omega
    have hs : x.refill.rate = x.rate ∧ x.refill.rounds = x.rounds ∧ x.refill.outlen = x.outlen ∧ x.refill.pos < x.rate := by
      have := h.pos
      unfold SpongeCtx.refill
      split
      · exact ⟨rfl, rfl, rfl, Nat.lt_of_lt_of_le Nat.zero_lt_one hr.1⟩
      · exact ⟨rfl, rfl, rfl, this⟩
    refine ⟨?_, ?_, ?_, ?_, ?_, fun h' => ?_, fun h' => ?_⟩
    · simpa [hs.1] using h.rate
    · simpa [hs.2.1] using h.rounds
    · simpa [hs.2.2.1] using h.outlen
    · simpa [hs.1] using hs.2.2.2
    · simpa [hs.1] using hp
    · exact absurd ((x.refill_finished.trans hf).symm.trans h') (by simp)
    · exact absurd ((x.refill_destroyed.trans hd).symm.trans h') (by simp)

theorem SpongeCtx.squeeze_inv {x : SpongeCtx} (n : Nat) (h : x.Inv) (hd : x.destroyed = false) : (x.squeeze n).2.Inv :=
  SpongeCtx.squeezeLoop_inv n (SpongeCtx.finish_inv h hd) x.finish_finished (x.finish_destroyed.trans hd)

theorem SpongeCtx.destroy_inv {x : SpongeCtx} (h : x.Inv) : x.destroy.Inv :=
  ⟨h.rate, h.rounds, h.outlen, h.pos, h.posOut, h.absorbing, fun _ => rfl⟩

end Sys2Proof.Machine

namespace Sys2Proof

theorem Variant.bb_pos (v : Variant) : 0 < v.bb := by cases v <;> decide

end Sys2Proof

namespace Sys2Proof.Machine

/-! ## BLAKE2: fields each function leaves alone -/

section Blake2

variable {v : Variant}

/-- One byte of B2Update (43 R220). -/
def Blake2Ctx.updateByte (x : Blake2Ctx v) (b : Byte) : Blake2Ctx v := x.flushFull.putByte b

theorem Blake2Ctx.update_cons (x : Blake2Ctx v) (b : Byte) (data : List Byte) :
    x.update (b :: data) = (x.updateByte b).update data := rfl

/-- B2Update of a concatenation is B2Update of its parts (43 R227). -/
theorem Blake2Ctx.update_append (x : Blake2Ctx v) (xs ys : List Byte) : x.update (xs ++ ys) = (x.update xs).update ys :=
  List.foldl_append ..

theorem Blake2Ctx.updateByte_fixed (x : Blake2Ctx v) (b : Byte) :
    (x.updateByte b).outlen = x.outlen ∧ (x.updateByte b).finished = x.finished ∧
    (x.updateByte b).destroyed = x.destroyed ∧ (x.updateByte b).length = x.length + 1 := by
  unfold Blake2Ctx.updateByte Blake2Ctx.flushFull
  split <;> exact ⟨rfl, rfl, rfl, rfl⟩

theorem Blake2Ctx.update_fixed (data : List Byte) (x : Blake2Ctx v) :
    (x.update data).outlen = x.outlen ∧ (x.update data).finished = x.finished ∧
    (x.update data).destroyed = x.destroyed ∧ (x.update data).length = x.length + data.length := by
  induction data generalizing x with
  | nil => exact ⟨rfl, rfl, rfl, rfl⟩
  | cons b data ih =>
    obtain ⟨h1, h2, h3, h4⟩ := x.updateByte_fixed b
    obtain ⟨g1, g2, g3, g4⟩ := ih (x.updateByte b)
    rw [Blake2Ctx.update_cons]
    exact ⟨g1.trans h1, g2.trans h2, g3.trans h3, by rw [g4, h4, List.length_cons]; omega⟩

/-! ## BLAKE2: the invariant -/

theorem Blake2Ctx.updateByte_inv {x : Blake2Ctx v} (h : x.Inv) (hd : x.destroyed = false)
    (hl : x.length + 1 ≤ 2 ^ (2 * v.w) - 1) (b : Byte) : (x.updateByte b).Inv := by
  have hb := v.bb_pos
  obtain ⟨f1, -, f3, f4⟩ := x.updateByte_fixed b
  have hbuf := h.buffered
  have hemp := h.empty
  have hpos : (x.updateByte b).pos = (if x.pos = v.bb then 0 else x.pos) + 1 := by
    unfold Blake2Ctx.updateByte Blake2Ctx.flushFull
    split <;> rfl
  have hlen : (x.updateByte b).length % v.bb = (x.updateByte b).pos % v.bb := by
    rw [f4, hpos]
    rcases Nat.eq_zero_or_pos x.length with h0 | h0
    · have hp0 : x.pos = 0 := hemp.2 h0
      simp [h0, hp0, Ne.symm (Nat.ne_of_gt hb)]
    · obtain ⟨-, -, hm⟩ := hbuf h0
      split
      · next he =>
        rw [he, Nat.mod_self] at hm
        rw [Nat.add_mod, hm]; simp
      · rw [Nat.add_mod, hm, ← Nat.add_mod]
  refine ⟨by rw [f1]; exact h.outlen, by rw [f4]; exact hl, ?_, fun _ => ⟨?_, ?_, hlen⟩, fun h' => ?_⟩
  · rw [hpos, f4]; simp
  · rw [hpos]; omega
  · rw [hpos]
    rcases Nat.eq_zero_or_pos x.length with h0 | h0
    · have hp0 : x.pos = 0 := hemp.2 h0
      split <;> omega
    · have := hbuf h0
      split <;> omega
  · exact absurd ((f3.trans hd).symm.trans h') (by simp)

theorem Blake2Ctx.update_inv (data : List Byte) {x : Blake2Ctx v} (h : x.Inv) (hd : x.destroyed = false)
    (hl : x.length + data.length ≤ 2 ^ (2 * v.w) - 1) : (x.update data).Inv := by
  induction data generalizing x with
  | nil => exact h
  | cons b data ih =>
    obtain ⟨-, -, f3, f4⟩ := x.updateByte_fixed b
    simp only [List.length_cons] at hl
    rw [Blake2Ctx.update_cons]
    exact ih (Blake2Ctx.updateByte_inv h hd (by omega) b) (f3.trans hd) (by rw [f4]; omega)

theorem Blake2Ctx.finish_inv {x : Blake2Ctx v} (h : x.Inv) (hd : x.destroyed = false) : x.finish.Inv :=
  ⟨h.outlen, h.length, h.empty, h.buffered, fun h' => absurd (hd.symm.trans h') (by simp)⟩

theorem Blake2Ctx.destroy_inv {x : Blake2Ctx v} (h : x.Inv) : x.destroy.Inv :=
  ⟨h.outlen, h.length, h.empty, h.buffered, fun _ => ⟨rfl, rfl⟩⟩

theorem Blake2Ctx.fresh_inv {outlen : Nat} (ho : 1 ≤ outlen ∧ outlen ≤ blake2KK v) (kl : Nat) (salt pers : Option (List Byte)) :
    (Blake2Ctx.fresh v outlen kl salt pers).Inv where
  outlen := ho
  length := Nat.zero_le _
  empty := by simp [Blake2Ctx.fresh]
  buffered := fun h => absurd h (by simp [Blake2Ctx.fresh])
  wiped := fun h => by simp [Blake2Ctx.fresh] at h

theorem blake2KeyBlock_length {key : List Byte} (h : key.length ≤ blake2KK v) : (blake2KeyBlock v key).length = v.bb := by
  have : blake2KK v ≤ v.bb := by cases v <;> decide
  simp [blake2KeyBlock]; omega

theorem Blake2Ctx.create_inv {outlen : Nat} (ho : 1 ≤ outlen ∧ outlen ≤ blake2KK v) {key : Option (List Byte)}
    (hk : ∀ k, key = some k → k.length ≤ blake2KK v) (salt pers : Option (List Byte)) :
    (Blake2Ctx.create v outlen key salt pers).Inv := by
  unfold Blake2Ctx.create
  split
  · exact Blake2Ctx.fresh_inv ho _ _ _
  · next k =>
    split
    · refine Blake2Ctx.update_inv _ (Blake2Ctx.fresh_inv ho _ _ _) rfl ?_
      rw [blake2KeyBlock_length (hk k rfl)]
      show 0 + v.bb ≤ 2 ^ (2 * v.w) - 1
      cases v <;> decide
    · exact Blake2Ctx.fresh_inv ho _ _ _

end Blake2

/-! ## A slot of either kind -/

/-- A fresh output of DIGEST is never longer than OUTLEN (44 R243). -/
theorem Ctx.digest_length_le (x : Ctx) : x.digest.1.length ≤ x.outlen := by
  cases x with
  | sponge y => simp [Ctx.digest, Ctx.outlen]
  | blake2 v y => simp [Ctx.digest, Ctx.outlen]

/-- DIGEST_INTO never writes past its buffer (44 R244). -/
theorem Ctx.digestInto_length_le {x : Ctx} {n : Nat} (h : x.outlen ≤ n) : (x.digestInto n).1.length ≤ n := by
  cases x with
  | sponge y => simpa [Ctx.digestInto, Ctx.outlen] using h
  | blake2 v y => simp [Ctx.digestInto]

theorem Ctx.squeeze_length_le (x : Ctx) (n : Nat) : (x.squeeze n).1.length ≤ n := by
  cases x with
  | sponge y => simp [Ctx.squeeze]
  | blake2 v y => simp [Ctx.squeeze]

theorem Ctx.absorb_inv {x : Ctx} (data : List Byte) (h : x.Inv) (hd : x.destroyed = false) (hf : x.finished = false)
    (hl : x.counterFits data.length = true) : (x.absorb data).Inv := by
  cases x with
  | sponge y => exact SpongeCtx.absorb_inv data h hf hd
  | blake2 v y => exact Blake2Ctx.update_inv data h hd (by simpa [Ctx.counterFits] using hl)

theorem Ctx.destroy_inv {x : Ctx} (h : x.Inv) : x.destroy.Inv := by
  cases x with
  | sponge y => exact SpongeCtx.destroy_inv h
  | blake2 v y => exact Blake2Ctx.destroy_inv h

theorem Ctx.digest_inv {x : Ctx} (h : x.Inv) (hd : x.destroyed = false) : x.digest.2.Inv := by
  cases x with
  | sponge y => exact SpongeCtx.destroy_inv (SpongeCtx.squeeze_inv _ h hd)
  | blake2 v y => exact Blake2Ctx.destroy_inv (Blake2Ctx.finish_inv h hd)

theorem Ctx.digestInto_inv {x : Ctx} (n : Nat) (h : x.Inv) (hd : x.destroyed = false) : (x.digestInto n).2.Inv := by
  cases x with
  | sponge y => exact SpongeCtx.destroy_inv (SpongeCtx.squeeze_inv _ h hd)
  | blake2 v y => exact Blake2Ctx.finish_inv h hd

theorem Ctx.squeeze_inv {x : Ctx} (n : Nat) (h : x.Inv) (hd : x.destroyed = false) : (x.squeeze n).2.Inv := by
  cases x with
  | sponge y => exact SpongeCtx.squeeze_inv n h hd
  | blake2 v y => exact h

end Sys2Proof.Machine
end

