-- ==== Sys2Proof/Laws/Encoding.lean ====
section
/-!
SUPPORT. The fields of an encoded descriptor read back (30_encoding.md rules R91, R93), and the opcode's mask leaves nothing
of an encoded head word (R94, R95).
-/

namespace Sys2Proof

theorem append_toNat {m n : Nat} (x : BitVec m) (y : BitVec n) : (x ++ y).toNat = x.toNat * 2 ^ n + y.toNat := by
  rw [BitVec.toNat_append, ← Nat.shiftLeft_add_eq_or_of_lt y.isLt, Nat.shiftLeft_eq]

theorem headWord_toNat (op : Opcode) (c c2 f : Byte) :
    (headWord op c c2 f).toNat = op.toByte.toNat + 256 * c.toNat + 65536 * c2.toNat + 16777216 * f.toNat := by
  simp only [headWord, append_toNat]
  omega

theorem spongeImm_toNat (rate suffix rounds : Byte) (xof : Bool) :
    (spongeImm rate suffix rounds xof).toNat =
      rate.toNat + 256 * suffix.toNat + 65536 * rounds.toNat + 16777216 * xof.toNat := by
  have h0 : (0 : BitVec 7).toNat = 0 := rfl
  simp only [spongeImm, append_toNat, BitVec.toNat_ofBool, h0]
  omega

theorem optFlags_toNat (key salt pers : OptRange) :
    (optFlags key salt pers).toNat = key.present.toNat + 2 * salt.present.toNat + 4 * pers.present.toNat := by
  have h0 : (0 : BitVec 5).toNat = 0 := rfl
  simp only [optFlags, append_toNat, BitVec.toNat_ofBool, h0]
  omega

/-- A byte field of a word is the quotient and remainder of its number. -/
theorem extractByte_eq {w : Word} {b : Byte} (k : Nat) (h : w.toNat / 2 ^ k % 256 = b.toNat) : w.extractLsb' k 8 = b := by
  apply BitVec.eq_of_toNat_eq
  simpa [BitVec.extractLsb'_toNat, Nat.shiftRight_eq_div_pow] using h

/-- A bit of a word is the quotient and remainder of its number. -/
theorem getBit_eq {w : Word} {b : Bool} (k : Nat) (h : w.toNat / 2 ^ k % 2 = b.toNat) : w.getLsbD k = b := by
  rw [BitVec.getLsbD, Nat.testBit_eq_decide_div_mod_eq, h]
  cases b <;> rfl

/-! ## The head word's fields -/

section head

variable {op : Opcode} {c c2 f : Byte} {d : Desc}

theorem Desc.opc_of_head (h : d[0] = headWord op c c2 f) : d.opc = op.toByte := by
  have := op.toByte.isLt
  refine extractByte_eq 0 ?_
  rw [h, headWord_toNat]
  omega

theorem Desc.ctx_of_head (h : d[0] = headWord op c c2 f) : d.ctx = c := by
  have := op.toByte.isLt
  have := c.isLt
  refine extractByte_eq 8 ?_
  rw [h, headWord_toNat]
  omega

theorem Desc.ctx2_of_head (h : d[0] = headWord op c c2 f) : d.ctx2 = c2 := by
  have := op.toByte.isLt
  have := c.isLt
  have := c2.isLt
  refine extractByte_eq 16 ?_
  rw [h, headWord_toNat]
  omega

theorem Desc.flag_of_head (h : d[0] = headWord op c c2 f) (i : Nat) (hi : i < 8) : d.flag i = f.getLsbD i := by
  have hf : d[0].getLsbD (24 + i) = f.getLsbD i := by
    rw [h, headWord]
    simp only [BitVec.getLsbD_append]
    interval_cases i <;> simp
  exact hf

end head

theorem optFlags_bits (key salt pers : OptRange) :
    (optFlags key salt pers).getLsbD 0 = key.present ∧ (optFlags key salt pers).getLsbD 1 = salt.present ∧
    (optFlags key salt pers).getLsbD 2 = pers.present := by
  cases hk : key.present <;> cases hs : salt.present <;> cases hp : pers.present <;>
    simp only [optFlags, hk, hs, hp] <;> decide

/-! ## Opcodes -/

theorem Opcode.ofByte_toByte (op : Opcode) : Opcode.ofByte? op.toByte = some op := by cases op <;> decide

theorem Opcode.toByte_of_ofByte {b : Byte} {op : Opcode} (h : Opcode.ofByte? b = some op) : op.toByte = b := by
  simpa using List.find?_some h

/-! ## The masks of rule R94 leave nothing of an encoded head word -/

theorem head_clear_none (op : Opcode) : headWord op 0#8 0#8 0#8 &&& 4294967295#32 &&& 4294967040#32 = 0#32 := by
  cases op <;> decide

theorem head_clear_ctx (op : Opcode) (c : Byte) : headWord op c 0#8 0#8 &&& 4294902015#32 &&& 4294967040#32 = 0#32 := by
  apply BitVec.eq_of_getElem_eq
  intro i hi
  simp only [headWord, BitVec.getElem_and, BitVec.getElem_append]
  interval_cases i <;> simp

theorem head_clear_ctx2 (op : Opcode) (c c2 : Byte) :
    headWord op c c2 0#8 &&& 4278190335#32 &&& 4294967040#32 = 0#32 := by
  apply BitVec.eq_of_getElem_eq
  intro i hi
  simp only [headWord, BitVec.getElem_and, BitVec.getElem_append]
  interval_cases i <;> simp

theorem head_clear_flags (op : Opcode) (c : Byte) (key salt pers : OptRange) :
    headWord op c 0#8 (optFlags key salt pers) &&& 4177461503#32 &&& 4294967040#32 = 0#32 := by
  apply BitVec.eq_of_getElem_eq
  intro i hi
  simp only [headWord, optFlags, BitVec.getElem_and, BitVec.getElem_append]
  interval_cases i <;> simp

/-- The options of an encoded INIT_BLAKE2S/INIT_BLAKE2B descriptor are the command's. -/
theorem Desc.options_of_encode (op : Opcode) (c : Byte) (o : Word) (key salt pers : OptRange) (d : Desc)
    (h : d = #v[headWord op c 0#8 (optFlags key salt pers), o, key.addr, key.len, salt.addr, salt.len, pers.addr, pers.len]) :
    d.option 0 = key ∧ d.option 1 = salt ∧ d.option 2 = pers := by
  have h0 : d[0] = headWord op c 0#8 (optFlags key salt pers) := by rw [h]; rfl
  obtain ⟨b0, b1, b2⟩ := optFlags_bits key salt pers
  have f0 := (Desc.flag_of_head h0 0 (by omega)).trans b0
  have f1 := (Desc.flag_of_head h0 1 (by omega)).trans b1
  have f2 := (Desc.flag_of_head h0 2 (by omega)).trans b2
  subst h
  refine ⟨?_, ?_, ?_⟩
  · simp only [Desc.option]; exact congrArg (OptRange.mk · _ _) f0
  · simp only [Desc.option]; exact congrArg (OptRange.mk · _ _) f1
  · simp only [Desc.option]; exact congrArg (OptRange.mk · _ _) f2

end Sys2Proof
end

