-- ==== Sys2Proof/Laws/Exec.lean ====
section
/-!
SUPPORT. Everything a command can do, said once: if it answers a next state, it has either raised an error, or completed with
the effect `Completed` names.
-/

namespace Sys2Proof.Machine

/-- The effect of a command that completes without an error, and the checks it has then passed that later proofs use. -/
def Completed : Instr → State → State → Prop
  | .halt, s, t => t = { s.advance with busy := false }
  | .nop, s, t => t = s.advance
  | .initSponge c rate suffix rounds xof outlen, s, t =>
    c.toNat < s.nctx ∧ (1 ≤ rate.toNat ∧ rate.toNat ≤ 199) ∧ (1 ≤ rounds.toNat ∧ rounds.toNat ≤ 24) ∧ 1 ≤ outlen.toNat ∧
    t = (s.setSlot c (.sponge (SpongeCtx.fresh rate.toNat suffix rounds.toNat xof outlen.toNat))).advance
  | .initBlake2s c outlen key salt pers, s, t =>
    c.toNat < s.nctx ∧ (1 ≤ outlen.toNat ∧ outlen.toNat ≤ blake2KK .s) ∧ optLenOK key 1 (blake2KK .s) = true ∧
    t = ((((s.optRead key).optRead salt).optRead pers).setSlot c (.blake2 .s
      (Blake2Ctx.create .s outlen.toNat (optBytes s 1 key) (optBytes s 2 salt) (optBytes s 3 pers)))).advance
  | .initBlake2b c outlen key salt pers, s, t =>
    c.toNat < s.nctx ∧ (1 ≤ outlen.toNat ∧ outlen.toNat ≤ blake2KK .b) ∧ optLenOK key 1 (blake2KK .b) = true ∧
    t = ((((s.optRead key).optRead salt).optRead pers).setSlot c (.blake2 .b
      (Blake2Ctx.create .b outlen.toNat (optBytes s 1 key) (optBytes s 2 salt) (optBytes s 3 pers)))).advance
  | .update c addr len, s, t =>
    ∃ x, s.ctx[c.toNat]? = some (some x) ∧ x.destroyed = false ∧ x.finished = false ∧ x.counterFits len.toNat = true ∧
      t = ((s.engineRead addr.toNat len.toNat).setSlot c (x.absorb (s.engineBytes 1 addr.toNat len.toNat))).advance
  | .digest c addr, s, t =>
    ∃ x, s.ctx[c.toNat]? = some (some x) ∧ x.destroyed = false ∧ x.finished = false ∧ s.rangeOK addr x.outlen = true ∧
      t = ((s.engineStore addr.toNat x.digest.1).setSlot c x.digest.2).advance
  | .digestInto c addr len, s, t =>
    ∃ x, s.ctx[c.toNat]? = some (some x) ∧ x.destroyed = false ∧ x.finished = false ∧ x.outlen ≤ len.toNat ∧
      s.rangeOK addr len.toNat = true ∧
      t = ((s.engineStore addr.toNat (x.digestInto len.toNat).1).setSlot c (x.digestInto len.toNat).2).advance
  | .xof c addr len, s, t =>
    ∃ x, s.ctx[c.toNat]? = some (some x) ∧ x.destroyed = false ∧ x.isXof = true ∧ s.rangeOK addr len.toNat = true ∧
      t = ((s.engineStore addr.toNat (x.squeeze len.toNat).1).setSlot c (x.squeeze len.toNat).2).advance
  | .clone src dst, s, t =>
    ∃ x, s.ctx[src.toNat]? = some (some x) ∧ x.destroyed = false ∧ dst.toNat < s.nctx ∧ src ≠ dst ∧
      t = (s.setSlot dst x).advance
  | .destroy c, s, t => ∃ x, s.ctx[c.toNat]? = some (some x) ∧ t = (s.setSlot c x.destroy).advance
  | .keccakP rounds src dst, s, t =>
    (1 ≤ rounds.toNat ∧ rounds.toNat ≤ 24) ∧ s.rangeOK dst 200 = true ∧
    t = ((s.engineRead src.toNat 200).engineStore dst.toNat
      (keccakP (stateOfBytes (s.engineBytes 1 src.toNat 200)) rounds.toNat).toList).advance

theorem initBlake2_cases {v : Variant} {c : Byte} {outlen : Word} {key salt pers : OptRange} {s t : State}
    (h : initBlake2 v c outlen key salt pers s = .next t) :
    (c.toNat < s.nctx ∧ (1 ≤ outlen.toNat ∧ outlen.toNat ≤ blake2KK v) ∧ optLenOK key 1 (blake2KK v) = true ∧
      t = ((((s.optRead key).optRead salt).optRead pers).setSlot c (.blake2 v
        (Blake2Ctx.create v outlen.toNat (optBytes s 1 key) (optBytes s 2 salt) (optBytes s 3 pers)))).advance) ∨
    ∃ e, t = s.raise e := by
  unfold initBlake2 at h
  rcases State.check_eq_next.1 h with ⟨hc, h⟩ | ⟨-, h⟩
  swap
  · exact .inr ⟨_, h⟩
  rcases State.check_eq_next.1 h with ⟨ho, h⟩ | ⟨-, h⟩
  swap
  · exact .inr ⟨_, h⟩
  rcases State.check_eq_next.1 h with ⟨hk, h⟩ | ⟨-, h⟩
  swap
  · exact .inr ⟨_, h⟩
  rcases State.check_eq_next.1 h with ⟨-, h⟩ | ⟨-, h⟩
  swap
  · exact .inr ⟨_, h⟩
  rcases State.check_eq_next.1 h with ⟨-, h⟩ | ⟨-, h⟩
  swap
  · exact .inr ⟨_, h⟩
  rcases State.check_eq_next.1 h with ⟨-, h⟩ | ⟨-, h⟩
  swap
  · exact .inr ⟨_, h⟩
  rcases State.check_eq_next.1 h with ⟨-, h⟩ | ⟨-, h⟩
  swap
  · exact .inr ⟨_, h⟩
  rcases State.check_eq_next.1 h with ⟨-, h⟩ | ⟨-, h⟩
  swap
  · exact .inr ⟨_, h⟩
  have h := State.readOption_eq_next (State.readOption_eq_next (State.readOption_eq_next h))
  exact .inl ⟨by simpa [State.indexOK] using hc, by simpa using ho, hk, by simpa [eq_comm] using h⟩

theorem execInitSponge_cases {c rate suffix rounds : Byte} {xof : Bool} {outlen : Word} {s t : State}
    (h : execInitSponge c rate suffix rounds xof outlen s = .next t) :
    Completed (.initSponge c rate suffix rounds xof outlen) s t ∨ ∃ e, t = s.raise e := by
  unfold execInitSponge at h
  rcases State.check_eq_next.1 h with ⟨hc, h⟩ | ⟨-, h⟩
  swap
  · exact .inr ⟨_, h⟩
  rcases State.check_eq_next.1 h with ⟨hr, h⟩ | ⟨-, h⟩
  swap
  · exact .inr ⟨_, h⟩
  rcases State.check_eq_next.1 h with ⟨hn, h⟩ | ⟨-, h⟩
  swap
  · exact .inr ⟨_, h⟩
  rcases State.check_eq_next.1 h with ⟨ho, h⟩ | ⟨-, h⟩
  swap
  · exact .inr ⟨_, h⟩
  exact .inl ⟨by simpa [State.indexOK] using hc, by simpa using hr, by simpa using hn, by simpa using ho,
    by simpa [eq_comm] using h⟩

theorem execUpdate_cases {c : Byte} {addr len : Word} {s t : State} (h : execUpdate c addr len s = .next t) :
    Completed (.update c addr len) s t ∨ ∃ e, t = s.raise e := by
  rcases State.live_eq_next h with ⟨x, hx, hd, h⟩ | h
  swap
  · exact .inr h
  rcases State.check_eq_next.1 h with ⟨hf, h⟩ | ⟨-, h⟩
  swap
  · exact .inr ⟨_, h⟩
  rcases State.check_eq_next.1 h with ⟨-, h⟩ | ⟨-, h⟩
  swap
  · exact .inr ⟨_, h⟩
  rcases State.check_eq_next.1 h with ⟨hl, h⟩ | ⟨-, h⟩
  swap
  · exact .inr ⟨_, h⟩
  exact .inl ⟨x, hx, hd, by simpa using hf, hl, by simpa [eq_comm] using (State.memRead_eq_next h).2⟩

theorem execDigest_cases {c : Byte} {addr : Word} {s t : State} (h : execDigest c addr s = .next t) :
    Completed (.digest c addr) s t ∨ ∃ e, t = s.raise e := by
  rcases State.live_eq_next h with ⟨x, hx, hd, h⟩ | h
  swap
  · exact .inr h
  rcases State.check_eq_next.1 h with ⟨hf, h⟩ | ⟨-, h⟩
  swap
  · exact .inr ⟨_, h⟩
  rcases State.check_eq_next.1 h with ⟨hr, h⟩ | ⟨-, h⟩
  swap
  · exact .inr ⟨_, h⟩
  exact .inl ⟨x, hx, hd, by simpa using hf, hr, by simpa [eq_comm] using (State.memWrite_eq_next h).2⟩

theorem execDigestInto_cases {c : Byte} {addr len : Word} {s t : State} (h : execDigestInto c addr len s = .next t) :
    Completed (.digestInto c addr len) s t ∨ ∃ e, t = s.raise e := by
  rcases State.live_eq_next h with ⟨x, hx, hd, h⟩ | h
  swap
  · exact .inr h
  rcases State.check_eq_next.1 h with ⟨hf, h⟩ | ⟨-, h⟩
  swap
  · exact .inr ⟨_, h⟩
  rcases State.check_eq_next.1 h with ⟨hl, h⟩ | ⟨-, h⟩
  swap
  · exact .inr ⟨_, h⟩
  rcases State.check_eq_next.1 h with ⟨hr, h⟩ | ⟨-, h⟩
  swap
  · exact .inr ⟨_, h⟩
  exact .inl ⟨x, hx, hd, by simpa using hf, by simpa using hl, hr, by simpa [eq_comm] using (State.memWrite_eq_next h).2⟩

theorem execXof_cases {c : Byte} {addr len : Word} {s t : State} (h : execXof c addr len s = .next t) :
    Completed (.xof c addr len) s t ∨ ∃ e, t = s.raise e := by
  rcases State.live_eq_next h with ⟨x, hx, hd, h⟩ | h
  swap
  · exact .inr h
  rcases State.check_eq_next.1 h with ⟨hf, h⟩ | ⟨-, h⟩
  swap
  · exact .inr ⟨_, h⟩
  rcases State.check_eq_next.1 h with ⟨hr, h⟩ | ⟨-, h⟩
  swap
  · exact .inr ⟨_, h⟩
  exact .inl ⟨x, hx, hd, hf, hr, by simpa [eq_comm] using (State.memWrite_eq_next h).2⟩

theorem execClone_cases {src dst : Byte} {s t : State} (h : execClone src dst s = .next t) :
    Completed (.clone src dst) s t ∨ ∃ e, t = s.raise e := by
  rcases State.check_eq_next.1 h with ⟨hi, h⟩ | ⟨-, h⟩
  swap
  · exact .inr ⟨_, h⟩
  rcases State.check_eq_next.1 h with ⟨hn, h⟩ | ⟨-, h⟩
  swap
  · exact .inr ⟨_, h⟩
  rcases State.live_eq_next h with ⟨x, hx, hd, h⟩ | h
  swap
  · exact .inr h
  simp only [State.indexOK, Bool.and_eq_true, decide_eq_true_eq] at hi
  exact .inl ⟨x, hx, hd, hi.2, by simpa using hn, by simpa [eq_comm] using h⟩

theorem execDestroy_cases {c : Byte} {s t : State} (h : execDestroy c s = .next t) :
    Completed (.destroy c) s t ∨ ∃ e, t = s.raise e := by
  rcases State.occupied_eq_next h with ⟨x, hx, h⟩ | h
  · exact .inl ⟨x, hx, by simpa [eq_comm] using h⟩
  · exact .inr h

theorem execKeccakP_cases {rounds src dst : Word} {s t : State} (h : execKeccakP rounds src dst s = .next t) :
    Completed (.keccakP rounds src dst) s t ∨ ∃ e, t = s.raise e := by
  rcases State.check_eq_next.1 h with ⟨hr, h⟩ | ⟨-, h⟩
  swap
  · exact .inr ⟨_, h⟩
  rcases State.check_eq_next.1 h with ⟨-, h⟩ | ⟨-, h⟩
  swap
  · exact .inr ⟨_, h⟩
  rcases State.check_eq_next.1 h with ⟨hd, h⟩ | ⟨-, h⟩
  swap
  · exact .inr ⟨_, h⟩
  have h := (State.memWrite_eq_next (State.memRead_eq_next h).2).2
  exact .inl ⟨by simpa using hr, hd, by simpa [eq_comm] using h⟩

/-- Everything a command can do: complete with its effect, or raise an error. -/
theorem exec_cases {i : Instr} {s t : State} (h : exec i s = .next t) : Completed i s t ∨ ∃ e, t = s.raise e := by
  cases i with
  | halt => cases h; exact .inl rfl
  | nop => cases h; exact .inl rfl
  | initSponge => exact execInitSponge_cases h
  | initBlake2s => exact initBlake2_cases h
  | initBlake2b => exact initBlake2_cases h
  | update => exact execUpdate_cases h
  | digest => exact execDigest_cases h
  | digestInto => exact execDigestInto_cases h
  | xof => exact execXof_cases h
  | clone => exact execClone_cases h
  | destroy => exact execDestroy_cases h
  | keccakP => exact execKeccakP_cases h

end Sys2Proof.Machine
end

