-- ==== Sys2Proof/Laws/Invariant.lean ====
section
/-!
SUPPORT. Each shared operation keeps the invariant of the machine (Safety.lean), and how many bytes the output functions give.
-/

namespace Sys2Proof.Machine

/-! ## Lengths of the outputs -/

/-- The serialized state words are HB bytes (42 R199). -/
@[simp] theorem blake2Serialize_length (v : Variant) (h : Vector (BitVec v.w) 8) : (blake2Serialize v h).length = blake2HB v := by
  have step : ∀ l : List (BitVec v.w), (l.flatMap leBytes).length = l.length * (v.w / 8) := by
    intro l
    induction l with
    | nil => simp
    | cons a l ih => simp [ih, leBytes, Nat.succ_mul]; omega
  rw [blake2Serialize, step, Vector.length_toList]
  rfl

theorem Ctx.digest_length (x : Ctx) : x.digest.1.length = x.digestCount := by
  cases x <;> simp [Ctx.digest, Ctx.digestCount]

theorem Ctx.digestInto_length (x : Ctx) (n : Nat) : (x.digestInto n).1.length = x.digestIntoCount n := by
  cases x <;> simp [Ctx.digestInto, Ctx.digestIntoCount]

/-! ## The invariant through the operations -/

/-- An admitted range ends inside the address space. -/
theorem Config.rangeOK_bound {c : Config} {a : Word} {n m : Nat} (h : c.rangeOK a.toNat n = true) (hm : m ≤ n) :
    a.toNat + m ≤ addrSpace := by
  have ha : a.toNat < addrSpace := a.isLt
  rw [Config.rangeOK_iff] at h
  rcases h with h | h <;> omega

theorem State.raise_inv {s : State} (h : s.Inv) (e : EngineError) : (s.raise e).Inv :=
  ⟨h.slots, h.cp, h.cp, fun h' => by simp at h', fun _ => ⟨e, rfl⟩, fun h' => by simp at h', h.contexts, h.memory, h.bounded⟩

/-- A multiple of 4 stays one when 32 is added. -/
theorem aligned_add_32 {w : Word} (h : w &&& 3 = 0) : (w + 32) &&& 3 = 0 := by
  have h4 : w.toNat % 4 = 0 := by
    simpa [BitVec.toNat_and, Nat.and_two_pow_sub_one_eq_mod (n := 2)] using congrArg BitVec.toNat h
  apply BitVec.eq_of_toNat_eq
  rw [BitVec.toNat_and, BitVec.toNat_add]
  show (w.toNat + 32) % 4294967296 &&& (2 ^ 2 - 1) = 0
  rw [Nat.and_two_pow_sub_one_eq_mod]
  omega

theorem State.advance_inv {s : State} (h : s.Inv) : s.advance.Inv :=
  ⟨h.slots, aligned_add_32 h.cp, h.errcp, h.noError, h.error, h.running, h.contexts, h.memory, h.bounded⟩

theorem State.setSlot_inv {s : State} (h : s.Inv) (c : Byte) {x : Ctx} (hx : x.Inv) : (s.setSlot c x).Inv where
  slots := by simpa using h.slots
  cp := h.cp
  errcp := h.errcp
  noError := h.noError
  error := h.error
  running := h.running
  memory := h.memory
  bounded := h.bounded
  contexts := by
    intro d y hy
    by_cases hd : d = c.toNat
    · subst hd
      by_cases hc : c.toNat < s.ctx.length
      · rw [State.setSlot_self _ _ _ hc] at hy
        cases hy
        exact hx
      · rw [State.setSlot_ctx, List.getElem?_set] at hy
        simp [hc] at hy
    · rw [State.setSlot_other _ _ _ _ hd] at hy
      exact h.contexts d y hy

theorem State.engineStore_inv {s : State} (h : s.Inv) {a : Nat} {d : List Byte} (ha : a + d.length ≤ addrSpace) :
    (s.engineStore a d).Inv :=
  ⟨h.slots, h.cp, h.errcp, h.noError, h.error, h.running, h.contexts, Memory.writeBytes_wf d a h.memory,
    Memory.writeBytes_bounded d ha h.bounded⟩

/-- The merge at reset lists only 32-bit addresses. -/
theorem Memory.blend_bounded (draw : Nat) {old new : Memory} (h1 : old.bounded = true) (h2 : new.bounded = true) :
    (Memory.blend draw old new).bounded = true := by
  suffices H : ∀ (ks : List Nat) (m : Memory), (∀ a ∈ ks, a < addrSpace) → m.bounded = true →
      (ks.foldl (fun m a => if Config.resetAfterWrite draw a then m.write a (new.read a) else m) m).bounded = true by
    refine H _ _ (fun a ha => ?_) h1
    obtain ⟨c, hc, rfl⟩ := List.mem_map.1 ha
    rcases List.mem_append.1 hc with hc | hc
    · exact (Memory.bounded_iff _).1 h1 c hc
    · exact (Memory.bounded_iff _).1 h2 c hc
  intro ks
  induction ks with
  | nil => exact fun m _ hm => hm
  | cons a ks ih =>
    intro m hk hm
    refine ih _ (fun b hb => hk b (by simp [hb])) ?_
    by_cases hq : Config.resetAfterWrite draw a = true
    · simpa [hq] using Memory.write_bounded _ (hk a (by simp)) hm
    · simpa [hq] using hm

/-- A host access that answers a next state has reached a register or admitted memory. -/
theorem State.hostAccess_eq_next {s t : State} {a n : Nat} {register : Nat → State} {memory : State}
    (h : s.hostAccess a n register memory = .next t) :
    (∃ off, s.cfg.registerAt a n = some off ∧ t = register off) ∨
    (s.cfg.allOK a n = true ∧ s.cfg.anyDevice a n = false ∧ t = memory) := by
  unfold State.hostAccess at h
  split at h
  · split at h
    · next off ho => cases h; exact .inl ⟨off, ho, rfl⟩
    · cases h
  · split at h
    · cases h
    · next h1 =>
      split at h
      · cases h
      · next h2 => cases h; exact .inr ⟨by simpa using h1, by simpa using h2, rfl⟩

end Sys2Proof.Machine
end

