-- ==== Sys2Proof/Laws/HostPort.lean ====
section
/-!
SUPPORT. What a host load can read of a byte (20_memory.md rules R70, R73; 93_implementation_defined.md U7), that the host
reaches plain memory and the registers, and a memory over which a run never ends (45_control_commands.md rule R277).
-/

namespace Sys2Proof.Machine

/-- When it is the engine's turn, a step is that turn, taken off `pending`. -/
theorem step_engine {s : State} (hp : s.pending = [] ∨ s.pending.head? = some .engine) :
    step s = engineTurn { s with pending := s.pending.tail } := by
  unfold step
  cases h : s.pending with
  | nil => simp only [List.tail]; rw [← h]
  | cons t l => simp [h] at hp; subst hp; rfl

/-! ## Bytes the host reads -/

theorem pickByte_mem (n : Nat) (b : Byte) (cs : List Byte) : pickByte n b cs ∈ b :: cs := by
  induction cs generalizing n b with
  | nil => simp [pickByte]
  | cons c cs ih =>
    unfold pickByte
    split
    · simp
    · exact List.mem_cons_of_mem _ (ih _ _)

theorem Sync.mem_olderAt {y : Sync} {a : Nat} {b : Byte} : b ∈ y.olderAt a ↔ (a, b) ∈ y.older := by
  simp [Sync.olderAt]

/-- An engine write of a range records what each of its bytes held. -/
theorem Sync.mem_engineWrites_older (y : Sync) (m : Memory) (a n k : Nat) (b : Byte) :
    (k, b) ∈ (y.engineWrites m a n).older ↔ (a ≤ k ∧ k < a + n ∧ b = m.read k) ∨ (k, b) ∈ y.older := by
  induction n generalizing y a with
  | zero => simp [Sync.engineWrites]; omega
  | succ n ih =>
    rw [Sync.engineWrites, ih]
    simp only [Sync.engineWrite, List.mem_cons, Prod.mk.injEq]
    constructor
    · rintro (⟨h1, h2, h3⟩ | ⟨rfl, rfl⟩ | h)
      · exact .inl ⟨by omega, by omega, h3⟩
      · exact .inl ⟨by omega, by omega, rfl⟩
      · exact .inr h
    · rintro (⟨h1, h2, h3⟩ | h)
      · by_cases hk : k = a
        · subst hk; exact .inr (.inl ⟨rfl, h3⟩)
        · exact .inl ⟨by omega, by omega, h3⟩
      · exact .inr (.inr h)

theorem Sync.hostRaced_eq_false {y : Sync} {a : Nat} : y.hostRaced a = false ↔ a ∉ y.raced ∧ a ∉ y.readRaced ∧ a ∉ y.unsettled := by
  simp [Sync.hostRaced, and_assoc]

/-- A byte raced with the run reads as any value. -/
theorem State.hostByte_of_raced (s : State) (ahead : Nat → State) {a : Nat} (h : s.sync.hostRaced a = true) :
    s.hostByte ahead a = Config.hostRaceByte s.draws a := by
  simp [State.hostByte, h]

/-- A byte not raced reads as a value it holds, comes to hold in the run, or held before an engine write. -/
theorem State.hostByte_cases (s : State) (ahead : Nat → State) {a : Nat} (h : s.sync.hostRaced a = false)
    (ht : ∀ k, (ahead k).sync.hostRaced a = false) :
    s.hostByte ahead a = s.mem.read a ∨ (∃ k, s.hostByte ahead a = (ahead k).mem.read a) ∨
      (a, s.hostByte ahead a) ∈ s.sync.older := by
  have hp := pickByte_mem (Config.hostRaceChoice s.draws a) (s.mem.read a)
    (s.hostOthers (ahead (Config.hostLookAhead s.draws a)) a)
  have hr : s.hostByte ahead a = pickByte (Config.hostRaceChoice s.draws a) (s.mem.read a)
      (s.hostOthers (ahead (Config.hostLookAhead s.draws a)) a) := by
    simp [State.hostByte, h, ht]
  rw [← hr] at hp
  rcases List.mem_cons.1 hp with hp | hp
  · exact .inl hp
  · rcases List.mem_cons.1 (List.mem_filter.1 hp).1 with hp | hp
    · exact .inr (.inl ⟨_, hp⟩)
    · exact .inr (.inr (Sync.mem_olderAt.1 hp))

/-- A byte nobody writes without order reads as memory holds it (20 R70). -/
theorem State.hostByte_settled (s : State) (ahead : Nat → State) {a : Nat}
    (h : s.sync.hostRaced a = false) (ht : ∀ k, (ahead k).sync.hostRaced a = false ∧ (ahead k).mem.read a = s.mem.read a) (ho : ∀ b, (a, b) ∉ s.sync.older) :
    s.hostByte ahead a = s.mem.read a := by
  rcases s.hostByte_cases ahead h fun k => (ht k).1 with h | ⟨k, h⟩ | h
  · exact h
  · rw [h, (ht k).2]
  · exact absurd h (ho _)

@[simp] theorem State.hostBytes_length (s : State) (ahead : Nat → State) (a n : Nat) :
    (s.hostBytes ahead a n).length = n := by
  induction n generalizing a with
  | zero => rfl
  | succ n ih => simp [State.hostBytes, ih]

theorem State.getElem?_hostBytes (s : State) (ahead : Nat → State) (a n j : Nat) (h : j < n) :
    (s.hostBytes ahead a n)[j]? = some (s.hostByte ahead (a + j)) := by
  induction n generalizing a j with
  | zero => omega
  | succ n ih =>
    cases j with
    | zero => rfl
    | succ j =>
      rw [State.hostBytes, List.getElem?_cons_succ, ih (a + 1) j (by omega)]
      congr 2
      omega

/-- What every engine turn keeps holds of every state it comes to. -/
theorem engineAhead_induct {P : State → Prop} (hP : ∀ s t, P s → engineTurn s = .next t → P t) (n : Nat) {s : State} (h : P s) :
    P (engineAhead n s) := by
  induction n generalizing s with
  | zero => exact h
  | succ n ih =>
    rw [engineAhead]
    split
    · next t ht => exact ih (hP s t h ht)
    · exact h
    · exact h

/-- An idle engine stays where it is. -/
theorem engineAhead_idle (n : Nat) {s : State} (h : s.busy = false) : engineAhead n s = s :=
  engineAhead_induct (P := fun t => t = s) (fun _ t hs ht => by subst hs; simpa [engineTurn, h, eq_comm] using ht) n rfl

@[simp] theorem State.coming_idle {s : State} (h : s.busy = false) (n : Nat) : s.coming n = s := by simp [State.coming, h]

/-- After an error the engine is idle, so it comes to no further state. -/
theorem State.coming_of_error {s : State} {e : EngineError} (hb : s.busy = true)
    (h : engineTurn { s with draws := s.draws + 1 } = .next (State.raise { s with draws := s.draws + 1 } e)) (n : Nat) :
    (s.coming n).mem = s.mem ∧ (s.coming n).sync = s.sync := by
  rw [State.coming, if_pos hb]
  cases n with
  | zero => exact ⟨rfl, rfl⟩
  | succ n =>
    rw [engineAhead, h]
    simp only [engineAhead_idle n (s := State.raise _ e) rfl]
    exact ⟨rfl, rfl⟩

/-! ## Where a host access goes -/

theorem Config.barred_none {c : Config} {a : Nat} (h : c.barred a = none) : c.inBlock a = false ∧ c.isDevice a = false := by
  unfold Config.barred at h
  split at h
  · cases h
  · split at h
    · cases h
    · next h2 h3 => exact ⟨by simpa using h2, by simpa using h3⟩

theorem Config.anyDevice_eq_false {c : Config} {a n : Nat} (h : ∀ j < n, c.isDevice (a + j) = false) :
    c.anyDevice a n = false := by
  induction n generalizing a with
  | zero => rfl
  | succ n ih =>
    rw [Config.anyDevice, Bool.or_eq_false_iff]
    refine ⟨h 0 (by omega), ih fun j hj => ?_⟩
    have := h (j + 1) (by omega)
    rwa [show a + 1 + j = a + (j + 1) by omega]

theorem Config.touchesBlock_eq_false {c : Config} {a n : Nat} (h : ∀ j < n, c.inBlock (a + j) = false) :
    c.touchesBlock a n = false := by
  by_contra hc
  simp only [Config.touchesBlock, Bool.not_eq_false, Bool.and_eq_true, decide_eq_true_eq] at hc
  obtain ⟨⟨h1, h2⟩, h3⟩ := hc
  have hb := h (c.mmioBase - a) (by omega)
  simp only [Config.inBlock, Bool.and_eq_false_iff, decide_eq_false_iff_not] at hb
  omega

/-- A host access to plain memory reaches memory. -/
theorem State.hostAccess_plain {s : State} {a : Word} {n : Nat} (h : s.Plain a n) (register : Nat → State) (memory : State) :
    s.hostAccess a.toNat n register memory = .next memory := by
  have hb := fun j hj => Config.barred_none ((Config.barredRange_eq_none _ _ _).1 h.2 j hj)
  have ht := Config.touchesBlock_eq_false fun j hj => (hb j hj).1
  have hd := Config.anyDevice_eq_false fun j hj => (hb j hj).2
  have ho : s.cfg.allOK a.toNat n = true := by
    have hr := h.1
    simp only [State.rangeOK, Config.rangeOK, Bool.or_eq_true, beq_iff_eq, Bool.and_eq_true] at hr
    rcases hr with rfl | ⟨-, hr⟩
    · rfl
    · exact hr
  simp [State.hostAccess, ht, hd, ho]

/-- An aligned 32-bit host access to a register reaches that register. -/
theorem State.hostAccess_register (s : State) (k : Fin 16) (register : Nat → State) (memory : State) :
    s.hostAccess (s.cfg.mmioBase + 4 * k.val) 4 register memory = .next (register (4 * k.val)) := by
  have ht : s.cfg.touchesBlock (s.cfg.mmioBase + 4 * k.val) 4 = true := by simp [Config.touchesBlock]; omega
  have hr : s.cfg.registerAt (s.cfg.mmioBase + 4 * k.val) 4 = some (4 * k.val) := by
    unfold Config.registerAt
    rw [if_pos ⟨rfl, by omega, by omega, by omega⟩]
    congr 1
    omega
  simp [State.hostAccess, ht, hr]

/-! ## A memory over which a run never ends -/

/-- `n` NOP descriptors in a row from address `b`: one listed byte each. -/
def nopsFrom : Nat → Nat → Memory
  | _, 0 => []
  | b, n + 1 => (b, 2) :: nopsFrom (b + 32) n

theorem read_nopsFrom (b n a : Nat) :
    (nopsFrom b n).read a = if b ≤ a ∧ a < b + 32 * n ∧ (a - b) % 32 = 0 then 2 else 0 := by
  induction n generalizing b with
  | zero => rw [if_neg (by omega)]; rfl
  | succ n ih =>
    rw [nopsFrom, Memory.read, ih]
    by_cases h : a = b
    · rw [if_pos h, if_pos (by omega)]
    · rw [if_neg h]
      congr 1
      apply propext
      omega

/-- A running engine on a platform whose memory is the whole address space, all NOPs, the register block beyond it. -/
def nopsState (n : Nat) : State :=
  { State.reset with
    busy := true
    mem := nopsFrom 0 n
    cfg := { regions := [{ base := 0, size := 2 ^ 32, kind := .ram }], mmioBase := 2 ^ 32 } }

theorem nopsState_memOK (n a : Nat) (h : a < 2 ^ 32) : (nopsState n).cfg.memOK a = true := by
  have h' : a < 4294967296 := h
  simp [nopsState, Config.memOK, Region.covers, addrSpace, h']

theorem nopsState_barred (n a : Nat) (h : a < 2 ^ 32) : (nopsState n).cfg.barred a = none := by
  have h' : ¬ 4294967296 ≤ a := by omega
  simp [nopsState, Config.barred, Config.inBlock, Config.isDevice, h']

theorem nopsState_nopsEverywhere {n : Nat} (h : 2 ^ 32 ≤ 32 * n) : (nopsState n).NopsEverywhere where
  unraced := ⟨rfl, rfl⟩
  plain a ha := by
    have hl := a.isLt
    exact ⟨(Config.rangeOK_iff _ _ _).2 (.inr ⟨show _ ≤ 2 ^ 32 by omega, fun k hk => nopsState_memOK n _ (by omega)⟩),
      (Config.barredRange_eq_none _ _ _).2 fun k hk => nopsState_barred n _ (by omega)⟩
  nop a ha := by
    have hl := a.isLt
    have hv : (Vector.ofFn fun j : Fin 32 => (nopsState n).mem.read (a.toNat + j.val)) =
        Vector.ofFn fun j : Fin 32 => if j.val = 0 then (2 : Byte) else 0 := by
      congr 1
      funext j
      have hj := j.isLt
      show (nopsFrom 0 n).read _ = _
      rw [read_nopsFrom]
      by_cases h0 : j.val = 0
      · rw [if_pos h0, if_pos (by omega)]
      · rw [if_neg h0, if_neg (by omega)]
    rw [hv]
    decide

end Sys2Proof.Machine
end

