-- ==== Sys2Proof/Laws/PerInstr.lean ====
section
/-!
SUPPORT. One lemma per command about its encoding: the opcode reads back, and the decoder's reserved test refuses the encoded
descriptor exactly when the command is not well formed (30_encoding.md rules R94, R95).
-/

namespace Sys2Proof.Laws.EncodingHead

/-- The encoded descriptor of `i` carries its opcode, and has a reserved field set exactly when `i` is not well formed. -/
def Statement (i : Instr) : Prop :=
  Opcode.ofByte? (encode i).opc = some i.opcode ∧ i.opcode.reserved (encode i) = !i.wellFormed

theorem opc {i : Instr} {op : Opcode} {c c2 f : Byte} (h : (encode i)[0] = headWord op c c2 f) :
    Opcode.ofByte? (encode i).opc = some op := by
  rw [Desc.opc_of_head h, Opcode.ofByte_toByte]

theorem halt : Statement .halt := ⟨opc rfl, rfl⟩

theorem nop : Statement .nop := ⟨opc rfl, rfl⟩

theorem initSponge (c rate suffix rounds : Byte) (xof : Bool) (outlen : Word) :
    Statement (.initSponge c rate suffix rounds xof outlen) := by
  refine ⟨opc rfl, ?_⟩
  have h : (spongeImm rate suffix rounds xof).extractLsb' 25 7 = 0#7 := by
    apply BitVec.eq_of_toNat_eq
    have hr := rate.isLt
    have hs := suffix.isLt
    have hn := rounds.isLt
    have hx : xof.toNat ≤ 1 := Bool.toNat_le xof
    rw [BitVec.extractLsb'_toNat, Nat.shiftRight_eq_div_pow, spongeImm_toNat]
    simp only [BitVec.toNat_zero]
    omega
  simp [Instr.opcode, Opcode.reserved, encode, Opcode.mask, Opcode.zeroWords, Opcode.extraReserved, head_clear_ctx,
    Instr.wellFormed, h]

theorem blake2 (op : Opcode) (hop : op = .initBlake2s ∨ op = .initBlake2b) (c : Byte) (o : Word) (key salt pers : OptRange) :
    op.reserved #v[headWord op c 0#8 (optFlags key salt pers), o, key.addr, key.len, salt.addr, salt.len, pers.addr, pers.len] =
      !(key.wellFormed && salt.wellFormed && pers.wellFormed) := by
  obtain ⟨h0, h1, h2⟩ := Desc.options_of_encode op c o key salt pers _ rfl
  rcases hop with rfl | rfl <;>
    simp [Opcode.reserved, Opcode.mask, Opcode.zeroWords, Opcode.extraReserved, head_clear_flags, h0, h1, h2,
      Bool.and_assoc]

theorem initBlake2s (c : Byte) (outlen : Word) (key salt pers : OptRange) :
    Statement (.initBlake2s c outlen key salt pers) := ⟨opc rfl, blake2 _ (.inl rfl) ..⟩

theorem initBlake2b (c : Byte) (outlen : Word) (key salt pers : OptRange) :
    Statement (.initBlake2b c outlen key salt pers) := ⟨opc rfl, blake2 _ (.inr rfl) ..⟩

theorem update (c : Byte) (addr len : Word) : Statement (.update c addr len) := by
  refine ⟨opc rfl, ?_⟩
  simp [Instr.opcode, Opcode.reserved, encode, Opcode.mask, Opcode.zeroWords, Opcode.extraReserved, head_clear_ctx,
    Instr.wellFormed]

theorem digest (c : Byte) (addr : Word) : Statement (.digest c addr) := by
  refine ⟨opc rfl, ?_⟩
  simp [Instr.opcode, Opcode.reserved, encode, Opcode.mask, Opcode.zeroWords, Opcode.extraReserved, head_clear_ctx,
    Instr.wellFormed]

theorem digestInto (c : Byte) (addr len : Word) : Statement (.digestInto c addr len) := by
  refine ⟨opc rfl, ?_⟩
  simp [Instr.opcode, Opcode.reserved, encode, Opcode.mask, Opcode.zeroWords, Opcode.extraReserved, head_clear_ctx,
    Instr.wellFormed]

theorem xof (c : Byte) (addr len : Word) : Statement (.xof c addr len) := by
  refine ⟨opc rfl, ?_⟩
  simp [Instr.opcode, Opcode.reserved, encode, Opcode.mask, Opcode.zeroWords, Opcode.extraReserved, head_clear_ctx,
    Instr.wellFormed]

theorem clone (src dst : Byte) : Statement (.clone src dst) := by
  refine ⟨opc rfl, ?_⟩
  simp [Instr.opcode, Opcode.reserved, encode, Opcode.mask, Opcode.zeroWords, Opcode.extraReserved, head_clear_ctx2,
    Instr.wellFormed]

theorem destroy (c : Byte) : Statement (.destroy c) := by
  refine ⟨opc rfl, ?_⟩
  simp [Instr.opcode, Opcode.reserved, encode, Opcode.mask, Opcode.zeroWords, Opcode.extraReserved, head_clear_ctx,
    Instr.wellFormed]

theorem keccakP (rounds src dst : Word) : Statement (.keccakP rounds src dst) := by
  refine ⟨opc rfl, ?_⟩
  have h : headWord .keccakP 0#8 0#8 0#8 &&& 4294967295#32 &&& 4294967040#32 = 0#32 := by decide
  simp [Instr.opcode, Opcode.reserved, encode, Opcode.mask, Opcode.zeroWords, Opcode.extraReserved, Instr.wellFormed, h]

end Sys2Proof.Laws.EncodingHead
end

