-- ==== Sys2Proof/Tests/Slice0.lean ====
section
/-!
SUPPORT. Tests of the model against values the spec prints (their place in spec/ is in each comment), and for every statement of
Certificates/Slice0/Obligations.lean that has hypotheses one theorem witness_… that meets all of them together.
-/

set_option Elab.async false

namespace Sys2Proof.Tests

open Sys2Proof Sys2Proof.Machine

/-! ## Well-formedness: one ill-formed term for each check -/

theorem test_wellFormed_keyed : (Instr.initBlake2s 0 32 ⟨true, 0x1100, 1⟩ .absent .absent).wellFormed = true := by decide
theorem test_illFormed_key_addr : (Instr.initBlake2s 0 32 ⟨false, 1, 0⟩ .absent .absent).wellFormed = false := by decide
theorem test_illFormed_key_len : (Instr.initBlake2s 0 32 ⟨false, 0, 1⟩ .absent .absent).wellFormed = false := by decide
theorem test_illFormed_salt_addr : (Instr.initBlake2b 0 32 .absent ⟨false, 1, 0⟩ .absent).wellFormed = false := by decide
theorem test_illFormed_salt_len : (Instr.initBlake2b 0 32 .absent ⟨false, 0, 16⟩ .absent).wellFormed = false := by decide
theorem test_illFormed_pers_addr : (Instr.initBlake2s 0 32 .absent .absent ⟨false, 1, 0⟩).wellFormed = false := by decide
theorem test_illFormed_pers_len : (Instr.initBlake2b 0 32 .absent .absent ⟨false, 0, 1⟩).wellFormed = false := by decide

/-! ## Decoding: each command's descriptor as the spec writes its words -/

/-- 45 R273 -/
theorem test_decode_halt : decodeDesc #v[0x00000001, 0, 0, 0, 0, 0, 0, 0] = .ok .halt := by decide
/-- 45 R274 -/
theorem test_decode_nop : decodeDesc #v[0x00000002, 0, 0, 0, 0, 0, 0, 0] = .ok .nop := by decide
/-- CX-4, sha3_256 c1 -/
theorem test_decode_initSponge :
    decodeDesc #v[0x00000110, 0x00180688, 0, 0x00000020, 0, 0, 0, 0] = .ok (.initSponge 1 136 0x06 24 false 32) := by decide
/-- 95 L1-8, shake128: the XOF bit is IMM[24] -/
theorem test_decode_shake128 :
    decodeDesc #v[0x00000010, 0x01181FA8, 0, 0x00000010, 0, 0, 0, 0] = .ok (.initSponge 0 168 0x1f 24 true 16) := by decide
/-- 42 R205 -/
theorem test_decode_initBlake2s :
    decodeDesc #v[0x01000011, 0x00000020, 0x00001100, 0x00000001, 0, 0, 0, 0] =
      .ok (.initBlake2s 0 32 ⟨true, 0x1100, 1⟩ .absent .absent) := by decide
/-- 42 R206 -/
theorem test_decode_initBlake2b :
    decodeDesc #v[0x06000312, 0x00000040, 0, 0, 0x00001200, 0x00000010, 0x00001210, 0x00000010] =
      .ok (.initBlake2b 3 64 .absent ⟨true, 0x1200, 16⟩ ⟨true, 0x1210, 16⟩) := by decide
/-- CX-1 -/
theorem test_decode_update : decodeDesc #v[0x00000020, 0, 0x00001000, 3, 0, 0, 0, 0] = .ok (.update 0 0x1000 3) := by decide
/-- CX-4 -/
theorem test_decode_digest : decodeDesc #v[0x00000130, 0, 0x00002000, 0, 0, 0, 0, 0] = .ok (.digest 1 0x2000) := by decide
/-- CX-2 -/
theorem test_decode_digestInto :
    decodeDesc #v[0x00000031, 0, 0x00002000, 0x22, 0, 0, 0, 0] = .ok (.digestInto 0 0x2000 34) := by decide
/-- SP-X2 -/
theorem test_decode_xof : decodeDesc #v[0x00000032, 0, 0x00002000, 0, 0, 0, 0, 0] = .ok (.xof 0 0x2000 0) := by decide
/-- CX-4, clone c0, c1 -/
theorem test_decode_clone : decodeDesc #v[0x00010040, 0, 0, 0, 0, 0, 0, 0] = .ok (.clone 0 1) := by decide
/-- 44 R249: W0 = 0x41 | CTX<<8 -/
theorem test_decode_destroy : decodeDesc #v[0x00000341, 0, 0, 0, 0, 0, 0, 0] = .ok (.destroy 3) := by decide
/-- KP-6 -/
theorem test_decode_keccakP :
    decodeDesc #v[0x00000050, 0x00000018, 0x00001000, 0, 0x00001008, 0, 0, 0] = .ok (.keccakP 24 0x1000 0x1008) := by decide
/-- The first word's bytes in memory are little-endian (20 R64): init.b2s c0, bytes 11 00 00 01 20 … -/
theorem test_decode_bytes :
    decode (Vector.ofFn fun j => ([0x11, 0, 0, 1, 0x20, 0, 0, 0, 0, 0x11, 0, 0, 1] : List Byte).getD j.val 0) =
      .ok (.initBlake2s 0 32 ⟨true, 0x1100, 1⟩ .absent .absent) := by decide
/-- 30 R96: opcode 0x00 is illegal -/
theorem test_decode_zero : decodeDesc (Vector.replicate 8 0) = .error .unknownOpcode := by decide
/-- 30 R95: the opcode check comes first -/
theorem test_decode_unknown_first : decodeDesc #v[0xFFFFFF03, 1, 1, 1, 1, 1, 1, 1] = .error .unknownOpcode := by decide
/-- KP-7, E41: CTX is reserved in KECCAK_P -/
theorem test_decode_reserved_ctx : decodeDesc #v[0x00000150, 24, 0x1000, 0, 0x1000, 0, 0, 0] = .error .reservedNonzero := by
  decide
/-- 30 R93: IMM[31:25] of INIT_SPONGE is reserved -/
theorem test_decode_reserved_imm : decodeDesc #v[0x00000010, 0x02180688, 0, 32, 0, 0, 0, 0] = .error .reservedNonzero := by
  decide
/-- 30 R93: a clear FLAGS bit needs zero words -/
theorem test_decode_absent_words : decodeDesc #v[0x00000011, 32, 0, 1, 0, 0, 0, 0] = .error .reservedNonzero := by decide

/-! ## States for single steps -/

/-- A live sponge of one round, rate 8, XOF permitted, OUTLEN 4. -/
def spongeSlot : SpongeCtx := SpongeCtx.fresh 8 0x1f 1 true 4

/-- A fresh unkeyed BLAKE2s slot (B2-INIT-1). -/
def blakeSlot : Blake2Ctx .s := Blake2Ctx.fresh .s 32 0 none none

/-- A running engine with a sponge, a BLAKE2s slot, a destroyed sponge and a FREE slot; "abc" at 0x1000, 01 at 0x1100. -/
def four : State :=
  { State.reset with
    busy := true
    ctx := [some (.sponge spongeSlot), some (.blake2 .s blakeSlot), some (.sponge spongeSlot.destroy), none]
    mem := (Memory.writeBytes [] 0x1000 [0x61, 0x62, 0x63]).write 0x1100 1 }

/-- The same, idle. -/
def idle : State := { four with busy := false }

/-- A test of the next state. -/
def after (o : Out) (p : State → Bool) : Bool :=
  match o with
  | .next t => p t
  | .fault _ => false
  | .refused _ => false

/-- A test of what slot c holds as a sponge. -/
def spongeAt (c : Byte) (p : SpongeCtx → Bool) (t : State) : Bool :=
  match t.slot c with
  | some (.sponge x) => p x
  | _ => false

/-- A test of what slot c holds as a BLAKE2s slot. -/
def blakeAt (c : Byte) (p : Blake2Ctx .s → Bool) (t : State) : Bool :=
  match t.slot c with
  | some (.blake2 .s x) => p x
  | _ => false

/-! ## One step of each command -/

/-- 45 R273: HALT at 0x60 stops with CP = 0x80 -/
theorem test_halt : after (exec .halt { four with cp := 0x60 }) (fun t => t.cp == 0x80 && !t.busy && !t.err) = true := by decide
/-- CT-4: CP wraps -/
theorem test_nop_wraps : after (exec .nop { four with cp := 0xFFFFFFE0 }) (fun t => t.cp == 0 && t.busy) = true := by decide
/-- 41 R160, R161: sha3_256 into a destroyed slot -/
theorem test_initSponge :
    after (exec (.initSponge 2 136 6 24 false 32) four)
      (spongeAt 2 fun x => x.rate == 136 && x.suffix == 6 && x.rounds == 24 && !x.xof && x.outlen == 32 && x.s[0] == 0 &&
        x.pos == 0 && !x.finished && !x.destroyed) = true := by decide +kernel
/-- 41 R160: RATE = 200 is CONFIGURATION(RATE), 0x501 -/
theorem test_initSponge_rate :
    after (exec (.initSponge 0 200 6 24 false 32) four) (fun t => t.errcode == 0x501 && t.cp == 0) = true := by
  decide +kernel
/-- B2-INIT-2: key 01 -/
theorem test_initBlake2s_key :
    after (exec (.initBlake2s 0 32 ⟨true, 0x1100, 1⟩ .absent .absent) four)
      (blakeAt 0 fun x => x.h[0] == 0x6b08e747 && x.h[1] == 0xbb67ae85 && x.pos == 64 && x.length == 64 && x.buf[0] == 1 &&
        x.buf[1] == 0 && x.buf[63] == 0) = true := by decide +kernel
/-- 42 R206: an 8-byte salt is CONFIGURATION(SALTLEN), 0x301 -/
theorem test_initBlake2b_salt :
    after (exec (.initBlake2b 0 64 .absent ⟨true, 0x1000, 8⟩ .absent) four) (fun t => t.errcode == 0x301) = true := by
  decide +kernel
/-- B2-INIT-3 -/
theorem test_initBlake2b :
    (Blake2Ctx.create .b 64 none none none).h[0] = 0x6a09e667f2bdc948 := by decide +kernel
/-- SP-U1: S[0..4) = 61 62 63 00, POS = 3 -/
theorem test_update_sponge :
    after (exec (.update 0 0x1000 3) four)
      (spongeAt 0 fun x => x.pos == 3 && x.posOut == 0 && x.s[0] == 0x61 && x.s[2] == 0x63 && x.s[3] == 0) = true := by
  decide +kernel
/-- B2-U1: 64 bytes fill the buffer and compress nothing -/
theorem test_update_blake2 :
    after (exec (.update 1 0x1000 64) four)
      (blakeAt 1 fun x => x.pos == 64 && x.length == 64 && x.h[0] == 0x6b08e647) = true := by decide +kernel
/-- B2-D: BLAKE2s of the empty message begins 69217a30; the slot is destroyed -/
theorem test_digest_blake2 :
    after (exec (.digest 1 0x2000) four)
      (fun t => t.mem.bytes 0x2000 4 == [0x69, 0x21, 0x7a, 0x30] && t.mem.read 0x201f == 0xf9 &&
        blakeAt 1 (fun x => x.destroyed && x.finished && x.h == Vector.replicate 8 0) t) = true := by decide +kernel
/-- 44 R243: a second DIGEST raises LIFECYCLE(DESTROYED), 0x102 -/
theorem test_digest_destroyed : after (exec (.digest 2 0x2000) four) (fun t => t.errcode == 0x102 && t.err) = true := by
  decide +kernel
/-- CX-3: OUTLEN 4, L0 = 5 writes 36 e9 d2 46 27 and does not destroy -/
theorem test_digestInto_blake2 :
    after (exec (.digestInto 3 0x2000 5)
        { four with ctx := four.ctx.set 3 (some (.blake2 .s (Blake2Ctx.create .s 4 none none none))) })
      (fun t => t.mem.bytes 0x2000 6 == [0x36, 0xe9, 0xd2, 0x46, 0x27, 0] &&
        blakeAt 3 (fun x => x.finished && !x.destroyed) t) = true := by decide +kernel
/-- 44 R244: a buffer shorter than OUTLEN is BUFFER(TOO_SMALL), 0x103 -/
theorem test_digestInto_small : after (exec (.digestInto 1 0x2000 31) four) (fun t => t.errcode == 0x103) = true := by
  decide +kernel
/-- SP-X2: an XOF of zero bytes finishes the slot and writes nothing -/
theorem test_xof_zero :
    after (exec (.xof 0 0x2000 0) four) (fun t => t.mem == four.mem && spongeAt 0 (fun x => x.finished && x.posOut == 0) t) =
      true := by decide +kernel
/-- 44 R247: XOF on a BLAKE2 slot is LIFECYCLE(NOT_XOF), 0x302 -/
theorem test_xof_blake2 : after (exec (.xof 1 0x2000 1) four) (fun t => t.errcode == 0x302) = true := by decide +kernel
/-- 44 R248: CLONE into a FREE slot -/
theorem test_clone : after (exec (.clone 1 3) four) (fun t => t.slot 3 == four.slot 1 && t.slot 1 == four.slot 1) = true := by
  decide +kernel
/-- 60 R301: CLONE onto itself is BAD_CONTEXT(SAME_SLOT), 0x305 -/
theorem test_clone_same : after (exec (.clone 3 3) four) (fun t => t.errcode == 0x305) = true := by decide +kernel
/-- CX-5: DESTROY of a destroyed slot succeeds and changes no slot -/
theorem test_destroy_twice : after (exec (.destroy 2) four) (fun t => !t.err && spongeAt 2 (·.destroyed) t && t.cp == 32) = true := by
  decide +kernel
/-- RS-1: DESTROY of a FREE slot is BAD_CONTEXT(FREE_SLOT), 0x205 -/
theorem test_destroy_free : after (exec (.destroy 3) four) (fun t => t.errcode == 0x205) = true := by decide +kernel
/-- KP-1: one round on zero memory -/
theorem test_keccakP_one_round :
    after (exec (.keccakP 1 0x3000 0x3000) four)
      (fun t => t.mem.read 0x3007 == 0x80 && t.cp == 32) = true := by decide +kernel
/-- KP-3: Keccak-f[1600] of the zero state, lane 0 -/
theorem test_keccak_f_zero :
    (keccakP (Vector.replicate 200 0) 24).toList.take 8 = [0xe7, 0xdd, 0xe1, 0x40, 0x79, 0x8f, 0x25, 0xf1] := by decide +kernel

/-- 95, SHA3-256 of the empty message -/
theorem test_digest_sponge :
    after (exec (.digest 3 0x2000) { four with ctx := four.ctx.set 3 (some (.sponge (SpongeCtx.fresh 136 6 24 false 32))) })
      (fun t => t.mem.bytes 0x2000 32 ==
        [0xa7, 0xff, 0xc6, 0xf8, 0xbf, 0x1e, 0xd7, 0x66, 0x51, 0xc1, 0x47, 0x56, 0xa0, 0x61, 0xd6, 0x62,
         0xf5, 0x80, 0xff, 0x4d, 0xe4, 0x3b, 0x49, 0xfa, 0x82, 0xd8, 0x0a, 0x4b, 0x80, 0xf8, 0x43, 0x4a]) = true := by decide +kernel
/-- 95, SHAKE128 of the empty message -/
theorem test_xof_shake128 :
    after (exec (.xof 3 0x2000 32) { four with ctx := four.ctx.set 3 (some (.sponge (SpongeCtx.fresh 168 0x1f 24 true 32))) })
      (fun t => t.mem.bytes 0x2000 32 ==
        [0x7f, 0x9c, 0x2b, 0xa4, 0xe8, 0x8f, 0x82, 0x7d, 0x61, 0x60, 0x45, 0x50, 0x76, 0x05, 0x85, 0x3e,
         0xd7, 0x3b, 0x80, 0x93, 0xf6, 0xef, 0xbc, 0x88, 0xeb, 0x1a, 0x6e, 0xac, 0xfa, 0x66, 0xef, 0x26]) = true := by decide +kernel

/-! ## Tables, fetch, host and reset -/

/-- A running engine with a NOP at 0 and keccak.p 1, 0x3000, 0x3000 at 0x20. -/
def atNopThenKeccak : State :=
  { State.reset.withFetchWord 256 2 with
    mem := (Memory.writeBytes [] 0 (encodeBytes .nop).toList).writeBytes 0x20 (encodeBytes (.keccakP 1 0x3000 0x3000)).toList }

/-- 42 R194: each row of SIGMA is a permutation of 0..15 -/
theorem test_sigma_rows : ∀ r : Fin 10, ∀ k : Fin 16, k ∈ (blake2Sigma[r.val]).toList := by decide
/-- The host's word of a table row runs as the first command after reset: NOP -/
theorem test_withFetchWord : after (step (State.reset.withFetchWord 256 2)) (fun t => t.cp == 32 && t.busy) = true := by
  decide +kernel
/-- P6: zeroed memory stops the run with UNKNOWN_OPCODE, 0x104 -/
theorem test_zeroed_memory : after (step four) (fun t => t.errcode == 0x104 && t.errcp == 0 && !t.busy && t.err) = true := by
  decide +kernel
/-- CT-2: CP = 0xFFF0 is MEMORY_FAULT(DESC_FETCH), 0x106 -/
theorem test_fetch_fault :
    after (step { four with cp := 0xFFF0 }) (fun t => t.errcode == 0x106 && t.errcp == 0xFFF0 && t.cp == 0xFFF0) = true := by
  decide +kernel
/-- CT-6: START clears ERR, ERRCODE and ERRCP -/
theorem test_start_clears :
    after (State.hostStore { idle with err := true, errcode := 0x202, errcp := 0x80, cp := 0x80 } 0x80000000 [1, 0, 0, 0])
      (fun t => t.busy && !t.err && t.errcode == 0 && t.errcp == 0 && t.cp == 0x80) = true := by decide +kernel
/-- CT-5: a host write of CP while BUSY = 1 changes nothing -/
theorem test_cp_write_busy : after (four.hostStore 0x80000008 [0, 0x10, 0, 0]) (fun t => t.cp == four.cp) = true := by
  decide +kernel
/-- 10 R26: bits 1:0 of a written CP are discarded -/
theorem test_cp_write_idle : after (idle.hostStore 0x80000008 [0x23, 0x10, 0, 0]) (fun t => t.cp == 0x1020) = true := by
  decide +kernel
/-- RS-1: CAPS reads NCTX = 4 -/
theorem test_caps : after (hostTurn (.load 0x80000014 4) State.reset) (fun t => t.hostData == [4, 0, 0, 0]) = true := by decide +kernel
/-- 10 R24: a byte access to the register block is refused -/
theorem test_register_byte_refused : (hostTurn (.load 0x80000004 1) idle matches .refused .hostRegisterAccess) = true := by decide +kernel
/-- 20 R70: a byte the run does not write reads as memory holds it also while BUSY = 1 -/
theorem test_host_reads_unwritten :
    ∃ t, hostTurn (.load 0x1000 3) four = .next t ∧ t.hostData = [0x61, 0x62, 0x63] ∧ t.busy = true := by
  have hc := State.coming_of_error (s := four) (e := .illegalCommand .unknownOpcode) rfl (by rfl)
  have hb : ∀ a, four.hostByte four.coming a = four.mem.read a := fun a =>
    State.hostByte_settled four _ rfl (fun k => ⟨by rw [(hc k).2]; rfl, by rw [(hc k).1]⟩)
      fun _ => List.not_mem_nil
  refine ⟨_, rfl, ?_, rfl⟩
  show [four.hostByte four.coming _, four.hostByte four.coming _, four.hostByte four.coming _] = _
  simp only [hb]
  decide +kernel
/-- 93 U7: after KECCAK_P wrote 0x80 over 0 at 0x3007 (KP-1), the host may read the old 0 until it reads BUSY = 0 -/
theorem test_host_reads_old :
    after (exec (.keccakP 1 0x3000 0x3000) four)
      (fun t => t.hostOthers t 0x3007 == [0] && (t.loadRegister 4).hostOthers t 0x3007 == [0] &&
        (State.loadRegister { t with busy := false } 4).hostOthers t 0x3007 == []) = true := by decide +kernel
/-- 93 U7: while a NOP and then a KECCAK_P (KP-1) are still to come, the host may read 0x80 at 0x3007 two turns ahead -/
theorem test_host_reads_new :
    let s : State := { atNopThenKeccak with draws := atNopThenKeccak.draws + 1 }
    s.mem.read 0x3007 = 0 ∧ (engineAhead 1 s).mem.read 0x3007 = 0 ∧ (engineAhead 2 s).mem.read 0x3007 = 0x80 := by
  decide +kernel
/-- 20 R73(a): a store made during a run that has not written the byte races with that run alone -/
theorem test_store_after_earlier_run :
    let s : State := { four with sync := { Sync.empty with older := [(0x1000, 7)] } }
    after (s.hostStore 0x1000 [9]) (fun t => t.sync.raced == [] && t.sync.hostWrote == [0x1000] && t.sync.older == [] &&
      t.start.engineByte 1 0x1000 == 9) = true := by decide +kernel
/-- 20 R73(c): a byte the host stores during a run that then absorbs it is raced, its neighbours are not; it no longer is once the
host has read BUSY = 0 -/
theorem test_host_store_then_read :
    after (four.hostStore 0x1001 [9]) (fun t =>
      !t.sync.hostRaced 0x1001 && after (exec (.update 0 0x1000 3) t) (fun u =>
        u.sync.hostRaced 0x1001 && !u.sync.hostRaced 0x1000 &&
        !(State.loadRegister { u with busy := false } 4).sync.hostRaced 0x1001)) = true := by decide +kernel
/-- 20 R73: a byte raced in one run that a later run writes (XOF): the engine reads what it wrote, the host any value until it
reads BUSY = 0 -/
theorem test_raced_then_written :
    let s : State := { four with sync := { Sync.empty with raced := [0x2000] } }
    after (exec (.xof 0 0x2000 1) s) (fun t =>
      t.sync.raced == [] && t.sync.hostRaced 0x2000 && t.engineByte 1 0x2000 == t.mem.read 0x2000 &&
        !(State.loadRegister { t with busy := false } 4).sync.hostRaced 0x2000) = true := by decide +kernel
/-- RS-1: reset frees every slot and keeps memory -/
theorem test_reset_event :
    after (step { idle with pending := [.reset] }) (fun t => t.ctx == [none, none, none, none] && t.mem == idle.mem) = true := by
  decide +kernel

/-! ## Witnesses -/

theorem witness_EncodeThenDecodeGivesCommand : (Instr.keccakP 24 0x1000 0x1008).wellFormed = true := by decide

theorem witness_DecodedBytesAreTheEncoding : decode (tableBytes 256 0x141) = .ok (.destroy 1) := by decide

theorem witness_AbsentOptionWordsAreReserved :
    (Instr.initBlake2s 0 32 .absent ⟨false, 0x1000, 0⟩ .absent).wellFormed = false := by decide

theorem witness_DecodeFollowsOpcodeMap_unknown :
    ∀ row ∈ opcodeMap, row.1 ≠ (Desc.ofBytes (tableBytes 256 0xFF)).opc := by decide

theorem witness_DecodeFollowsOpcodeMap_reserved :
    ∃ row ∈ opcodeMap, row.1 = (Desc.ofBytes (tableBytes 256 0x10041)).opc ∧
      ReservedSet row (Desc.ofBytes (tableBytes 256 0x10041)) := by decide

theorem witness_DecodeFollowsOpcodeMap_clean :
    ∃ row ∈ opcodeMap, row.1 = (Desc.ofBytes (tableBytes 256 0x141)).opc ∧
      ¬ ReservedSet row (Desc.ofBytes (tableBytes 256 0x141)) := by decide

/-- A running engine with a NOP at CP. -/
def atNop : State := State.reset.withFetchWord 256 2

theorem witness_StepRunsDecodedCommand :
    atNop.busy = true ∧ atNop.pending = [] ∧ atNop.Plain atNop.cp 32 ∧ decode atNop.descBytes = .ok .nop := by
  decide +kernel

theorem witness_StepRunsDecodedCommand_engine_turn :
    let s : State := { atNop with pending := [.engine] }
    s.busy = true ∧ s.pending.head? = some .engine ∧ s.Plain s.cp 32 ∧ decode s.descBytes = .ok .nop := by
  decide +kernel

theorem witness_FetchFailuresStopTheRun :
    let high : State := { four with cp := 0xFFF0 }
    let top : State := { four with cp := 0xFFFFFFE4 }
    let block : State := { four with cfg := { four.cfg with mmioBase := 0 } }
    (high.busy = true ∧ high.pending = [] ∧ high.rangeOK high.cp 32 = false) ∧
    (top.busy = true ∧ top.pending = [] ∧ 2 ^ 32 < top.cp.toNat + 32) ∧
    (four.busy = true ∧ four.pending = [] ∧ four.Plain four.cp 32 ∧ decode four.descBytes = .error .unknownOpcode) ∧
    (block.busy = true ∧ block.pending = [] ∧ block.rangeOK block.cp 32 = true ∧
      block.cfg.barredRange block.cp.toNat 32 = some .engineOnRegisterBlock) := by decide +kernel

theorem witness_IdleEngineKeepsState :
    (idle.busy = false ∧ idle.pending = []) ∧
    ({ idle with pending := [.engine] } : State).pending = .engine :: [] := by decide +kernel

/-- An idle engine whose host is about to boot a HALT at 0x40. -/
def booting : State :=
  { State.reset with
    pending := [.store 0x40 (encodeBytes .halt).toList, .store (State.reset.cfg.mmioBase + 8) (leBytes (0x40 : Word)),
      .store State.reset.cfg.mmioBase (leBytes (1 : Word))] }

theorem witness_StoredCommandRuns :
    Instr.halt.wellFormed = true ∧ booting.busy = false ∧ (0x40 : Word) &&& 3 = 0 ∧ booting.Plain 0x40 32 ∧
    booting.pending = [.store 0x40 (encodeBytes .halt).toList, .store (booting.cfg.mmioBase + 8) (leBytes (0x40 : Word)),
      .store booting.cfg.mmioBase (leBytes (1 : Word))] := by decide +kernel

theorem witness_RunEndsOnlyAtHaltOrError :
    (State.reset.withFetchWord 256 1).busy = true ∧
    (after (engineTurn (State.reset.withFetchWord 256 1)) fun t => !t.busy) = true ∧
    four.busy = true ∧ (after (engineTurn four) fun t => !t.busy && t.err) = true := by decide +kernel

/-- 45 R277: 2^27 NOPs fill the address space, the register block beyond it -/
theorem witness_RunEndsOnlyAtHaltOrError_endless :
    (nopsState (2 ^ 27)).busy = true ∧ (nopsState (2 ^ 27)).pending = [] ∧ (nopsState (2 ^ 27)).cp.toNat % 32 = 0 ∧
    (nopsState (2 ^ 27)).NopsEverywhere :=
  ⟨rfl, rfl, rfl, nopsState_nopsEverywhere (by decide)⟩

theorem witness_HaltStopsAndNopAdvances :
    Desc.opc #v[1, 0, 0, 0, 0, 0, 0, 0] = 0x01 ∧ Desc.opc #v[1, 1, 0, 0, 0, 0, 0, 0] = 0x01 ∧
    Desc.opc #v[2, 0, 0, 0, 0, 0, 0, 0] = 0x02 ∧ Desc.opc #v[0x102, 0, 0, 0, 0, 0, 0, 0] = 0x02 := by decide

theorem witness_InitSpongeMakesFreshSlot :
    (3 : Byte).toNat < four.nctx ∧ 1 ≤ (199 : Byte).toNat ∧ (199 : Byte).toNat ≤ 199 ∧ 1 ≤ (1 : Byte).toNat ∧
    (1 : Byte).toNat ≤ 24 ∧ 1 ≤ (0xFFFFFFFF : Word).toNat := by decide

theorem witness_InitBlake2sMakesSlot :
    let key : OptRange := ⟨true, 0x1100, 32⟩
    let salt : OptRange := ⟨true, 0xFFF8, 8⟩
    let pers : OptRange := .absent
    (0 : Byte).toNat < four.nctx ∧ 1 ≤ (32 : Word).toNat ∧ (32 : Word).toNat ≤ 32 ∧
    (key.present = true → 1 ≤ key.len.toNat ∧ key.len.toNat ≤ 32) ∧ (salt.present = true → salt.len.toNat = 8) ∧
    (pers.present = true → pers.len.toNat = 8) ∧
    (∀ r ∈ [key, salt, pers], r.present = true → four.Plain r.addr r.len.toNat) := by decide +kernel

theorem witness_InitBlake2bMakesSlot :
    let key : OptRange := ⟨true, 0x1100, 64⟩
    let salt : OptRange := .absent
    let pers : OptRange := ⟨true, 0xFFF0, 16⟩
    (0 : Byte).toNat < four.nctx ∧ 1 ≤ (64 : Word).toNat ∧ (64 : Word).toNat ≤ 64 ∧
    (key.present = true → 1 ≤ key.len.toNat ∧ key.len.toNat ≤ 64) ∧ (salt.present = true → salt.len.toNat = 16) ∧
    (pers.present = true → pers.len.toNat = 16) ∧
    (∀ r ∈ [key, salt, pers], r.present = true → four.Plain r.addr r.len.toNat) := by decide +kernel

theorem witness_UpdateAbsorbsTheRange :
    (four.Holds 0 (.sponge spongeSlot) ∧ (Ctx.sponge spongeSlot).destroyed = false ∧
      (Ctx.sponge spongeSlot).finished = false ∧ four.Plain 0x1000 (3 : Word).toNat ∧
      (Ctx.sponge spongeSlot).counterFits (3 : Word).toNat = true) ∧
    (four.Holds 1 (.blake2 .s blakeSlot) ∧ (Ctx.blake2 .s blakeSlot).destroyed = false ∧
      (Ctx.blake2 .s blakeSlot).finished = false ∧ four.Plain 0xFFFF (1 : Word).toNat ∧
      (Ctx.blake2 .s blakeSlot).counterFits (1 : Word).toNat = true) :=
  ⟨⟨rfl, by decide +kernel⟩, rfl, by decide +kernel⟩

theorem witness_DigestStoresAndDestroys :
    (four.Holds 0 (.sponge spongeSlot) ∧ spongeSlot.destroyed = false ∧ spongeSlot.finished = false ∧
      four.Plain 0xFFFC spongeSlot.outlen) ∧
    (four.Holds 1 (.blake2 .s blakeSlot) ∧ blakeSlot.destroyed = false ∧ blakeSlot.finished = false ∧
      blakeSlot.outlen ≤ blake2KK .s ∧ four.Plain 0x2000 blakeSlot.outlen) :=
  ⟨⟨rfl, by decide +kernel⟩, rfl, by decide +kernel⟩

theorem witness_DigestIntoFillsTheBuffer :
    (four.Holds 0 (.sponge spongeSlot) ∧ spongeSlot.destroyed = false ∧ spongeSlot.finished = false ∧
      spongeSlot.outlen ≤ (4 : Word).toNat ∧ four.Plain 0x2000 (4 : Word).toNat) ∧
    (four.Holds 1 (.blake2 .s blakeSlot) ∧ blakeSlot.destroyed = false ∧ blakeSlot.finished = false ∧
      blakeSlot.outlen ≤ (34 : Word).toNat ∧ four.Plain 0x2000 (34 : Word).toNat) :=
  ⟨⟨rfl, by decide +kernel⟩, rfl, by decide +kernel⟩

theorem witness_XofStoresSqueezedBytes :
    four.Holds 0 (.sponge spongeSlot) ∧ spongeSlot.destroyed = false ∧ spongeSlot.xof = true ∧
    four.Plain 0x2000 (20 : Word).toNat := ⟨rfl, by decide +kernel⟩

theorem witness_XofStoresSqueezedBytes_squeeze :
    let last : SpongeCtx := { spongeSlot with finished := true, posOut := 7 }
    let spent : SpongeCtx := { spongeSlot with finished := true, posOut := 8 }
    (last.posOut < last.rate ∧ last.rate ≤ 199 ∧ last.finished = true) ∧
    (spent.finished = true ∧ 1 ≤ spent.rate ∧ spent.rate ≤ spent.posOut) := by decide

theorem witness_CloneCopiesEveryField :
    four.Holds 1 (.blake2 .s blakeSlot) ∧ (Ctx.blake2 .s blakeSlot).destroyed = false ∧ (3 : Byte).toNat < four.nctx ∧
    (1 : Byte) ≠ 3 := ⟨rfl, by decide⟩

/-- What a BLAKE2s slot is after INIT obeys its invariant. -/
theorem blakeSlot_inv : blakeSlot.Inv := Blake2Ctx.fresh_inv (by decide) 0 none none

theorem spongeSlot_inv : spongeSlot.Inv := SpongeCtx.fresh_inv (by decide) (by decide) (by decide)

/-- The test state meets the invariant of the machine. -/
theorem four_inv : four.Inv where
  slots := by decide
  cp := by decide
  errcp := by decide
  noError := fun _ => ⟨rfl, rfl⟩
  error := fun h => absurd h (by decide)
  running := fun _ => rfl
  contexts := by
    intro c x h
    match c, h with
    | 0, h => cases h; exact spongeSlot_inv
    | 1, h => cases h; exact blakeSlot_inv
    | 2, h => cases h; exact SpongeCtx.destroy_inv spongeSlot_inv
    | n + 3, h =>
      rcases n with _ | n
      · exact absurd h (by simp [four])
      · exact absurd h (by simp [four])
  memory := by decide +kernel
  bounded := by decide +kernel

theorem witness_DestroyWipesAndMarks :
    four.Holds 0 (.sponge spongeSlot) ∧ four.Holds 1 (.blake2 .s blakeSlot) ∧
    (four.Inv ∧ four.Holds 2 (.sponge spongeSlot.destroy) ∧ (Ctx.sponge spongeSlot.destroy).destroyed = true) :=
  ⟨rfl, rfl, four_inv, rfl, rfl⟩

theorem witness_KeccakPPermutesMemory :
    1 ≤ (24 : Word).toNat ∧ (24 : Word).toNat ≤ 24 ∧ four.Plain 0x1000 200 ∧ four.Plain 0x1008 200 := by decide +kernel

theorem witness_EngineReadsMemoryUnlessRaced :
    let raced : State := { four with sync := { hostWrote := [0x1000], engineWrote := [], older := [], raced := [0x1001], readRaced := [], unsettled := [] } }
    four.Unraced 0x1000 3 ∧ four.Unraced four.cp.toNat 32 ∧ 0x1000 ∈ raced.sync.hostWrote ∧ 0x1001 ∈ raced.sync.raced := by
  decide +kernel

theorem witness_EngineReadsBackItsWrites :
    (∀ j < (List.replicate 32 (1 : Byte)).length, 0 + j ∉ four.sync.hostWrote) ∧ 0 = four.cp.toNat ∧
    (List.replicate 32 (1 : Byte)).length = 32 := by decide +kernel

theorem witness_FirstFailedCheckDecides :
    let block : State := { four with cfg := { four.cfg with mmioBase := 0x1000 } }
    firstError (.update 2 0xFFFF 2) four = some (.lifecycle .destroyed) ∧
    firstError (.update 3 0 0) four = some (.badContext .freeSlot) ∧
    firstError (.digestInto 1 0x2000 40) four = none ∧
    (∀ r ∈ readRanges (.digestInto 1 0x2000 40) ++ (storedRange (.digestInto 1 0x2000 40) four).toList,
      four.cfg.barredRange r.1.toNat r.2 = none) ∧
    firstError (.keccakP 1 0x2000 0x0FFF) block = none ∧
    (∃ r ∈ readRanges (.keccakP 1 0x2000 0x0FFF) ++ (storedRange (.keccakP 1 0x2000 0x0FFF) block).toList,
      block.cfg.barredRange r.1.toNat r.2 ≠ none) := by decide +kernel

theorem witness_ErrorEntryIsPrecise :
    four.busy = true ∧ four.err = false ∧ (after (engineTurn four) fun t => t.err) = true := by decide +kernel

theorem witness_NonStoringCommandsKeepMemory :
    storedRange (.update 0 0x1000 3) four = none ∧ (after (exec (.update 0 0x1000 3) four) fun _ => true) = true ∧
    storedRange (.clone 1 3) four = none ∧ (after (exec (.clone 1 3) four) fun _ => true) = true := by decide +kernel

theorem witness_StoringCommandsKeepOtherBytes :
    storedRange (.digest 0 0x2000) four = some (0x2000, 4) ∧ (after (exec (.digest 0 0x2000) four) fun _ => true) = true ∧
    storedRange (.digestInto 1 0x2000 34) four = some (0x2000, 32) ∧
    (after (exec (.digestInto 1 0x2000 34) four) fun _ => true) = true ∧
    storedRange (.xof 0 0x2000 9) four = some (0x2000, 9) ∧ (after (exec (.xof 0 0x2000 9) four) fun _ => true) = true ∧
    storedRange (.keccakP 1 0x1000 0x2000) four = some (0x2000, 200) ∧
    (after (exec (.keccakP 1 0x1000 0x2000) four) fun _ => true) = true := by decide +kernel

theorem witness_CommandsChangeOnlyNamedSlots :
    (after (exec (.clone 1 3) four) fun _ => true) = true ∧ (∀ c, changedSlot (.clone 1 3) = some c → c.toNat ≠ 1) ∧
    (after (exec .nop four) fun _ => true) = true ∧ (∀ c, changedSlot .nop = some c → c.toNat ≠ 0) := by
  refine ⟨by decide +kernel, fun c h => ?_, by decide, fun c h => ?_⟩
  · cases h
    decide
  · cases h

theorem witness_CommandsFrameTheRegisters :
    (after (exec .halt four) fun _ => true) = true ∧ (after (exec (.destroy 3) four) fun t => t.err) = true := by
  decide +kernel

theorem witness_SlotsKeepKindAndParameters :
    (after (exec (.update 0 0x1000 3) four) fun _ => true) = true ∧ four.Holds 0 (.sponge spongeSlot) ∧
    ¬ replacesSlot (.update 0 0x1000 3) 0 := ⟨by decide +kernel, rfl, fun h => h⟩

theorem witness_DestroyedSlotIsRejected :
    four.Holds 2 (.sponge spongeSlot.destroy) ∧ (Ctx.sponge spongeSlot.destroy).destroyed = true ∧
    (3 : Byte).toNat < four.nctx ∧ (2 : Byte) ≠ 3 := ⟨rfl, by decide⟩

theorem witness_FewerRoundsSkipLeadingOnes : 0 < 24 ∧ 23 < 24 := by decide

/-- A sponge at the last byte of its rate, its suffix's top bit set. -/
def topSuffix : SpongeCtx := { spongeSlot with suffix := 0x81, pos := 7 }

/-- The same with the top bit clear. -/
def lowSuffix : SpongeCtx := { spongeSlot with pos := 7 }

theorem witness_SpongePaddingCases :
    ({ spongeSlot with finished := true } : SpongeCtx).finished = true ∧
    (spongeSlot.finished = false ∧ ¬ (spongeSlot.suffix.getLsbD 7 = true ∧ spongeSlot.pos = spongeSlot.rate - 1)) ∧
    (topSuffix.finished = false ∧ topSuffix.suffix.getLsbD 7 = true ∧ topSuffix.pos = topSuffix.rate - 1) ∧
    (lowSuffix.finished = false ∧ lowSuffix.suffix.getLsbD 7 = false ∧ lowSuffix.pos = lowSuffix.rate - 1 ∧
      lowSuffix.rate ≤ 199) := by decide

theorem witness_AbsorbXorsUpToTheRate :
    spongeSlot.rate ≤ 199 ∧ spongeSlot.pos + (List.replicate 7 (1 : Byte)).length < spongeSlot.rate ∧
    spongeSlot.pos + (List.replicate 8 (1 : Byte)).length = spongeSlot.rate ∧ List.replicate 8 (1 : Byte) ≠ [] := by decide

theorem witness_UpdateChunkingInvariance :
    four.Holds 1 (.blake2 .s blakeSlot) ∧ (Ctx.blake2 .s blakeSlot).destroyed = false ∧
    (Ctx.blake2 .s blakeSlot).finished = false ∧ 64 + 1 < 2 ^ 32 ∧ four.Plain 0x1000 (64 + 1) ∧
    four.Unraced (0x1000 : Word).toNat (64 + 1) ∧ (Ctx.blake2 .s blakeSlot).counterFits (64 + 1) = true :=
  ⟨rfl, by decide +kernel⟩

theorem witness_XofChunkingInvariance :
    four.Holds 0 (.sponge spongeSlot) ∧ spongeSlot.destroyed = false ∧ spongeSlot.xof = true ∧ 7 + 9 < 2 ^ 32 ∧
    four.Plain 0x2000 (7 + 9) := ⟨rfl, by decide +kernel⟩

/-- Slots 1 and 3 hold the same BLAKE2s slot. -/
def cloned : State := { four with ctx := four.ctx.set 3 (some (.blake2 .s blakeSlot)) }

theorem witness_CloneBehavesAsItsSource :
    (1 : Byte) ≠ 3 ∧ cloned.Holds 1 (.blake2 .s blakeSlot) ∧ cloned.Holds 3 (.blake2 .s blakeSlot) ∧
    (after (exec (.digest 1 0x2000) cloned) fun _ => true) = true ∧
    (after (exec (.digest 3 0x2000) cloned) fun _ => true) = true := ⟨by decide, rfl, rfl, by decide +kernel⟩

theorem witness_Blake2InitialState :
    1 ≤ (List.replicate 64 (1 : Byte)).length ∧ (List.replicate 64 (1 : Byte)).length ≤ blake2KK .b := by decide

theorem witness_Blake2UpdateLoop : ([1] : List Byte) ≠ [] ∧ blakeSlot.pos ≤ Variant.s.bb := by decide

/-- A BLAKE2s slot whose buffer is full. -/
def full : Blake2Ctx .s := { blakeSlot with pos := 64, length := 64 }

theorem witness_Blake2DefersFullBlock :
    blakeSlot.pos + (List.replicate 64 (0 : Byte)).length ≤ Variant.s.bb ∧ full.pos + ([] : List Byte).length ≤ Variant.s.bb ∧
    full.pos = Variant.s.bb ∧ full.pos ≤ Variant.s.bb := by decide

theorem witness_Blake2FinishCompressesLastBlock : blakeSlot.pos ≤ Variant.s.bb := by decide

theorem witness_StartBeginsARun :
    idle.busy = false ∧ (1 : Word).getLsbD 0 = true ∧ four.busy = true ∧ (2 : Word).getLsbD 0 = false := by decide

theorem witness_RegisterLoadsReadTheirFields :
    idle.busy = false ∧ four.busy = true ∧ four.nctx ≤ 255 := by decide

theorem witness_RegisterStoresWriteOnlyCp :
    (2 : Fin 16) ≠ 0 ∧ idle.busy = false ∧ (15 : Fin 16) ≠ 2 ∧ four.busy = true := by
  decide

theorem witness_OddRegisterAccessRefused :
    (∃ k < ([0, 0, 0, 0] : List Byte).length, four.cfg.mmioBase ≤ 0x7FFFFFFD + k ∧ 0x7FFFFFFD + k < four.cfg.mmioBase + 64) ∧
    ¬ (([0, 0, 0, 0] : List Byte).length = 4 ∧ ∃ j < 16, 0x7FFFFFFD = four.cfg.mmioBase + 4 * j) ∧
    (∃ k < ([0] : List Byte).length, four.cfg.mmioBase ≤ 0x8000003F + k ∧ 0x8000003F + k < four.cfg.mmioBase + 64) ∧
    ¬ (([0] : List Byte).length = 4 ∧ ∃ j < 16, 0x8000003F = four.cfg.mmioBase + 4 * j) := by decide

theorem witness_RunningEngineAsTheHostSeesIt : four.Inv ∧ four.busy = true := ⟨four_inv, rfl⟩

theorem witness_ResetClearsTheEngine :
    ({ idle with pending := [.reset] } : State).pending = .reset :: [] ∧ idle.busy = false := by decide +kernel

theorem witness_ResetDuringRunKeepsOldOrNewBytes :
    let s : State := { atNop with pending := [.reset] }
    s.pending = .reset :: [] ∧ s.busy = true ∧ (after (engineTurn { s with pending := [] }) fun _ => true) = true := by
  decide +kernel

theorem witness_HostWritesAreSeenOrRaced :
    idle.Plain 0xFFFE ([1, 2] : List Byte).length ∧ idle.busy = false ∧ four.Plain 0xFFFE ([1, 2] : List Byte).length ∧
    four.busy = true ∧ (∀ j < ([1, 2] : List Byte).length, (0xFFFE : Word).toNat + j ∉ four.sync.engineWrote) := by decide +kernel

/-- The idle test state with race record `y`. -/
def idleWith (y : Sync) : State := { idle with sync := y }

theorem witness_BusyZeroOrdersEngineWrites :
    let s := idleWith { Sync.empty with older := [(0x1000, 0)] }
    s.busy = false ∧ s.Plain 0x1000 3 ∧ ∀ j < 3, (0x1000 : Word).toNat + j ∉ s.sync.raced := by decide +kernel

theorem witness_BusyZeroOrdersEngineWrites_unraced :
    (four.Plain 0xFFFF 1 ∧ four.Unraced (0xFFFF : Word).toNat 1 ∧
      ∀ j < 1, (0xFFFF : Word).toNat + j ∉ four.sync.readRaced ∧ (0xFFFF : Word).toNat + j ∉ four.sync.unsettled) ∧
    four.busy = true := by decide +kernel

theorem witness_BusyZeroOrdersEngineWrites_raced :
    ∀ y ∈ [{ Sync.empty with raced := [0x1000] }, { Sync.empty with readRaced := [0x1000] },
        { Sync.empty with unsettled := [0x1000] }],
      (idleWith y).Plain 0x1000 1 ∧ ((0x1000 : Word).toNat ∈ (idleWith y).sync.raced ∨
        (0x1000 : Word).toNat ∈ (idleWith y).sync.readRaced ∨ (0x1000 : Word).toNat ∈ (idleWith y).sync.unsettled) := by
  decide +kernel

theorem witness_StepKeepsInvariant : four.Inv ∧ (after (step four) fun _ => true) = true := ⟨four_inv, by decide +kernel⟩

theorem witness_ParametersNeverChange : (after (step four) fun _ => true) = true := by decide +kernel

end Sys2Proof.Tests
end

section
/-!
PROOF. The platform's parameters never change (00_scope.md rule R6): not through a command, an engine turn, a host access or a
reset. MemOK and MMIO_BASE are the field `cfg`, NCTX is the number of slots (10_state.md rule R30).
-/

namespace Sys2Proof.Machine

/-- `t` has the parameters of `s`: MemOK, MMIO_BASE and NCTX (00 R6). -/
def State.SameParameters (s t : State) : Prop := t.cfg = s.cfg ∧ t.nctx = s.nctx

theorem State.SameParameters.refl (s : State) : s.SameParameters s := ⟨rfl, rfl⟩

theorem State.SameParameters.trans {r s t : State} (h : r.SameParameters s) (h' : s.SameParameters t) : r.SameParameters t :=
  ⟨h'.1.trans h.1, h'.2.trans h.2⟩

@[simp] theorem State.optRead_cfg (s : State) (r : OptRange) : (s.optRead r).cfg = s.cfg := by
  obtain ⟨y, -, -, h⟩ := s.optRead_eq r
  rw [h]

@[simp] theorem State.optRead_nctx (s : State) (r : OptRange) : (s.optRead r).nctx = s.nctx := by
  obtain ⟨y, -, -, h⟩ := s.optRead_eq r
  rw [h]
  rfl

theorem State.engineRead_sameParameters (s : State) (a n : Nat) : s.SameParameters (s.engineRead a n) :=
  ⟨s.engineRead_cfg a n, s.engineRead_nctx a n⟩

theorem State.raise_sameParameters (s : State) (e : EngineError) : s.SameParameters (s.raise e) :=
  ⟨s.raise_cfg e, s.raise_nctx e⟩

/-! ## The engine's turn -/

/-- A completed command writes at most a slot, memory and registers, none of which holds a parameter. -/
theorem Completed.sameParameters {i : Instr} {s t : State} (h : Completed i s t) : s.SameParameters t := by
  cases i with
  | halt => subst h; exact .refl s
  | nop => subst h; exact .refl s
  | initSponge => obtain ⟨-, -, -, -, rfl⟩ := h; simp [State.SameParameters]
  | initBlake2s => obtain ⟨-, -, -, rfl⟩ := h; simp [State.SameParameters]
  | initBlake2b => obtain ⟨-, -, -, rfl⟩ := h; simp [State.SameParameters]
  | update => obtain ⟨x, -, -, -, -, rfl⟩ := h; simp [State.SameParameters]
  | digest => obtain ⟨x, -, -, -, -, rfl⟩ := h; simp [State.SameParameters]
  | digestInto => obtain ⟨x, -, -, -, -, -, rfl⟩ := h; simp [State.SameParameters]
  | xof => obtain ⟨x, -, -, -, -, rfl⟩ := h; simp [State.SameParameters]
  | clone => obtain ⟨x, -, -, -, -, rfl⟩ := h; simp [State.SameParameters]
  | destroy => obtain ⟨x, -, rfl⟩ := h; simp [State.SameParameters]
  | keccakP => obtain ⟨-, -, rfl⟩ := h; simp [State.SameParameters]

theorem exec_sameParameters {i : Instr} {s t : State} (h : exec i s = .next t) : s.SameParameters t := by
  rcases exec_cases h with h | ⟨e, rfl⟩
  · exact h.sameParameters
  · exact s.raise_sameParameters e

/-- A fetch that does not reach the command raises an error, which changes no parameter either. -/
theorem engineTurn_sameParameters {s t : State} (h : engineTurn s = .next t) : s.SameParameters t := by
  unfold engineTurn at h
  split at h
  · have hr := s.engineRead_sameParameters s.cp.toNat 32
    rcases State.fetch_eq_next h with ⟨i, -, h⟩ | ⟨e, rfl⟩ | ⟨e, rfl⟩
    · exact hr.trans (exec_sameParameters h)
    · exact s.raise_sameParameters e
    · exact hr.trans (State.raise_sameParameters _ e)
  · cases h; exact .refl s

/-! ## The turns of the host and of the platform -/

/-- A register store starts the engine, writes CP or does nothing (10 R24-R26). -/
theorem State.storeRegister_sameParameters (s : State) (off : Nat) (v : Word) : s.SameParameters (s.storeRegister off v) := by
  unfold State.storeRegister
  split
  · split <;> exact .refl s
  · split <;> exact .refl s
  · exact .refl s

theorem State.hostLoad_sameParameters {s t : State} {a n : Nat} {ahead : Nat → State} (h : s.hostLoad a n ahead = .next t) :
    s.SameParameters t := by
  rcases State.hostAccess_eq_next h with ⟨off, -, rfl⟩ | ⟨-, -, rfl⟩
  · exact .refl s
  · exact .refl s

theorem State.hostStore_sameParameters {s t : State} {a : Nat} {data : List Byte} (h : s.hostStore a data = .next t) :
    s.SameParameters t := by
  rcases State.hostAccess_eq_next h with ⟨off, -, rfl⟩ | ⟨-, -, rfl⟩
  · exact s.storeRegister_sameParameters off _
  · exact .refl s

/-- Reset frees the slots and keeps their number (70 R340). -/
theorem State.resetEvent_sameParameters (s : State) (command : Out) : s.SameParameters (s.resetEvent command) := by
  have hn : (List.replicate s.nctx (none : Slot)).length = s.nctx := List.length_replicate
  unfold State.resetEvent
  split
  · split
    · exact ⟨rfl, hn⟩
    · exact ⟨rfl, hn⟩
  · exact ⟨rfl, hn⟩

theorem hostTurn_sameParameters {u : HostTurn} {s t : State} (h : hostTurn u s = .next t) : s.SameParameters t := by
  cases u with
  | engine => exact engineTurn_sameParameters h
  | load a n => exact State.hostLoad_sameParameters h
  | store a data => exact State.hostStore_sameParameters h
  | reset => cases h; exact s.resetEvent_sameParameters (engineTurn s)

theorem step_sameParameters {s t : State} (h : step s = .next t) : s.SameParameters t := by
  unfold step at h
  split at h
  · exact engineTurn_sameParameters h
  · next u rest _ =>
    have hp : s.SameParameters { s with pending := rest } := .refl s
    exact hp.trans (hostTurn_sameParameters h)

/-- Settles O60: every turn of the engine, the host and the platform keeps the parameters. -/
theorem parametersNeverChange : Obligations.ParametersNeverChange :=
  fun _ _ h => step_sameParameters h

end Sys2Proof.Machine
end

section
/-!
PROOF. Every step keeps the invariant of the machine (Safety.lean: 10_state.md rules R26, R28, R34, R38; 45_control_commands.md
rule R278): a command, an engine turn, a host access, START and reset.
-/

namespace Sys2Proof.Machine

/-- The invariant says nothing of races, host turns, host data and draws. -/
theorem State.Inv.bookkeeping {s : State} (h : s.Inv) (y : Sync) (p : List HostTurn) (d : List Byte) (n : Nat) :
    State.Inv { s with sync := y, pending := p, hostData := d, draws := n } :=
  ⟨h.slots, h.cp, h.errcp, h.noError, h.error, h.running, h.contexts, h.memory, h.bounded⟩

/-! ## The engine's turn -/

theorem State.engineRead_inv {s : State} (h : s.Inv) (a n : Nat) : (s.engineRead a n).Inv := h.bookkeeping ..

theorem State.optRead_inv {s : State} (h : s.Inv) (r : OptRange) : (s.optRead r).Inv := by
  obtain ⟨y, -, -, hy⟩ := s.optRead_eq r
  rw [hy]
  exact h.bookkeeping ..

/-- The end of HALT: an idle engine meets the invariant if the running one does (45 R273). -/
theorem State.clearBusy_inv {s : State} (h : s.Inv) : State.Inv { s with busy := false } :=
  ⟨h.slots, h.cp, h.errcp, h.noError, h.error, fun hb => absurd hb Bool.false_ne_true, h.contexts, h.memory, h.bounded⟩

/-- A store of at most the `n` admitted bytes from `a` keeps the invariant. -/
theorem State.engineStore_inv_of_rangeOK {s : State} (h : s.Inv) {a : Word} {n : Nat} (hr : s.rangeOK a n = true)
    {d : List Byte} (hd : d.length ≤ n) : (s.engineStore a.toNat d).Inv :=
  s.engineStore_inv h (Config.rangeOK_bound hr hd)

/-- A key that passes the length check is at most KK bytes (42 R201). -/
theorem optBytes_length_le {s : State} {r : OptRange} {lo hi : Nat} (h : optLenOK r lo hi = true) (access : Nat)
    {bs : List Byte} (hb : optBytes s access r = some bs) : bs.length ≤ hi := by
  unfold optBytes at hb
  split at hb
  · next hp =>
    cases hb
    simp only [optLenOK, hp, Bool.not_true, Bool.false_or, Bool.and_eq_true, decide_eq_true_eq] at h
    simpa using h.2
  · cases hb

/-- INIT_BLAKE2S and INIT_BLAKE2B (42 R205): three reads, then a new slot. -/
theorem State.initBlake2_inv {s : State} (h : s.Inv) {v : Variant} (c : Byte) {outlen : Word} {key : OptRange}
    (ho : 1 ≤ outlen.toNat ∧ outlen.toNat ≤ blake2KK v) (hk : optLenOK key 1 (blake2KK v) = true) (salt pers : OptRange) :
    ((((s.optRead key).optRead salt).optRead pers).setSlot c (.blake2 v
      (Blake2Ctx.create v outlen.toNat (optBytes s 1 key) (optBytes s 2 salt) (optBytes s 3 pers)))).advance.Inv :=
  State.advance_inv (State.setSlot_inv (State.optRead_inv (State.optRead_inv (State.optRead_inv h key) salt) pers) c
    (Blake2Ctx.create_inv ho (fun _ hb => optBytes_length_le hk 1 hb) _ _))

/-- A completed command keeps the invariant: a slot it writes meets its own, a store it makes is in admitted memory. -/
theorem Completed.inv {i : Instr} {s t : State} (hs : s.Inv) (h : Completed i s t) : t.Inv := by
  cases i with
  | halt => subst h; exact State.clearBusy_inv (State.advance_inv hs)
  | nop => subst h; exact State.advance_inv hs
  | initSponge c rate suffix rounds xof outlen =>
    obtain ⟨-, hr, hn, ho, rfl⟩ := h
    exact State.advance_inv (State.setSlot_inv hs c (SpongeCtx.fresh_inv hr hn ⟨ho, outlen.isLt⟩))
  | initBlake2s c outlen key salt pers =>
    obtain ⟨-, ho, hk, rfl⟩ := h
    exact State.initBlake2_inv hs c ho hk salt pers
  | initBlake2b c outlen key salt pers =>
    obtain ⟨-, ho, hk, rfl⟩ := h
    exact State.initBlake2_inv hs c ho hk salt pers
  | update c addr len =>
    obtain ⟨x, hx, hd, hf, hl, rfl⟩ := h
    have hy := Ctx.absorb_inv (s.engineBytes 1 addr.toNat len.toNat) (hs.contexts _ x hx) hd hf (by simpa using hl)
    exact State.advance_inv (State.setSlot_inv (State.engineRead_inv hs _ _) c hy)
  | digest c addr =>
    obtain ⟨x, hx, hd, -, hr, rfl⟩ := h
    exact State.advance_inv (State.setSlot_inv (State.engineStore_inv_of_rangeOK hs hr x.digest_length_le) c
      (Ctx.digest_inv (hs.contexts _ x hx) hd))
  | digestInto c addr len =>
    obtain ⟨x, hx, hd, -, hl, hr, rfl⟩ := h
    exact State.advance_inv (State.setSlot_inv (State.engineStore_inv_of_rangeOK hs hr (Ctx.digestInto_length_le hl)) c
      (Ctx.digestInto_inv _ (hs.contexts _ x hx) hd))
  | xof c addr len =>
    obtain ⟨x, hx, hd, -, hr, rfl⟩ := h
    exact State.advance_inv (State.setSlot_inv (State.engineStore_inv_of_rangeOK hs hr (x.squeeze_length_le _)) c
      (Ctx.squeeze_inv _ (hs.contexts _ x hx) hd))
  | clone src dst =>
    obtain ⟨x, hx, -, -, -, rfl⟩ := h
    exact State.advance_inv (State.setSlot_inv hs dst (hs.contexts _ x hx))
  | destroy c =>
    obtain ⟨x, hx, rfl⟩ := h
    exact State.advance_inv (State.setSlot_inv hs c (Ctx.destroy_inv (hs.contexts _ x hx)))
  | keccakP rounds src dst =>
    obtain ⟨-, hr, rfl⟩ := h
    exact State.advance_inv (State.engineStore_inv_of_rangeOK (State.engineRead_inv hs _ _) hr (by simp))

theorem exec_inv {i : Instr} {s t : State} (hs : s.Inv) (h : exec i s = .next t) : t.Inv := by
  rcases exec_cases h with h | ⟨e, rfl⟩
  · exact h.inv hs
  · exact State.raise_inv hs e

theorem engineTurn_inv {s t : State} (hs : s.Inv) (h : engineTurn s = .next t) : t.Inv := by
  unfold engineTurn at h
  split at h
  · have hr := State.engineRead_inv hs s.cp.toNat 32
    rcases State.fetch_eq_next h with ⟨i, -, h⟩ | ⟨e, rfl⟩ | ⟨e, rfl⟩
    · exact exec_inv hr h
    · exact State.raise_inv hs e
    · exact State.raise_inv hr e
  · cases h; exact hs

/-! ## The turns of the host and of the platform -/

/-- What a write to CP stores is aligned (10 R26). -/
theorem cpOf_aligned (w : Word) : cpOf w &&& 3 = 0 := by
  rw [cpOf, BitVec.and_assoc, show (0xFFFFFFFC : Word) &&& 3 = 0 by decide]
  exact BitVec.and_zero

/-- START leaves no error recorded (45 R270). -/
theorem State.start_inv {s : State} (h : s.Inv) : s.start.Inv :=
  ⟨h.slots, h.cp, BitVec.zero_and, fun _ => ⟨rfl, rfl⟩, fun he => absurd he Bool.false_ne_true, fun _ => rfl, h.contexts,
    h.memory, h.bounded⟩

theorem State.writeCp_inv {s : State} (h : s.Inv) (w : Word) : State.Inv { s with cp := cpOf w } :=
  ⟨h.slots, cpOf_aligned w, h.errcp, h.noError, h.error, h.running, h.contexts, h.memory, h.bounded⟩

theorem State.storeRegister_inv {s : State} (h : s.Inv) (off : Nat) (w : Word) : (s.storeRegister off w).Inv := by
  unfold State.storeRegister
  split
  · split
    · exact State.start_inv h
    · exact h
  · split
    · exact h
    · exact State.writeCp_inv h w
  · exact h

/-- Admitted bytes are inside the address space (20 R60). -/
theorem Config.allOK_bound {c : Config} {a n : Nat} (h : c.allOK a n = true) : n = 0 ∨ a + n ≤ addrSpace := by
  rcases n with _ | n
  · exact .inl rfl
  · have hm := (Config.allOK_iff c a (n + 1)).1 h n (by omega)
    simp only [Config.memOK, Bool.and_eq_true, decide_eq_true_eq] at hm
    exact .inr (by omega)

theorem State.hostPut_inv {s : State} (h : s.Inv) {a : Nat} {data : List Byte} (hok : s.cfg.allOK a data.length = true) :
    (s.hostPut a data).Inv := by
  have hb : (s.mem.writeBytes a data).bounded = true := by
    rcases Config.allOK_bound hok with h0 | ha
    · rw [List.eq_nil_of_length_eq_zero h0]
      exact h.bounded
    · exact Memory.writeBytes_bounded data ha h.bounded
  exact ⟨h.slots, h.cp, h.errcp, h.noError, h.error, h.running, h.contexts, Memory.writeBytes_wf data a h.memory, hb⟩

theorem State.hostLoad_inv {s t : State} (hs : s.Inv) {a n : Nat} {ahead : Nat → State}
    (h : s.hostLoad a n ahead = .next t) : t.Inv := by
  rcases State.hostAccess_eq_next h with ⟨off, -, rfl⟩ | ⟨-, -, rfl⟩
  · exact hs.bookkeeping ..
  · exact hs.bookkeeping ..

theorem State.hostStore_inv {s t : State} (hs : s.Inv) {a : Nat} {data : List Byte}
    (h : s.hostStore a data = .next t) : t.Inv := by
  rcases State.hostAccess_eq_next h with ⟨off, -, rfl⟩ | ⟨hok, -, rfl⟩
  · exact State.storeRegister_inv hs off _
  · exact State.hostPut_inv hs hok

/-- Right after reset only the number of slots and memory are left to meet the invariant (70 R340). -/
theorem State.resetWith_inv {n : Nat} (hn : 1 ≤ n ∧ n ≤ 255) (cfg : Config) {m : Memory} (hw : m.wf = true)
    (hb : m.bounded = true) : State.Inv { State.resetWith n cfg with mem := m } where
  slots := by simpa [State.resetWith] using hn
  cp := BitVec.zero_and
  errcp := BitVec.zero_and
  noError := fun _ => ⟨rfl, rfl⟩
  error := fun he => absurd he Bool.false_ne_true
  running := fun _ => rfl
  contexts := fun c x hx => by simp [State.resetWith, List.getElem?_replicate] at hx
  memory := hw
  bounded := hb

/-- Reset merges memory with what the command in progress would have left, which lists only 32-bit addresses (70 R341). -/
theorem State.resetEvent_inv {s : State} (h : s.Inv) {command : Out} (hc : ∀ t, command = .next t → t.Inv) :
    (s.resetEvent command).Inv := by
  have hk := State.resetWith_inv h.slots s.cfg h.memory h.bounded
  unfold State.resetEvent
  split
  · split
    · next t =>
      have hb := Memory.blend_bounded s.draws h.bounded (hc t rfl).bounded
      exact (State.resetWith_inv h.slots s.cfg (Memory.blend_wf s.draws t.mem h.memory) hb).bookkeeping ..
    · exact hk.bookkeeping ..
  · exact hk.bookkeeping ..

theorem hostTurn_inv {u : HostTurn} {s t : State} (hs : s.Inv) (h : hostTurn u s = .next t) : t.Inv := by
  cases u with
  | engine => exact engineTurn_inv hs h
  | load a n => exact State.hostLoad_inv hs h
  | store a data => exact State.hostStore_inv hs h
  | reset => cases h; exact State.resetEvent_inv hs fun _ ht => engineTurn_inv hs ht

theorem step_inv {s t : State} (hs : s.Inv) (h : step s = .next t) : t.Inv := by
  unfold step at h
  split at h
  · exact engineTurn_inv hs h
  · exact hostTurn_inv (hs.bookkeeping ..) h

/-- Settles O58: each turn of the engine, the host and the platform keeps the invariant. -/
theorem stepKeepsInvariant : Obligations.StepKeepsInvariant :=
  fun _ _ hs h => step_inv hs h

end Sys2Proof.Machine
end

section
/-!
PROOF. What every command leaves alone (10_state.md rules R23, R28, R29, R31-R33, R35, R39; 45_control_commands.md rule R276): the
registers and the host's side of the machine, and what a slot keeps of the fields INIT gave it.
-/

namespace Sys2Proof.Machine

/-! ## Registers and the host's fields -/

/-- What a command changes only at its end, or not at all: STATUS, ERRCODE, ERRCP, CP, and the host's turns, data and stores. -/
def State.frame (s : State) : (Bool × Bool × Word × Word × Word) × List HostTurn × List Byte × AddrSet :=
  ((s.busy, s.err, s.errcode, s.errcp, s.cp), s.pending, s.hostData, s.sync.hostWrote)

@[simp] theorem State.setSlot_frame (s : State) (c : Byte) (x : Ctx) : (s.setSlot c x).frame = s.frame := rfl

@[simp] theorem State.engineRead_frame (s : State) (a n : Nat) : (s.engineRead a n).frame = s.frame := rfl

@[simp] theorem State.engineStore_frame (s : State) (a : Nat) (d : List Byte) : (s.engineStore a d).frame = s.frame := by
  simp [State.frame]

@[simp] theorem State.optRead_frame (s : State) (r : OptRange) : (s.optRead r).frame = s.frame := by
  unfold State.optRead
  split <;> rfl

/-- A command other than HALT completes by moving CP on from a state in which no register has changed. -/
theorem Completed.eq_advance {i : Instr} {s t : State} (h : Completed i s t) (hi : i ≠ .halt) :
    ∃ u : State, u.frame = s.frame ∧ t = u.advance := by
  cases i with
  | halt => exact absurd rfl hi
  | nop => exact ⟨s, rfl, h⟩
  | initSponge => obtain ⟨-, -, -, -, rfl⟩ := h; exact ⟨_, by simp, rfl⟩
  | initBlake2s => obtain ⟨-, -, -, rfl⟩ := h; exact ⟨_, by simp, rfl⟩
  | initBlake2b => obtain ⟨-, -, -, rfl⟩ := h; exact ⟨_, by simp, rfl⟩
  | update => obtain ⟨x, -, -, -, -, rfl⟩ := h; exact ⟨_, by simp, rfl⟩
  | digest => obtain ⟨x, -, -, -, -, rfl⟩ := h; exact ⟨_, by simp, rfl⟩
  | digestInto => obtain ⟨x, -, -, -, -, -, rfl⟩ := h; exact ⟨_, by simp, rfl⟩
  | xof => obtain ⟨x, -, -, -, -, rfl⟩ := h; exact ⟨_, by simp, rfl⟩
  | clone => obtain ⟨x, -, -, -, -, rfl⟩ := h; exact ⟨_, by simp, rfl⟩
  | destroy => obtain ⟨x, -, rfl⟩ := h; exact ⟨_, by simp, rfl⟩
  | keccakP => obtain ⟨-, -, rfl⟩ := h; exact ⟨_, by simp, rfl⟩

/-- A completed command moves CP on, and HALT alone clears BUSY (10 R31, 45 R273). -/
theorem Completed.frame {i : Instr} {s t : State} (h : Completed i s t) :
    t.frame = ((s.busy && decide (i ≠ .halt), s.err, s.errcode, s.errcp, s.cp + 32), s.frame.2) := by
  by_cases hi : i = .halt
  · subst hi
    obtain rfl : t = { s.advance with busy := false } := h
    simp [State.frame]
  · obtain ⟨u, hu, rfl⟩ := h.eq_advance hi
    simp only [State.frame, Prod.mk.injEq] at hu
    simp [State.frame, hu, hi]

/-- Settles O30: by `exec_cases` a command has completed or raised an error, and an error leaves the host's fields alone. -/
theorem commandsFrameTheRegisters : Obligations.CommandsFrameTheRegisters := by
  intro i s t h
  obtain ⟨hcfg, hnctx⟩ := exec_sameParameters h
  rcases exec_cases h with h | ⟨e, rfl⟩
  · have hf := h.frame
    simp only [State.frame, Prod.mk.injEq] at hf
    obtain ⟨⟨hbusy, herr, herrcode, herrcp, hcp⟩, hpending, hdata, hwrote⟩ := hf
    exact ⟨hcfg, hnctx, hpending, hdata, hwrote, .inl ⟨hcp, herr, herrcode, herrcp, hbusy⟩⟩
  · exact ⟨hcfg, hnctx, rfl, rfl, rfl, .inr ⟨e, rfl⟩⟩

/-! ## Slots -/

/-- `y` is what a command that neither INITs a slot nor clones into it may leave of `x`: KIND and parameters kept, FINISHED and
DESTROYED not cleared (10 R32, R33, R35, R37, R39). -/
structure Ctx.SameInstance (x y : Ctx) : Prop where
  kind      : Slot.kind (some y) = Slot.kind (some x)
  outlen    : y.outlen = x.outlen
  finished  : x.finished = true → y.finished = true
  destroyed : x.destroyed = true → y.destroyed = true
  sponge    : ∀ u w, x = .sponge u → y = .sponge w →
    w.rate = u.rate ∧ w.suffix = u.suffix ∧ w.rounds = u.rounds ∧ w.xof = u.xof

theorem SpongeCtx.sameInstance {u w : SpongeCtx} (hp : w.params = u.params) (hf : u.finished = true → w.finished = true)
    (hd : u.destroyed = true → w.destroyed = true) : Ctx.SameInstance (.sponge u) (.sponge w) := by
  simp only [SpongeCtx.params, Prod.mk.injEq] at hp
  obtain ⟨hrate, hsuffix, hrounds, hxof, houtlen⟩ := hp
  refine ⟨rfl, houtlen, hf, hd, ?_⟩
  rintro _ _ ⟨⟩ ⟨⟩
  exact ⟨hrate, hsuffix, hrounds, hxof⟩

theorem Blake2Ctx.sameInstance {v : Variant} {u w : Blake2Ctx v} (ho : w.outlen = u.outlen)
    (hf : u.finished = true → w.finished = true) (hd : u.destroyed = true → w.destroyed = true) :
    Ctx.SameInstance (.blake2 v u) (.blake2 v w) := by
  refine ⟨?_, ho, hf, hd, ?_⟩
  · cases v <;> rfl
  · rintro _ _ ⟨⟩

theorem Ctx.SameInstance.refl (x : Ctx) : x.SameInstance x := by
  cases x with
  | sponge u => exact SpongeCtx.sameInstance rfl id id
  | blake2 v u => exact Blake2Ctx.sameInstance rfl id id

theorem Ctx.absorb_sameInstance (x : Ctx) (data : List Byte) : x.SameInstance (x.absorb data) := by
  cases x with
  | sponge u => exact SpongeCtx.sameInstance (u.absorb_params data) (u.absorb_finished data).trans (u.absorb_destroyed data).trans
  | blake2 v u =>
    obtain ⟨ho, hf, hd, -⟩ := u.update_fixed data
    exact Blake2Ctx.sameInstance ho hf.trans hd.trans

theorem Ctx.destroy_sameInstance (x : Ctx) : x.SameInstance x.destroy := by
  cases x with
  | sponge u => exact SpongeCtx.sameInstance rfl id fun _ => rfl
  | blake2 v u => exact Blake2Ctx.sameInstance rfl id fun _ => rfl

theorem Ctx.squeeze_sameInstance (x : Ctx) (n : Nat) : x.SameInstance (x.squeeze n).2 := by
  cases x with
  | sponge u =>
    exact SpongeCtx.sameInstance (u.squeeze_params n) (fun _ => u.squeeze_finished n) (u.squeeze_destroyed n).trans
  | blake2 v u => exact .refl _

theorem Ctx.digest_sameInstance (x : Ctx) : x.SameInstance x.digest.2 := by
  cases x with
  | sponge u =>
    exact SpongeCtx.sameInstance (u.squeeze_params _) (fun _ => u.squeeze_finished _) fun _ => rfl
  | blake2 v u => exact Blake2Ctx.sameInstance rfl (fun _ => rfl) fun _ => rfl

theorem Ctx.digestInto_sameInstance (x : Ctx) (n : Nat) : x.SameInstance (x.digestInto n).2 := by
  cases x with
  | sponge u =>
    exact SpongeCtx.sameInstance (u.squeeze_params _) (fun _ => u.squeeze_finished _) fun _ => rfl
  | blake2 v u => exact Blake2Ctx.sameInstance rfl (fun _ => rfl) id

@[simp] theorem State.optRead_ctx (s : State) (r : OptRange) : (s.optRead r).ctx = s.ctx := by
  unfold State.optRead
  split <;> rfl

/-- What a completed command does to the slots: nothing, or it writes slot `changedSlot`, which keeps KIND and parameters unless
the command is an INIT of it or a CLONE into it. -/
theorem Completed.ctx_cases {i : Instr} {s t : State} (h : Completed i s t) :
    t.ctx = s.ctx ∨ ∃ (c : Byte) (y : Ctx), changedSlot i = some c ∧ t.ctx = s.ctx.set c.toNat (some y) ∧
      (replacesSlot i c ∨ ∃ x, s.Holds c x ∧ x.SameInstance y) := by
  cases i with
  | halt => subst h; exact .inl rfl
  | nop => subst h; exact .inl rfl
  | initSponge c => obtain ⟨-, -, -, -, rfl⟩ := h; exact .inr ⟨c, _, rfl, rfl, .inl rfl⟩
  | initBlake2s c =>
    obtain ⟨-, -, -, rfl⟩ := h
    exact .inr ⟨c, _, rfl, congrArg (List.set · _ _) (by simp), .inl rfl⟩
  | initBlake2b c =>
    obtain ⟨-, -, -, rfl⟩ := h
    exact .inr ⟨c, _, rfl, congrArg (List.set · _ _) (by simp), .inl rfl⟩
  | update c =>
    obtain ⟨x, hx, -, -, -, rfl⟩ := h
    exact .inr ⟨c, _, rfl, rfl, .inr ⟨x, hx, x.absorb_sameInstance _⟩⟩
  | digest c =>
    obtain ⟨x, hx, -, -, -, rfl⟩ := h
    exact .inr ⟨c, _, rfl, rfl, .inr ⟨x, hx, x.digest_sameInstance⟩⟩
  | digestInto c =>
    obtain ⟨x, hx, -, -, -, -, rfl⟩ := h
    exact .inr ⟨c, _, rfl, rfl, .inr ⟨x, hx, x.digestInto_sameInstance _⟩⟩
  | xof c =>
    obtain ⟨x, hx, -, -, -, rfl⟩ := h
    exact .inr ⟨c, _, rfl, rfl, .inr ⟨x, hx, x.squeeze_sameInstance _⟩⟩
  | clone src dst => obtain ⟨x, -, -, -, -, rfl⟩ := h; exact .inr ⟨dst, _, rfl, rfl, .inl rfl⟩
  | destroy c =>
    obtain ⟨x, hx, rfl⟩ := h
    exact .inr ⟨c, _, rfl, rfl, .inr ⟨x, hx, x.destroy_sameInstance⟩⟩
  | keccakP => obtain ⟨-, -, rfl⟩ := h; exact .inl rfl

/-- The slot a command writes is occupied after it; every other slot, and every slot after an error, is as before. -/
theorem exec_holds_sameInstance {i : Instr} {s t : State} {c : Byte} {x : Ctx} (h : exec i s = .next t) (hx : s.Holds c x) :
    ∃ y, t.Holds c y ∧ (¬ replacesSlot i c → x.SameInstance y) := by
  have same (ht : t.ctx = s.ctx) : ∃ y, t.Holds c y ∧ (¬ replacesSlot i c → x.SameInstance y) :=
    ⟨x, (congrArg (·[c.toNat]?) ht).trans hx, fun _ => .refl x⟩
  rcases exec_cases h with h | ⟨e, rfl⟩
  · rcases h.ctx_cases with ht | ⟨d, y, -, ht, hy⟩
    · exact same ht
    · by_cases hd : d = c
      · subst hd
        refine ⟨y, by rw [State.Holds, ht, List.getElem?_set_self (State.lt_nctx_of_some hx)], fun hr => ?_⟩
        obtain ⟨x', hx', hy⟩ := hy.resolve_left hr
        cases hx.symm.trans hx'
        exact hy
      · have hne : d.toNat ≠ c.toNat := fun e => hd (BitVec.eq_of_toNat_eq e)
        exact ⟨x, by rw [State.Holds, ht, List.getElem?_set_ne hne]; exact hx, fun _ => .refl x⟩
  · exact same rfl

/-- Settles O31: the slot a command writes keeps KIND and parameters unless `replacesSlot` says otherwise. -/
theorem slotsKeepKindAndParameters : Obligations.SlotsKeepKindAndParameters := by
  intro i s t c x h hx
  obtain ⟨y, hy, hs⟩ := exec_holds_sameInstance h hx
  refine ⟨y, hy, fun hr => ?_⟩
  obtain ⟨hkind, houtlen, hfinished, hdestroyed, hsponge⟩ := hs hr
  exact ⟨hkind, houtlen, hfinished, hdestroyed, hsponge⟩

end Sys2Proof.Machine
end

section
/-!
PROOF. The register block as the host sees it (10_state.md rules R24-R30; 45_control_commands.md rule R278): what a load of each
register reads, that a store changes nothing but CP and CTRL, and that any other access to the block is refused.
-/

namespace Sys2Proof.Machine

/-! ## Loads -/

theorem State.status_eq (s : State) : s.status = BitVec.ofNat 32 (s.busy.toNat + 2 * s.err.toNat) := by
  rw [State.status]
  generalize s.busy = busy
  generalize s.err = err
  revert busy err
  decide

theorem State.caps_toNat {s : State} (h : s.nctx ≤ 255) : s.caps.toNat = s.nctx := by
  have hn : s.nctx < 256 := Nat.lt_succ_of_le h
  calc s.caps.toNat
    _ = (0 : BitVec 24).toNat <<< 8 ||| (BitVec.ofNat 8 s.nctx).toNat := BitVec.toNat_append ..
    _ = s.nctx := by simpa using hn

theorem State.cpSeen_idle {s : State} (h : s.busy = false) : s.cpSeen = s.cp := by
  simp [State.cpSeen, h]

/-- The host reads the address of the command being executed or of the next (45 R278). -/
theorem State.cpSeen_cases (s : State) : s.cpSeen = s.cp ∨ s.cpSeen = s.cp + 32 := by
  unfold State.cpSeen
  split
  · exact .inr rfl
  · exact .inl rfl

/-- CTRL and the registers from offset 0x18 on read 0 (10 R24, R25). -/
theorem State.readRegister_zero (s : State) {k : Fin 16} (h : k = 0 ∨ 6 ≤ k.val) : s.readRegister (4 * k.val) = 0 := by
  unfold State.readRegister
  split <;> [omega; omega; omega; omega; omega; rfl]

/-- Settles O49: a load reaches its register, and each register reads its field. -/
theorem registerLoadsReadTheirFields : Obligations.RegisterLoadsReadTheirFields := by
  intro s k
  refine ⟨s.loadRegister (4 * k.val), s.readRegister (4 * k.val), s.hostAccess_register k _ _, rfl,
    ?status, ?cpIdle, ?cpBusy, ?errcode, ?errcp, ?caps, s.readRegister_zero, rfl, rfl, rfl, rfl, rfl, rfl, rfl⟩
  case status => rintro rfl; exact s.status_eq
  case cpIdle => rintro rfl hb; exact State.cpSeen_idle hb
  case cpBusy => rintro rfl -; exact s.cpSeen_cases
  case errcode => rintro rfl; rfl
  case errcp => rintro rfl; rfl
  case caps => rintro rfl hn; exact State.caps_toNat hn

/-! ## Stores -/

/-- A store of a word to a register is a 32-bit access, and the register gets that word (20 R64). -/
theorem State.hostStore_register (s : State) (k : Fin 16) (v : Word) :
    s.hostStore (s.cfg.mmioBase + 4 * k.val) (leBytes v) = .next (s.storeRegister (4 * k.val) v) := by
  have hv : leWord 32 (leBytes v) = v := leWord_leBytes (n := 4) v
  have hn : (leBytes v).length = 4 := by simp [leBytes]
  rw [State.hostStore, hn, State.hostAccess_register, hv]

/-- Only CTRL, and CP while BUSY = 0, take what is stored (10 R24-R26). -/
theorem State.storeRegister_ignored {s : State} {k : Fin 16} (h0 : k ≠ 0) (h : k ≠ 2 ∨ s.busy = true) (v : Word) :
    s.storeRegister (4 * k.val) v = s := by
  unfold State.storeRegister
  split
  · omega
  · rw [if_pos (h.resolve_left (not_not_intro (by omega)))]
  · rfl

/-- Settles O50: CP is written while BUSY = 0, and every other store but that to CTRL is ignored. -/
theorem registerStoresWriteOnlyCp : Obligations.RegisterStoresWriteOnlyCp := by
  intro s k v h0
  refine ⟨fun _ hb => ?_, fun h => ?_⟩
  · have hw : s.storeRegister 8 v = { s with cp := cpOf v } := by simp [State.storeRegister, hb]
    exact (s.hostStore_register 2 v).trans (congrArg _ hw)
  · rw [State.hostStore_register, State.storeRegister_ignored h0 h]

/-! ## Other accesses to the block -/

/-- Bytes one of which stands in the register block touch it. -/
theorem Config.touchesBlock_of_byte {c : Config} {a n : Nat}
    (h : ∃ k < n, c.mmioBase ≤ a + k ∧ a + k < c.mmioBase + 64) : c.touchesBlock a n = true := by
  obtain ⟨k, hk, hlo, hhi⟩ := h
  simp only [Config.touchesBlock, Bool.and_eq_true, decide_eq_true_eq]
  omega

/-- Only an aligned 32-bit access names a register (10 R24). -/
theorem Config.registerAt_eq_none {c : Config} {a n : Nat} (h : ¬ (n = 4 ∧ ∃ j < 16, a = c.mmioBase + 4 * j)) :
    c.registerAt a n = none := by
  unfold Config.registerAt
  refine if_neg fun ⟨hn, hlo, hhi, hal⟩ => h ⟨hn, (a - c.mmioBase) / 4, ?_, ?_⟩
  · omega
  · omega

theorem State.hostAccess_odd {s : State} {a n : Nat} (ht : ∃ k < n, s.cfg.mmioBase ≤ a + k ∧ a + k < s.cfg.mmioBase + 64)
    (hr : ¬ (n = 4 ∧ ∃ j < 16, a = s.cfg.mmioBase + 4 * j)) (register : Nat → State) (memory : State) :
    s.hostAccess a n register memory = .refused .hostRegisterAccess := by
  simp [State.hostAccess, Config.touchesBlock_of_byte ht, Config.registerAt_eq_none hr]

/-- Settles O51: an access that touches the block and names no register is refused, load and store. -/
theorem oddRegisterAccessRefused : Obligations.OddRegisterAccessRefused :=
  fun _ _ _ ht hr => ⟨State.hostAccess_odd ht hr _ _, State.hostAccess_odd ht hr _ _⟩

end Sys2Proof.Machine
end

section
/-!
PROOF. Lanes and bytes (40_keccak.md rule R130): a lane is the little-endian number of its eight bytes (20_memory.md rule R64),
and the 25 lanes and the 200 bytes determine each other.
-/

namespace Sys2Proof

/-! ## Numbers and their bytes, for any number of bytes -/

theorem leNat_lt (bs : List Byte) : leNat bs < 2 ^ (8 * bs.length) := by
  induction bs with
  | nil => simp [leNat]
  | cons b bs ih =>
    have hb := b.isLt
    rw [leNat, List.length_cons, Nat.mul_succ, Nat.pow_add]
    omega

/-- Byte k of the number of some bytes is the k-th of them. -/
theorem leNat_div_mod (bs : List Byte) {k : Nat} (hk : k < bs.length) : leNat bs / 2 ^ (8 * k) % 256 = bs[k].toNat := by
  induction bs generalizing k with
  | nil => simp at hk
  | cons b bs ih =>
    have hb := b.isLt
    cases k with
    | zero =>
      simp only [leNat, List.getElem_cons_zero, Nat.mul_zero, Nat.pow_zero, Nat.div_one]
      omega
    | succ k =>
      have hp : 2 ^ (8 * (k + 1)) = 256 * 2 ^ (8 * k) := by rw [Nat.mul_succ, Nat.pow_add, Nat.mul_comm]
      have hd : (b.toNat + 256 * leNat bs) / 256 = leNat bs := by omega
      rw [leNat, hp, ← Nat.div_div_eq_div_mul, hd, List.getElem_cons_succ]
      exact ih (by simpa using hk)

/-- The number of a word that bytes assemble to is the number of the bytes. -/
theorem leWord_toNat {n : Nat} {bs : List Byte} (hn : bs.length = n) : (leWord (8 * n) bs).toNat = leNat bs := by
  subst hn
  rw [leWord, BitVec.toNat_ofNat, Nat.mod_eq_of_lt (leNat_lt bs)]

/-- A byte of the word that bytes assemble to is that byte. -/
theorem leByte_leWord {n : Nat} {bs : List Byte} (hn : bs.length = n) {k : Nat} (hk : k < bs.length) :
    leByte (leWord (8 * n) bs) k = bs[k] := by
  apply BitVec.eq_of_toNat_eq
  rw [leByte_eq, leWord_toNat hn, BitVec.toNat_ofNat]
  exact leNat_div_mod bs hk

end Sys2Proof

namespace Sys2Proof.Machine

/-- The eight bytes of lane i (40 R130). -/
def laneBytes (s : Vector Byte 200) (i : Nat) : List Byte := (s.toList.drop (8 * i)).take 8

theorem laneBytes_length (s : Vector Byte 200) {i : Nat} (hi : i < 25) : (laneBytes s i).length = 8 := by
  simp only [laneBytes, List.length_take, List.length_drop, Vector.length_toList]
  omega

theorem laneBytes_getElem (s : Vector Byte 200) {i k : Nat} (hi : i < 25) (hk : k < 8) :
    (laneBytes s i)[k]'((laneBytes_length s hi).symm ▸ hk) = s[8 * i + k] := by
  simp [laneBytes]

/-- A lane is assembled from its eight bytes. -/
theorem lanesOf_getElem (s : Vector Byte 200) {i : Nat} (hi : i < 25) : (lanesOf s)[i] = leWord 64 (laneBytes s i) := by
  rw [lanesOf, Vector.getElem_ofFn]
  congr 1
  refine List.ext_getElem (laneBytes_length s hi).symm fun k hk _ => ?_
  have hk8 : k < 8 := hk
  rw [laneBytes_getElem s hi hk8]
  interval_cases k <;> rfl

/-- The eight bytes of a lane are those the lane splits into. -/
theorem laneBytes_bytesOfLanes (a : Lanes) {i : Nat} (hi : i < 25) : laneBytes (bytesOfLanes a) i = leBytes a[i] := by
  refine List.ext_getElem ((laneBytes_length _ hi).trans (by simp [leBytes])) fun k hk _ => ?_
  have hk8 : k < 8 := (laneBytes_length (bytesOfLanes a) hi) ▸ hk
  have hd : (8 * i + k) / 8 = i := by omega
  have hm : (8 * i + k) % 8 = k := by omega
  rw [laneBytes_getElem _ hi hk8]
  simp [bytesOfLanes, leBytes, hd, hm]

theorem bytesOfLanes_lanesOf (s : Vector Byte 200) : bytesOfLanes (lanesOf s) = s := by
  refine Vector.ext fun j hj => ?_
  have hi : j / 8 < 25 := by omega
  have hk : j % 8 < 8 := by omega
  have hl := laneBytes_length s hi
  calc (bytesOfLanes (lanesOf s))[j]
    _ = leByte (lanesOf s)[j / 8] (j % 8) := by simp [bytesOfLanes]
    _ = leByte (leWord 64 (laneBytes s (j / 8))) (j % 8) := by rw [lanesOf_getElem s hi]
    _ = (laneBytes s (j / 8))[j % 8] := leByte_leWord (n := 8) hl (hl.symm ▸ hk)
    _ = s[8 * (j / 8) + j % 8] := laneBytes_getElem s hi hk
    _ = s[j] := by congr 1; omega

theorem lanesOf_bytesOfLanes (a : Lanes) : lanesOf (bytesOfLanes a) = a := by
  refine Vector.ext fun i hi => ?_
  rw [lanesOf_getElem _ hi, laneBytes_bytesOfLanes a hi]
  exact leWord_leBytes (n := 8) a[i]

/-- Settles O37: a lane is `leWord` of its eight bytes, and words and their bytes determine each other. -/
theorem lanesAreLittleEndian : Obligations.LanesAreLittleEndian := by
  refine ⟨fun s i => ?_, bytesOfLanes_lanesOf, lanesOf_bytesOfLanes⟩
  rw [lanesOf_getElem s i.isLt]
  exact leWord_toNat (n := 8) (laneBytes_length s i.isLt)

end Sys2Proof.Machine
end

section
/-!
PROOF. How a fetch fails (45_control_commands.md rules R271, R272; 30_encoding.md rule R95): a descriptor that is not admitted,
that does not decode, or that lies on the register block or a device (20_memory.md rules R61, R70).
-/

namespace Sys2Proof.Machine

theorem State.fetch_of_unadmitted {s : State} (h : s.rangeOK s.cp 32 = false) (rest : Instr → State → Out) :
    s.fetch rest = .next (s.raise (.memoryFault .descFetch)) := by
  simp [State.fetch, h]

theorem State.fetch_of_barred {s : State} {r : Refusal} (h : s.rangeOK s.cp 32 = true)
    (hb : s.cfg.barredRange s.cp.toNat 32 = some r) (rest : Instr → State → Out) : s.fetch rest = .refused r := by
  simp [State.fetch, h, hb]

theorem State.fetch_of_error {s : State} {e : DecodeError} (h : s.Plain s.cp 32) (hd : decode s.descBytes = .error e)
    (rest : Instr → State → Out) :
    s.fetch rest = .next ((s.engineRead s.cp.toNat 32).raise (.illegalCommand e)) := by
  simp [State.fetch, h.1, h.2, hd]

/-- A range that passes the top of the address space is not admitted (20 R62). -/
theorem State.rangeOK_of_overflow {s : State} {a : Word} {n : Nat} (hn : n ≠ 0) (h : 2 ^ 32 < a.toNat + n) :
    s.rangeOK a n = false := by
  rw [← Bool.not_eq_true, State.rangeOK, Config.rangeOK_iff]
  rintro (h0 | ⟨hle, -⟩)
  · exact hn h0
  · exact absurd hle (Nat.not_le.2 h)

/-- When it is the running engine's turn, a step is its fetch. -/
theorem step_fetch {s : State} (hb : s.busy = true) (hp : s.pending = [] ∨ s.pending.head? = some .engine) :
    step s = State.fetch { s with pending := s.pending.tail } exec := by
  rw [step_engine hp, engineTurn, if_pos hb]

/-- Settles O7: the step is the engine's fetch, which fails in these four ways. -/
theorem fetchFailuresStopTheRun : Obligations.FetchFailuresStopTheRun := by
  intro s hb hp s'
  rw [step_fetch hb hp]
  have hr : s'.rangeOK s'.cp 32 = s.rangeOK s.cp 32 := rfl
  refine ⟨fun h => ?_, fun h => ?_, fun e h hd => ?_, fun r h hb => ?_⟩
  · exact State.fetch_of_unadmitted (hr.trans h) _
  · have ho : s.rangeOK s.cp 32 = false := State.rangeOK_of_overflow (by decide) h
    exact State.fetch_of_unadmitted (hr.trans ho) _
  · exact State.fetch_of_error (s := s') ⟨hr.trans h.1, h.2⟩ hd _
  · exact State.fetch_of_barred (hr.trans h) hb _

end Sys2Proof.Machine
end

section
/-!
PROOF. What the engine reads (20_memory.md rules R70, R73, R74): memory's bytes where the host races for none of them, so the
bytes it stored itself and those the host stored before START; any value where the host stores during the run.
-/

namespace Sys2Proof.Machine

/-! ## Reading bytes nobody races for -/

@[simp] theorem Memory.bytes_length (m : Memory) (a n : Nat) : (m.bytes a n).length = n := by
  simp [Memory.bytes]

@[simp] theorem Memory.bytes_getElem (m : Memory) (a n j : Nat) (h : j < (m.bytes a n).length) :
    (m.bytes a n)[j] = m.read (a + j) := by
  simp [Memory.bytes]

/-- Bytes just written are the bytes memory holds. -/
theorem Memory.bytes_writeBytes (m : Memory) (a : Nat) (data : List Byte) :
    (m.writeBytes a data).bytes a data.length = data := by
  refine List.ext_getElem (by simp) fun j _ hj => ?_
  rw [Memory.bytes_getElem, Memory.read_writeBytes_inside data m a j hj]

theorem State.engineBytes_of_unraced {s : State} {a n : Nat} (h : s.Unraced a n) (k : Nat) :
    s.engineBytes k a n = s.mem.bytes a n := by
  refine List.ext_getElem (by simp) fun j hj _ => ?_
  obtain ⟨hw, hr⟩ := h j (by simpa using hj)
  rw [State.engineBytes_getElem, Memory.bytes_getElem, State.engineByte_quiet k hw hr]

/-- A byte the host races for reads as any value (20 R73). -/
theorem State.engineByte_of_raced {s : State} {a : Nat} (h : a ∈ s.sync.hostWrote ∨ a ∈ s.sync.raced) (k : Nat) :
    s.engineByte k a = Config.engineRaceByte s.draws k a := by
  rcases h with h | h <;> simp [State.engineByte, h]

/-- A descriptor is read as any other 32 bytes are, in access number 0. -/
theorem State.descBytes_toList (s : State) : s.descBytes.toList = s.engineBytes 0 s.cp.toNat 32 := by
  refine List.ext_getElem (by simp) fun j hj _ => ?_
  rw [State.engineBytes_getElem]
  simp [State.descBytes]

/-- Settles O22: byte by byte, for ranges and for the descriptor at CP. -/
theorem engineReadsMemoryUnlessRaced : Obligations.EngineReadsMemoryUnlessRaced := by
  intro s k a n
  exact ⟨fun h => State.engineBytes_of_unraced h k,
    fun h => s.descBytes_toList.trans (State.engineBytes_of_unraced h 0),
    fun h => State.engineByte_of_raced h k⟩

/-! ## Reading back engine stores -/

/-- An engine store leaves no race on the bytes it writes but those the host stored during the run. -/
theorem State.engineStore_unraced {s : State} {a : Nat} {data : List Byte}
    (h : ∀ j < data.length, a + j ∉ s.sync.hostWrote) : (s.engineStore a data).Unraced a data.length := by
  intro j hj
  have hin : a ≤ a + j ∧ a + j < a + data.length := by omega
  constructor
  · simpa using h j hj
  · rw [State.engineStore_sync, Sync.mem_engineWrites_raced, if_pos hin]
    exact h j hj

theorem State.engineBytes_engineStore {s : State} {a : Nat} {data : List Byte}
    (h : ∀ j < data.length, a + j ∉ s.sync.hostWrote) (k : Nat) :
    (s.engineStore a data).engineBytes k a data.length = data := by
  rw [State.engineBytes_of_unraced (State.engineStore_unraced h), State.engineStore_mem, Memory.bytes_writeBytes]

/-- Settles O23: the bytes stored are unraced and read back, a descriptor at CP among them. -/
theorem engineReadsBackItsWrites : Obligations.EngineReadsBackItsWrites := by
  intro s k a data h
  refine ⟨State.engineBytes_engineStore h k, fun ha hn => ?_⟩
  rw [State.descBytes_toList, State.engineStore_cp, ← ha, ← hn]
  exact State.engineBytes_engineStore h 0

/-! ## Host stores -/

theorem State.hostStore_plain {s : State} {a : Word} {data : List Byte} (h : s.Plain a data.length) :
    s.hostStore a.toNat data = .next (s.hostPut a.toNat data) :=
  State.hostAccess_plain h _ _

/-- The bytes the host stores during a run are added to those it has stored in it. -/
theorem Sync.mem_hostWrites_busy_hostWrote (y : Sync) (a n k : Nat) :
    k ∈ (Sync.hostWrites true y a n).hostWrote ↔ k ∈ y.hostWrote ∨ (a ≤ k ∧ k < a + n) := by
  induction n generalizing y a with
  | zero => simp [Sync.hostWrites]
  | succ n ih =>
    have hone : k ∈ (y.hostWrite true a).hostWrote ↔ k = a ∨ k ∈ y.hostWrote := by
      by_cases hw : a ∈ y.engineWrote <;> simp [Sync.hostWrite, Sync.settle, hw, AddrSet.mem_insert]
    have hsplit : (a ≤ k ∧ k < a + (n + 1)) ↔ k = a ∨ (a + 1 ≤ k ∧ k < a + 1 + n) := by omega
    rw [Sync.hostWrites, ih, hone, hsplit]
    tauto

@[simp] theorem Sync.hostWrite_engineWrote (y : Sync) (busy : Bool) (a : Nat) :
    (y.hostWrite busy a).engineWrote = y.engineWrote := by
  unfold Sync.hostWrite
  split_ifs <;> rfl

/-- A host store during a run leaves raced those of its bytes the run has written, and the raced bytes outside its range. -/
theorem Sync.mem_hostWrites_busy_raced (y : Sync) (a n k : Nat) :
    k ∈ (Sync.hostWrites true y a n).raced ↔ if a ≤ k ∧ k < a + n then k ∈ y.engineWrote else k ∈ y.raced := by
  induction n generalizing y a with
  | zero => simp [Sync.hostWrites, show ¬ (a ≤ k ∧ k < a) by omega]
  | succ n ih =>
    have hone : k ∈ (y.hostWrite true a).raced ↔ if k = a then k ∈ y.engineWrote else k ∈ y.raced := by
      by_cases hw : a ∈ y.engineWrote <;> by_cases hk : k = a <;>
        simp [Sync.hostWrite, Sync.settle, hw, hk, AddrSet.mem_insert, AddrSet.mem_erase]
    rw [Sync.hostWrites, ih, hone, Sync.hostWrite_engineWrote]
    by_cases hk : k = a
    · subst hk
      rw [if_neg (by omega), if_pos rfl, if_pos (by omega)]
    · by_cases hr : a + 1 ≤ k ∧ k < a + 1 + n
      · rw [if_pos hr, if_pos (by omega)]
      · rw [if_neg hr, if_neg hk, if_neg (by omega)]

/-- A run begun after a host store of bytes that nothing then races for reads them as stored: START forgets the stores made
before it (20 R73(a)). -/
theorem State.engineBytes_start {t : State} {m : Memory} {a : Nat} {data : List Byte} (hm : t.mem = m.writeBytes a data)
    (hr : ∀ j < data.length, a + j ∉ t.sync.raced) (k : Nat) : t.start.engineBytes k a data.length = data := by
  have hu : t.start.Unraced a data.length := fun j hj => ⟨List.not_mem_nil, hr j hj⟩
  rw [State.engineBytes_of_unraced hu, State.start_mem, hm, Memory.bytes_writeBytes]

/-- Settles O56: the store completes, and what `Sync.hostWrites` notes of it decides what this run and the next one read. -/
theorem hostWritesAreSeenOrRaced : Obligations.HostWritesAreSeenOrRaced := by
  intro s a data k hplain
  refine ⟨s.hostPut a.toNat data, State.hostStore_plain hplain, fun hb => ?idle, fun hb j hj => ?race, fun hb hw => ?next⟩
  case idle =>
    refine State.engineBytes_start (m := s.mem) rfl (fun j hj => ?_) k
    rw [State.hostPut_sync, hb, Sync.hostWrites_idle_raced]
    omega
  case race =>
    refine State.engineByte_of_raced (.inl ?_) k
    rw [State.hostPut_sync, hb, Sync.mem_hostWrites_busy_hostWrote]
    omega
  case next =>
    refine State.engineBytes_start (m := s.mem) rfl (fun j hj => ?_) k
    have hin : a.toNat ≤ a.toNat + j ∧ a.toNat + j < a.toNat + data.length := by omega
    show _ ∉ (s.hostPut a.toNat data).sync.raced
    rw [State.hostPut_sync, hb, Sync.mem_hostWrites_busy_raced, if_pos hin]
    exact hw j hj

end Sys2Proof.Machine
end

section
/-!
PROOF. Which bytes of memory a command changes (20_memory.md rule R68): those of its output range, and none when it stores
nothing or raises an error.
-/

namespace Sys2Proof.Machine

theorem State.slot_of_holds {s : State} {c : Byte} {x : Ctx} (h : s.Holds c x) : s.slot c = some x := by
  rw [State.slot, h, Option.getD_some]

/-- A slot that permits XOF is a sponge, which gives as many bytes as asked for (44 R247). -/
theorem Ctx.squeeze_length {x : Ctx} (h : x.isXof = true) (n : Nat) : (x.squeeze n).1.length = n := by
  cases x with
  | sponge y => exact y.squeeze_length n
  | blake2 v y => cases h

@[simp] theorem State.optRead_mem (s : State) (r : OptRange) : (s.optRead r).mem = s.mem := by
  unfold State.optRead
  split <;> rfl

/-- From `s` to `t` memory is left alone, or the output range of the command `i` is written and nothing else (20 R68). -/
def StoresOnlyItsRange (i : Instr) (s t : State) : Prop :=
  t.mem = s.mem ∨ ∃ (a : Word) (data : List Byte),
    storedRange i s = some (a, data.length) ∧ t.mem = s.mem.writeBytes a.toNat data

theorem Completed.storesOnlyItsRange {i : Instr} {s t : State} (h : Completed i s t) : StoresOnlyItsRange i s t := by
  cases i with
  | halt => subst h; exact .inl rfl
  | nop => subst h; exact .inl rfl
  | initSponge => obtain ⟨-, -, -, -, rfl⟩ := h; exact .inl rfl
  | initBlake2s => obtain ⟨-, -, -, rfl⟩ := h; exact .inl (by simp)
  | initBlake2b => obtain ⟨-, -, -, rfl⟩ := h; exact .inl (by simp)
  | update => obtain ⟨x, -, -, -, -, rfl⟩ := h; exact .inl rfl
  | digest c addr =>
    obtain ⟨x, hx, -, -, -, rfl⟩ := h
    refine .inr ⟨addr, x.digest.1, ?_, rfl⟩
    rw [storedRange, State.slot_of_holds hx, Option.map_some, Ctx.digest_length]
  | digestInto c addr len =>
    obtain ⟨x, hx, -, -, -, -, rfl⟩ := h
    refine .inr ⟨addr, (x.digestInto len.toNat).1, ?_, rfl⟩
    rw [storedRange, State.slot_of_holds hx, Option.map_some, Ctx.digestInto_length]
  | xof c addr len =>
    obtain ⟨x, -, -, hxof, -, rfl⟩ := h
    refine .inr ⟨addr, (x.squeeze len.toNat).1, ?_, rfl⟩
    rw [storedRange, Ctx.squeeze_length hxof]
  | clone => obtain ⟨x, -, -, -, -, rfl⟩ := h; exact .inl rfl
  | destroy => obtain ⟨x, -, rfl⟩ := h; exact .inl rfl
  | keccakP rounds src dst =>
    obtain ⟨-, -, rfl⟩ := h
    refine .inr ⟨dst, (keccakP (stateOfBytes (s.engineBytes 1 src.toNat 200)) rounds.toNat).toList, ?_, rfl⟩
    rw [storedRange, Vector.length_toList]

theorem exec_storesOnlyItsRange {i : Instr} {s t : State} (h : exec i s = .next t) : StoresOnlyItsRange i s t := by
  rcases exec_cases h with h | ⟨e, rfl⟩
  · exact h.storesOnlyItsRange
  · exact .inl rfl

/-- Settles O27: a command without an output range has stored nothing. -/
theorem nonStoringCommandsKeepMemory : Obligations.NonStoringCommandsKeepMemory := by
  intro i s t hn h a
  rcases exec_storesOnlyItsRange h with hm | ⟨_, _, hs, -⟩
  · rw [hm]
  · cases hn.symm.trans hs

/-- Settles O28: bytes outside the output range are outside what was written. -/
theorem storingCommandsKeepOtherBytes : Obligations.StoringCommandsKeepOtherBytes := by
  intro i s t a n hn h b hb
  rcases exec_storesOnlyItsRange h with hm | ⟨a', data, hs, hm⟩
  · rw [hm]
  · cases hn.symm.trans hs
    rw [hm, Memory.read_writeBytes_outside data s.mem a.toNat b hb]

end Sys2Proof.Machine
end

section
/-!
PROOF. The order of the checks (60_exceptions.md rules R302, R304, R305): the first check that fails decides a command's error,
and a command that passes them all completes, or is refused for the register block or a device (20_memory.md rules R61, R70). One
rule per shared operation says what it adds to the list of checks or of accesses; each command is then a chain of them.
-/

namespace Sys2Proof.Machine

/-! ## After the checks: the accesses -/

/-- The answer `o` of a command that has passed its checks, from `s` on, with the ranges `rs` still to be accessed: the command
completes when they are all open, and is refused when one is not. -/
structure State.Finishes (s : State) (rs : List (Word × Nat)) (o : Out) : Prop where
  completes : (∀ r ∈ rs, s.cfg.barredRange r.1.toNat r.2 = none) →
    ∃ t, o = .next t ∧ t.cp = s.cp + 32 ∧ t.err = s.err ∧ t.errcode = s.errcode ∧ t.errcp = s.errcp
  refused : (∃ r ∈ rs, s.cfg.barredRange r.1.toNat r.2 ≠ none) → ∃ q, o = .refused q

/-- A command with no access to make completes with CP moved on and the error registers kept. -/
theorem State.Finishes.next {s t : State} (hcp : t.cp = s.cp + 32) (herr : t.err = s.err) (hcode : t.errcode = s.errcode)
    (herrcp : t.errcp = s.errcp) : s.Finishes [] (.next t) :=
  ⟨fun _ => ⟨t, rfl, hcp, herr, hcode, herrcp⟩, fun ⟨_, hr, _⟩ => absurd hr List.not_mem_nil⟩

/-- An access to a range that is not open is refused. -/
theorem State.Finishes.of_barred {s : State} {r : Word × Nat} {rs : List (Word × Nat)} {q : Refusal}
    (h : s.cfg.barredRange r.1.toNat r.2 = some q) : s.Finishes (r :: rs) (.refused q) where
  completes ho := absurd (h.symm.trans (ho r List.mem_cons_self)) (by simp)
  refused _ := ⟨q, rfl⟩

/-- An access to an open range leaves the rest to decide. -/
theorem State.Finishes.of_open {s : State} {r : Word × Nat} {rs : List (Word × Nat)} {o : Out}
    (h : s.cfg.barredRange r.1.toNat r.2 = none) (ho : s.Finishes rs o) : s.Finishes (r :: rs) o where
  completes hr := ho.completes fun r' h' => hr r' (List.mem_cons_of_mem r h')
  refused := by
    rintro ⟨r', h', hb⟩
    rcases List.mem_cons.1 h' with rfl | h'
    · exact absurd h hb
    · exact ho.refused ⟨r', h', hb⟩

/-- What a read notes is none of what `Finishes` speaks of. -/
theorem State.Finishes.memRead {s : State} {a : Word} {n : Nat} {rs : List (Word × Nat)} {rest : List Byte → State → Out}
    (access : Nat) (h : ∀ bs, (s.engineRead a.toNat n).Finishes rs (rest bs (s.engineRead a.toNat n))) :
    s.Finishes ((a, n) :: rs) (s.memRead access a n rest) := by
  obtain ⟨hc, hr⟩ := h (s.engineBytes access a.toNat n)
  unfold State.memRead
  split
  · next q hq => exact .of_barred hq
  · next ho => exact .of_open ho ⟨hc, hr⟩

theorem State.Finishes.memWrite {s : State} {a : Word} {data : List Byte} {n : Nat} (hn : data.length = n)
    {rest : State → Out} (h : (s.engineStore a.toNat data).Finishes [] (rest (s.engineStore a.toNat data))) :
    s.Finishes [(a, n)] (s.memWrite a data rest) := by
  subst hn
  unfold State.memWrite
  split
  · next q hq => exact .of_barred hq
  · next ho => exact .of_open ho ⟨h.completes, h.refused⟩

/-- The ranges that the present ones of some options name (30 R93). -/
def optRanges (os : List OptRange) : List (Word × Nat) := (os.filter (·.present)).map fun r => (r.addr, r.len.toNat)

theorem State.Finishes.readOption {s : State} {r : OptRange} {os : List OptRange} {rest : Option (List Byte) → State → Out}
    (access : Nat) (h : ∀ (o : Option (List Byte)) (u : State), u.Finishes (optRanges os) (rest o u)) :
    s.Finishes (optRanges (r :: os)) (s.readOption access r rest) := by
  unfold State.readOption
  split
  · next hp =>
    rw [optRanges, List.filter_cons_of_pos hp]
    exact .memRead access fun bs => h (some bs) _
  · next hp =>
    rw [optRanges, List.filter_cons_of_neg hp]
    exact h none s

/-! ## The checks -/

/-- The answer `o` of a command from `s` on, with the checks `cs` still to be made and then the ranges `rs` to be accessed: the
first check that fails decides its error (60 R304). -/
structure State.Decides (s : State) (cs : List Check) (rs : List (Word × Nat)) (o : Out) : Prop where
  error  : ∀ e, (cs.find? fun c => !c.1).map Prod.snd = some e → o = .next (s.raise e)
  passed : (cs.find? fun c => !c.1).map Prod.snd = none → s.Finishes rs o

section Rules

variable {s : State} {cs : List Check} {rs : List (Word × Nat)} {o : Out}

theorem State.Decides.finish (h : s.Finishes rs o) : s.Decides [] rs o :=
  ⟨fun _ he => absurd he (by simp), fun _ => h⟩

/-- A check that has passed decides nothing. -/
theorem State.decides_cons_true (e : EngineError) : s.Decides ((true, e) :: cs) rs o ↔ s.Decides cs rs o := by
  constructor <;> exact fun ⟨he, hp⟩ => ⟨by simpa using he, by simpa using hp⟩

/-- A check that has failed decides the error. -/
theorem State.decides_cons_false (e : EngineError) : s.Decides ((false, e) :: cs) rs (.next (s.raise e)) :=
  ⟨fun e' he => congrArg _ (congrArg _ (by simpa using he)), fun hp => absurd hp (by simp)⟩

theorem State.Decides.check {ok ok' : Bool} (hok : ok = ok') (e : EngineError) (h : ok' = true → s.Decides cs rs o) :
    s.Decides ((ok, e) :: cs) rs (s.check ok' e o) := by
  subst hok
  cases ok with
  | false => exact State.decides_cons_false e
  | true => exact (State.decides_cons_true e).2 (h rfl)

/-- The two checks of an occupied slot come first (44 R240). -/
theorem State.Decides.occupied {c : Byte} {rest : Ctx → Out} (h : ∀ x, s.Holds c x → s.Decides cs rs (rest x)) :
    s.Decides (slotChecks s c ++ cs) rs (s.occupied c rest) := by
  rcases Nat.lt_or_ge c.toNat s.nctx with hc | hc
  · have hi : decide (c.toNat < s.nctx) = true := decide_eq_true hc
    rw [slotChecks, hi, List.cons_append, State.decides_cons_true]
    obtain ⟨y, hy⟩ : ∃ y, s.ctx[c.toNat]? = some y := ⟨_, List.getElem?_eq_getElem hc⟩
    have hs : s.slot c = y := by rw [State.slot, hy, Option.getD_some]
    cases y with
    | none =>
      rw [State.occupied_of_free hy, hs]
      exact State.decides_cons_false _
    | some x =>
      rw [State.occupied_of_some hy, hs]
      exact (State.decides_cons_true _).2 (h x hy)
  · have hi : decide (c.toNat < s.nctx) = false := decide_eq_false (Nat.not_lt.2 hc)
    rw [slotChecks, hi, State.occupied_of_range hc]
    exact State.decides_cons_false _

/-- A live slot is occupied and not destroyed, in this order (44 R240). -/
theorem State.Decides.live {c : Byte} {rest : Ctx → Out} (h : ∀ x, s.Holds c x → s.Decides cs rs (rest x)) :
    s.Decides (slotChecks s c ++ destroyedCheck s c :: cs) rs (s.live c rest) := by
  refine .occupied fun x hx => .check ?_ _ fun _ => h x hx
  rw [State.slot_of_holds hx, Option.all_some]

end Rules

/-! ## The options of an INIT_BLAKE2 -/

theorem optLenOK_eq_decide (r : OptRange) (lo hi : Nat) :
    decide (r.present → lo ≤ r.len.toNat ∧ r.len.toNat ≤ hi) = optLenOK r lo hi := by
  cases hp : r.present <;> simp [optLenOK, hp]

theorem optLenOK_eq_decide_exact (r : OptRange) (n : Nat) : decide (r.present → r.len.toNat = n) = optLenOK r n n := by
  rw [← optLenOK_eq_decide]
  exact decide_eq_decide.2 (imp_congr_right fun _ => by omega)

theorem State.optRangeOK_eq_decide (s : State) (r : OptRange) :
    decide (r.present → s.rangeOK r.addr r.len.toNat) = s.optRangeOK r := by
  cases hp : r.present <;> simp [State.optRangeOK, hp]

theorem initBlake2_decides (v : Variant) (c : Byte) (outlen : Word) (key salt pers : OptRange) (s : State) :
    s.Decides (blake2Checks (blake2KK v) (blake2SL v) (blake2PL v) s c outlen key salt pers) (optRanges [key, salt, pers])
      (initBlake2 v c outlen key salt pers s) := by
  refine .check rfl _ fun _ => ?outlen
  refine .check (Bool.decide_and ..) _ fun _ => ?keylen
  refine .check (optLenOK_eq_decide ..) _ fun _ => ?saltlen
  refine .check (optLenOK_eq_decide_exact ..) _ fun _ => ?perslen
  refine .check (optLenOK_eq_decide_exact ..) _ fun _ => ?keyRange
  refine .check (s.optRangeOK_eq_decide key) _ fun _ => ?saltRange
  refine .check (s.optRangeOK_eq_decide salt) _ fun _ => ?persRange
  refine .check (s.optRangeOK_eq_decide pers) _ fun _ => .finish ?accesses
  refine .readOption 1 fun k s => .readOption 2 fun sa s => .readOption 3 fun pe s => ?slot
  exact .next rfl rfl rfl rfl

/-! ## Every command -/

theorem exec_decides (i : Instr) (s : State) :
    s.Decides (checksOf i s) (readRanges i ++ (storedRange i s).toList) (exec i s) := by
  cases i with
  | halt => exact .finish (.next rfl rfl rfl rfl)
  | nop => exact .finish (.next rfl rfl rfl rfl)
  | initSponge c rate suffix rounds xof outlen =>
    exact .check rfl _ fun _ => .check (Bool.decide_and ..) _ fun _ => .check (Bool.decide_and ..) _ fun _ =>
      .check rfl _ fun _ => .finish (.next rfl rfl rfl rfl)
  | initBlake2s c outlen key salt pers =>
    rw [storedRange, Option.toList_none, List.append_nil]
    exact initBlake2_decides .s c outlen key salt pers s
  | initBlake2b c outlen key salt pers =>
    rw [storedRange, Option.toList_none, List.append_nil]
    exact initBlake2_decides .b c outlen key salt pers s
  | update c addr len =>
    refine .live fun x hx => ?_
    simp only [finishedCheck, State.slot_of_holds hx, Option.all_some]
    exact .check rfl _ fun _ => .check rfl _ fun _ => .check rfl _ fun _ =>
      .finish (.memRead 1 fun bs => .next rfl rfl rfl rfl)
  | digest c addr =>
    refine .live fun x hx => ?_
    simp only [finishedCheck, storedRange, State.slot_of_holds hx, Option.all_some]
    exact .check rfl _ fun _ => .check rfl _ fun _ => .finish (.memWrite x.digest_length (.next rfl rfl rfl rfl))
  | digestInto c addr len =>
    refine .live fun x hx => ?_
    simp only [finishedCheck, storedRange, State.slot_of_holds hx, Option.all_some]
    exact .check rfl _ fun _ => .check rfl _ fun _ => .check rfl _ fun _ =>
      .finish (.memWrite (x.digestInto_length _) (.next rfl rfl rfl rfl))
  | xof c addr len =>
    refine .live fun x hx => ?_
    simp only [State.slot_of_holds hx, Option.all_some]
    exact .check rfl _ fun hxof => .check rfl _ fun _ =>
      .finish (.memWrite (Ctx.squeeze_length hxof _) (.next rfl rfl rfl rfl))
  | clone src dst =>
    refine .check (Bool.decide_and ..) _ fun hi => .check (by simp [bne, Bool.beq_eq_decide_eq]) _ fun _ => ?_
    have hsrc : decide (src.toNat < s.nctx) = true := (Bool.and_eq_true_iff.1 hi).1
    refine (State.decides_cons_true (.badContext .indexRange)).1 ?_
    rw [← hsrc]
    exact .live (cs := []) fun x hx => .finish (.next rfl rfl rfl rfl)
  | destroy c => exact .occupied (cs := []) fun x _ => .finish (.next rfl rfl rfl rfl)
  | keccakP rounds src dst =>
    exact .check (Bool.decide_and ..) _ fun _ => .check rfl _ fun _ => .check rfl _ fun _ =>
      .finish (.memRead 1 fun bs => .memWrite (Vector.length_toList ..) (.next rfl rfl rfl rfl))

/-- Settles O24: `exec_decides` is the statement for one command and state. -/
theorem firstFailedCheckDecides : Obligations.FirstFailedCheckDecides := by
  intro i s
  obtain ⟨herror, hpassed⟩ := exec_decides i s
  exact ⟨herror, fun h => (hpassed h).completes, fun h => (hpassed h).refused⟩

end Sys2Proof.Machine
end

section
/-!
PROOF. What the host reads of memory (20_memory.md rules R70, R73; 93_implementation_defined.md U7): memory's bytes once BUSY = 0
has been read, an old or a new value before, any value of a raced byte.
-/

namespace Sys2Proof.Machine

/-! ## Bytes no turn of the engine can make raced -/

/-- Byte `a` is one the host has neither stored during the run nor raced for, now or in an earlier run. -/
structure Sync.Quiet (y : Sync) (a : Nat) : Prop where
  hostWrote : a ∉ y.hostWrote
  raced     : a ∉ y.raced
  readRaced : a ∉ y.readRaced
  unsettled : a ∉ y.unsettled

theorem Sync.Quiet.hostRaced {y : Sync} {a : Nat} (h : y.Quiet a) : y.hostRaced a = false :=
  Sync.hostRaced_eq_false.2 ⟨h.raced, h.readRaced, h.unsettled⟩

theorem Sync.Quiet.engineReads {y : Sync} {a : Nat} (h : y.Quiet a) (b n : Nat) : (y.engineReads b n).Quiet a where
  hostWrote := h.hostWrote
  raced := h.raced
  readRaced := by
    rw [Sync.mem_engineReads_readRaced]
    rintro (hr | ⟨hw, -⟩)
    · exact h.readRaced hr
    · exact h.hostWrote hw
  unsettled := h.unsettled

@[simp] theorem Sync.engineWrites_readRaced (y : Sync) (m : Memory) (a n : Nat) :
    (y.engineWrites m a n).readRaced = y.readRaced := by
  induction n generalizing y a with
  | zero => rfl
  | succ n ih => rw [Sync.engineWrites, ih]; rfl

theorem Sync.Quiet.engineWrites {y : Sync} {a : Nat} (h : y.Quiet a) (m : Memory) (b n : Nat) :
    (y.engineWrites m b n).Quiet a where
  hostWrote := by simpa using h.hostWrote
  raced := by
    rw [Sync.mem_engineWrites_raced]
    split
    · exact h.hostWrote
    · exact h.raced
  readRaced := by simpa using h.readRaced
  unsettled := by
    rw [Sync.mem_engineWrites_unsettled]
    rintro (hu | ⟨hr, -⟩)
    · exact h.unsettled hu
    · exact h.raced hr

theorem State.optRead_quiet {s : State} {a : Nat} (h : s.sync.Quiet a) (r : OptRange) : (s.optRead r).sync.Quiet a := by
  unfold State.optRead
  split
  · exact h.engineReads _ _
  · exact h

theorem Completed.quiet {i : Instr} {s t : State} {a : Nat} (hs : s.sync.Quiet a) (h : Completed i s t) :
    t.sync.Quiet a := by
  cases i with
  | halt => subst h; exact hs
  | nop => subst h; exact hs
  | initSponge => obtain ⟨-, -, -, -, rfl⟩ := h; exact hs
  | initBlake2s =>
    obtain ⟨-, -, -, rfl⟩ := h
    exact State.optRead_quiet (State.optRead_quiet (State.optRead_quiet hs _) _) _
  | initBlake2b =>
    obtain ⟨-, -, -, rfl⟩ := h
    exact State.optRead_quiet (State.optRead_quiet (State.optRead_quiet hs _) _) _
  | update => obtain ⟨x, -, -, -, -, rfl⟩ := h; exact hs.engineReads _ _
  | digest => obtain ⟨x, -, -, -, -, rfl⟩ := h; exact hs.engineWrites _ _ _
  | digestInto => obtain ⟨x, -, -, -, -, -, rfl⟩ := h; exact hs.engineWrites _ _ _
  | xof => obtain ⟨x, -, -, -, -, rfl⟩ := h; exact hs.engineWrites _ _ _
  | clone => obtain ⟨x, -, -, -, -, rfl⟩ := h; exact hs
  | destroy => obtain ⟨x, -, rfl⟩ := h; exact hs
  | keccakP => obtain ⟨-, -, rfl⟩ := h; exact (hs.engineReads _ _).engineWrites _ _ _

theorem exec_quiet {i : Instr} {s t : State} {a : Nat} (hs : s.sync.Quiet a) (h : exec i s = .next t) :
    t.sync.Quiet a := by
  rcases exec_cases h with h | ⟨e, rfl⟩
  · exact h.quiet hs
  · exact hs

theorem engineTurn_quiet {s t : State} {a : Nat} (hs : s.sync.Quiet a) (h : engineTurn s = .next t) :
    t.sync.Quiet a := by
  unfold engineTurn at h
  split at h
  · have hr := hs.engineReads s.cp.toNat 32
    rcases State.fetch_eq_next h with ⟨i, -, h⟩ | ⟨e, rfl⟩ | ⟨e, rfl⟩
    · exact exec_quiet (s := s.engineRead s.cp.toNat 32) hr h
    · exact hs
    · exact hr
  · cases h; exact hs

theorem State.coming_quiet {s : State} {a : Nat} (h : s.sync.Quiet a) (n : Nat) : (s.coming n).sync.Quiet a := by
  unfold State.coming
  split
  · exact engineAhead_induct (P := fun t => t.sync.Quiet a) (fun _ _ => engineTurn_quiet) n h
  · exact h

/-- The memory of a coming state is that of a state some engine turns ahead, for an idle engine as well, which stays. -/
theorem State.coming_mem (s : State) (n : Nat) : (s.coming n).mem = (engineAhead n { s with draws := s.draws + 1 }).mem := by
  unfold State.coming
  split
  · rfl
  · next hb => rw [engineAhead_idle n (by simpa using hb)]

/-! ## Loads of plain memory -/

/-- What a load of plain memory delivers; it leaves memory alone. -/
theorem hostTurn_load_plain {s : State} {a : Word} {n : Nat} (h : s.Plain a n) :
    hostTurn (.load a.toNat n) s =
      .next { s with hostData := s.hostBytes s.coming a.toNat n, draws := s.draws + 1 } :=
  State.hostAccess_plain h _ _

/-- A load of STATUS reaches that register (10 R24, R27). -/
theorem hostTurn_load_status (s : State) : hostTurn (.load (s.cfg.mmioBase + 4) 4) s = .next (s.loadRegister 4) :=
  s.hostAccess_register 1 _ _

/-- Bytes that all read as memory holds them are the bytes memory holds. -/
theorem State.hostBytes_eq_bytes {s : State} {ahead : Nat → State} {a n : Nat}
    (h : ∀ j < n, s.hostByte ahead (a + j) = s.mem.read (a + j)) : s.hostBytes ahead a n = s.mem.bytes a n := by
  refine List.ext_getElem? fun j => ?_
  rcases Nat.lt_or_ge j n with hj | hj
  · rw [State.getElem?_hostBytes s ahead a n j hj, h j hj]
    simp [Memory.bytes, hj]
  · rw [List.getElem?_eq_none (by simpa using hj), List.getElem?_eq_none (by simpa [Memory.bytes] using hj)]

/-- Reading STATUS with BUSY = 0 orders the run: no byte but a raced one is any value or an old one to the host any more
(20 R73(b)). -/
theorem State.hostByte_after_status {s : State} (hb : s.busy = false) {a : Nat} (h : a ∉ s.sync.raced) :
    (s.loadRegister 4).hostByte (s.loadRegister 4).coming a = s.mem.read a := by
  have hsync : (s.loadRegister 4).sync = { s.sync with older := [], readRaced := [], unsettled := [] } :=
    if_pos ⟨rfl, hb⟩
  have hquiet : (s.loadRegister 4).sync.hostRaced a = false := by
    rw [hsync, Sync.hostRaced_eq_false]
    exact ⟨h, List.not_mem_nil, List.not_mem_nil⟩
  refine State.hostByte_settled _ _ hquiet (fun k => ?_) fun b => ?_
  · rw [State.coming_idle (s := s.loadRegister 4) hb]
    exact ⟨hquiet, rfl⟩
  · rw [hsync]
    exact List.not_mem_nil

/-- An old or a new value of a byte the host has not raced for (93 U7, log 8). -/
theorem State.hostByte_of_quiet {s : State} {a : Nat} (h : s.sync.Quiet a) :
    s.hostByte s.coming a = s.mem.read a ∨ (a, s.hostByte s.coming a) ∈ s.sync.older ∨
      ∃ m, s.hostByte s.coming a = (engineAhead m { s with draws := s.draws + 1 }).mem.read a := by
  rcases s.hostByte_cases s.coming h.hostRaced fun k => (State.coming_quiet h k).hostRaced with hm | ⟨k, hk⟩ | ho
  · exact .inl hm
  · exact .inr (.inr ⟨k, hk.trans (by rw [State.coming_mem])⟩)
  · exact .inr (.inl ho)

/-- Settles O57: ordered, unordered and raced bytes, and what makes a byte raced. -/
theorem busyZeroOrdersEngineWrites : Obligations.BusyZeroOrdersEngineWrites := by
  refine ⟨fun s a n hb hp hr => ?ordered, fun s a n hp hu hq => ?unordered, fun s a hp hr => ?raced,
    Sync.mem_engineReads_readRaced, fun y m a n k => ?writes⟩
  case ordered =>
    refine ⟨s.loadRegister 4, _, hostTurn_load_status s, hostTurn_load_plain (s := s.loadRegister 4) hp, ?_, rfl⟩
    exact State.hostBytes_eq_bytes fun j hj => State.hostByte_after_status hb (hr j hj)
  case unordered =>
    refine ⟨_, hostTurn_load_plain hp, rfl, State.hostBytes_length .., fun j hj => ?_⟩
    obtain ⟨hwrote, hraced⟩ := hu j hj
    obtain ⟨hread, hunsettled⟩ := hq j hj
    exact ⟨_, State.getElem?_hostBytes s s.coming a.toNat n j hj,
      State.hostByte_of_quiet ⟨hwrote, hraced, hread, hunsettled⟩⟩
  case raced =>
    have hraced : s.sync.hostRaced a.toNat = true := by simpa [Sync.hostRaced, or_assoc] using hr
    exact ⟨_, hostTurn_load_plain hp, congrArg (· :: []) (s.hostByte_of_raced s.coming hraced)⟩
  case writes =>
    exact ⟨y.mem_engineWrites_raced m a n k, y.mem_engineWrites_unsettled m a n k, AddrSet.mem_union _ _ k⟩

end Sys2Proof.Machine
end

section
/-!
PROOF. The decoder and the encoder are inverse (30_encoding.md rules R90-R95): the encoding of a well-formed command decodes to
it, that of an ill-formed one has a reserved field set, and a descriptor that decodes is the encoding of its command.
-/

namespace Sys2Proof

/-! ## From commands to descriptors and back -/

/-- The opcode of an encoded command reads back, and its reserved test is whether the command is ill formed. -/
theorem encodingHead (i : Instr) : Laws.EncodingHead.Statement i := by
  cases i with
  | halt => exact Laws.EncodingHead.halt
  | nop => exact Laws.EncodingHead.nop
  | initSponge c rate suffix rounds xof outlen => exact Laws.EncodingHead.initSponge ..
  | initBlake2s c outlen key salt pers => exact Laws.EncodingHead.initBlake2s ..
  | initBlake2b c outlen key salt pers => exact Laws.EncodingHead.initBlake2b ..
  | update c addr len => exact Laws.EncodingHead.update ..
  | digest c addr => exact Laws.EncodingHead.digest ..
  | digestInto c addr len => exact Laws.EncodingHead.digestInto ..
  | xof c addr len => exact Laws.EncodingHead.xof ..
  | clone src dst => exact Laws.EncodingHead.clone ..
  | destroy c => exact Laws.EncodingHead.destroy ..
  | keccakP rounds src dst => exact Laws.EncodingHead.keccakP ..

@[simp] theorem Opcode.opcode_command (op : Opcode) (d : Desc) : (op.command d).opcode = op := by cases op <;> rfl

/-- The operands of IMM read back from INIT_SPONGE's word (30 R93). -/
theorem spongeImm_fields (rate suffix rounds : Byte) (xof : Bool) :
    (spongeImm rate suffix rounds xof).extractLsb' 0 8 = rate ∧ (spongeImm rate suffix rounds xof).extractLsb' 8 8 = suffix ∧
    (spongeImm rate suffix rounds xof).extractLsb' 16 8 = rounds ∧ (spongeImm rate suffix rounds xof).getLsbD 24 = xof := by
  have hr := rate.isLt
  have hs := suffix.isLt
  have hn := rounds.isLt
  have hx : xof.toNat ≤ 1 := Bool.toNat_le xof
  refine ⟨extractByte_eq 0 ?_, extractByte_eq 8 ?_, extractByte_eq 16 ?_, getBit_eq 24 ?_⟩ <;>
    (rw [spongeImm_toNat]; omega)

/-- The operands a command is read from are those it was encoded with. -/
theorem Opcode.command_encode (i : Instr) : i.opcode.command (encode i) = i := by
  cases i with
  | halt => rfl
  | nop => rfl
  | initSponge c rate suffix rounds xof outlen =>
    obtain ⟨hrate, hsuffix, hrounds, hxof⟩ := spongeImm_fields rate suffix rounds xof
    exact (Instr.initSponge.injEq ..).mpr ⟨Desc.ctx_of_head rfl, hrate, hsuffix, hrounds, hxof, rfl⟩
  | initBlake2s c outlen key salt pers =>
    exact (Instr.initBlake2s.injEq ..).mpr ⟨Desc.ctx_of_head rfl, rfl, Desc.options_of_encode _ _ _ _ _ _ _ rfl⟩
  | initBlake2b c outlen key salt pers =>
    exact (Instr.initBlake2b.injEq ..).mpr ⟨Desc.ctx_of_head rfl, rfl, Desc.options_of_encode _ _ _ _ _ _ _ rfl⟩
  | update c addr len => exact congrArg (Instr.update · addr len) (Desc.ctx_of_head rfl)
  | digest c addr => exact congrArg (Instr.digest · addr) (Desc.ctx_of_head rfl)
  | digestInto c addr len => exact congrArg (Instr.digestInto · addr len) (Desc.ctx_of_head rfl)
  | xof c addr len => exact congrArg (Instr.xof · addr len) (Desc.ctx_of_head rfl)
  | clone src dst => exact congrArg₂ Instr.clone (Desc.ctx_of_head rfl) (Desc.ctx2_of_head rfl)
  | destroy c => exact congrArg Instr.destroy (Desc.ctx_of_head rfl)
  | keccakP rounds src dst => rfl

/-! ## From descriptors to commands and back -/

/-- A field of W0 above OPC that the mask covers is zero where the mask finds no bit (30 R95). -/
theorem field_eq_zero {w m : Word} {k n : Nat} (h : w &&& m &&& 0xFFFFFF00 = 0)
    (hm : (m &&& 0xFFFFFF00).extractLsb' k n = BitVec.allOnes n) : w.extractLsb' k n = 0#n := by
  calc w.extractLsb' k n
    _ = (w &&& m &&& 0xFFFFFF00).extractLsb' k n := by
      rw [BitVec.and_assoc, BitVec.extractLsb'_and, hm, BitVec.and_allOnes]
    _ = 0#n := by rw [h]; exact BitVec.extractLsb'_zero

/-- W0 is put together from its opcode and its three other fields (30 R91). -/
theorem headWord_fields {op : Opcode} {d : Desc} (h : d.opc = op.toByte) :
    headWord op d.ctx d.ctx2 (d[0].extractLsb' 24 8) = d[0] := by
  apply BitVec.eq_of_toNat_eq
  have hw := d[0].isLt
  rw [headWord_toNat, ← h, Desc.opc, Desc.ctx, Desc.ctx2]
  simp only [BitVec.extractLsb'_toNat, Nat.shiftRight_eq_div_pow]
  omega

/-- FLAGS of a descriptor is put together from its three options where FLAGS[7:3] is zero (30 R93). -/
theorem optFlags_options {d : Desc} (h : d[0].extractLsb' 27 5 = 0#5) :
    optFlags (d.option 0) (d.option 1) (d.option 2) = d[0].extractLsb' 24 8 := by
  apply BitVec.eq_of_toNat_eq
  have hz := congrArg BitVec.toNat h
  rw [optFlags_toNat]
  simp only [BitVec.extractLsb'_toNat, Nat.shiftRight_eq_div_pow, BitVec.toNat_zero] at hz ⊢
  simp only [Desc.option, Desc.flag, BitVec.getLsbD, Nat.toNat_testBit, Fin.isValue, Fin.val_zero, Fin.val_one, Fin.val_two]
  omega

/-- IMM is put together from its four operands where IMM[31:25] is zero (30 R93). -/
theorem spongeImm_of_fields {w : Word} (h : w.extractLsb' 25 7 = 0#7) :
    spongeImm (w.extractLsb' 0 8) (w.extractLsb' 8 8) (w.extractLsb' 16 8) (w.getLsbD 24) = w := by
  apply BitVec.eq_of_toNat_eq
  have hw := w.isLt
  have hz := congrArg BitVec.toNat h
  rw [spongeImm_toNat, BitVec.getLsbD, Nat.toNat_testBit]
  simp only [BitVec.extractLsb'_toNat, Nat.shiftRight_eq_div_pow, BitVec.toNat_zero] at hz ⊢
  omega

/-- The reserved test of 30 R95, taken apart. -/
theorem Opcode.reserved_eq_false {op : Opcode} {d : Desc} :
    op.reserved d = false ↔
      d[0] &&& op.mask &&& 0xFFFFFF00 = 0 ∧ (∀ k ∈ op.zeroWords, d[k] = 0) ∧ op.extraReserved d = false := by
  simp [Opcode.reserved, and_assoc]

theorem headWord_eq {op : Opcode} {d : Desc} {c c2 f : Byte} (h : d.opc = op.toByte) (hc : d.ctx = c) (hc2 : d.ctx2 = c2)
    (hf : d[0].extractLsb' 24 8 = f) : headWord op c c2 f = d[0] := by
  rw [← hc, ← hc2, ← hf, headWord_fields h]

/-- Re-encoding gives W0 back where the mask finds no bit: a head field is an operand, or the mask covers it (30 R92, R94). -/
theorem Opcode.encode_command_head {op : Opcode} {d : Desc} (h : d.opc = op.toByte)
    (hm : d[0] &&& op.mask &&& 0xFFFFFF00 = 0) : (encode (op.command d))[0] = d[0] := by
  cases op with
  | halt | nop | keccakP => exact headWord_eq h (field_eq_zero hm rfl) (field_eq_zero hm rfl) (field_eq_zero hm rfl)
  | initBlake2s | initBlake2b =>
    exact headWord_eq h rfl (field_eq_zero hm rfl) (optFlags_options (field_eq_zero hm rfl)).symm
  | clone => exact headWord_eq h rfl rfl (field_eq_zero hm rfl)
  | initSponge | update | digest | digestInto | xof | destroy =>
    exact headWord_eq h rfl (field_eq_zero hm rfl) (field_eq_zero hm rfl)

/-- Descriptors are equal if their words are: W0 and W1..W7 (30 R90). -/
theorem Desc.ext_words {d e : Desc} (h0 : d[0] = e[0])
    (h : d[1] = e[1] ∧ d[2] = e[2] ∧ d[3] = e[3] ∧ d[4] = e[4] ∧ d[5] = e[5] ∧ d[6] = e[6] ∧ d[7] = e[7]) : d = e := by
  obtain ⟨h1, h2, h3, h4, h5, h6, h7⟩ := h
  refine Vector.ext fun k hk => ?_
  interval_cases k <;> assumption

/-- Re-encoding the command of a descriptor with no reserved field set gives the descriptor back. -/
theorem Opcode.encode_command {op : Opcode} {d : Desc} (h : d.opc = op.toByte) (hr : op.reserved d = false) :
    encode (op.command d) = d := by
  obtain ⟨hmask, hzero, hextra⟩ := Opcode.reserved_eq_false.1 hr
  refine Desc.ext_words (Opcode.encode_command_head h hmask) ?_
  cases op with
  | initSponge =>
    refine ⟨spongeImm_of_fields (by simpa [Opcode.extraReserved] using hextra), ?_⟩
    simpa [Opcode.command, encode, Opcode.zeroWords, eq_comm] using hzero
  | initBlake2s | initBlake2b => exact ⟨rfl, rfl, rfl, rfl, rfl, rfl, rfl⟩
  | _ => simpa [Opcode.command, encode, Opcode.zeroWords, eq_comm] using hzero

/-! ## The decoder -/

/-- The decoder on a descriptor whose opcode is in the map (30 R95). -/
theorem decodeDesc_of_opc {op : Opcode} {d : Desc} (h : Opcode.ofByte? d.opc = some op) :
    decodeDesc d = if op.reserved d then .error .reservedNonzero else .ok (op.command d) := by
  rw [decodeDesc, h]

theorem decodeDesc_encode (i : Instr) :
    decodeDesc (encode i) = if i.wellFormed then .ok i else .error .reservedNonzero := by
  obtain ⟨hopc, hres⟩ := encodingHead i
  rw [decodeDesc_of_opc hopc, hres, Opcode.command_encode]
  cases i.wellFormed <;> rfl

/-- A descriptor that decodes is the encoding of its command. -/
theorem encode_of_decodeDesc {d : Desc} {i : Instr} (h : decodeDesc d = .ok i) : encode i = d := by
  rw [decodeDesc] at h
  split at h
  · cases h
  · next op hop =>
    split at h
    · cases h
    · next hr =>
      cases h
      exact Opcode.encode_command (Opcode.toByte_of_ofByte hop).symm (by simpa using hr)

/-- A descriptor decodes to a command exactly when it is its encoding and the command is well formed. -/
theorem decodeDesc_eq_ok {d : Desc} {i : Instr} : decodeDesc d = .ok i ↔ encode i = d ∧ i.wellFormed = true := by
  constructor
  · intro h
    have he := encode_of_decodeDesc h
    rw [← he, decodeDesc_encode] at h
    split at h
    · next hw => exact ⟨he, hw⟩
    · cases h
  · rintro ⟨rfl, hw⟩
    rw [decodeDesc_encode, if_pos hw]

theorem decode_encodeBytes (i : Instr) :
    decode (encodeBytes i) = if i.wellFormed then .ok i else .error .reservedNonzero := by
  rw [decode, encodeBytes, Desc.ofBytes_toBytes, decodeDesc_encode]

/-- Settles O1: the opcode reads back, the reserved test passes and the operands read back. -/
theorem encodeThenDecodeGivesCommand : Obligations.EncodeThenDecodeGivesCommand := fun i hw => by
  rw [decode_encodeBytes, if_pos hw]

/-- Settles O2: a field that is no operand is zero where the decoder's tests pass, so re-encoding gives the bytes back. -/
theorem decodedBytesAreTheEncoding : Obligations.DecodedBytesAreTheEncoding := fun bs i hd => by
  obtain ⟨he, hw⟩ := decodeDesc_eq_ok.1 hd
  exact ⟨by rw [encodeBytes, he, Desc.toBytes_ofBytes], hw⟩

/-- Settles O3: the reserved test finds a bit in an encoding exactly where the command is ill formed. -/
theorem absentOptionWordsAreReserved : Obligations.AbsentOptionWordsAreReserved := fun i hw => by
  simp [decode_encodeBytes, hw]

end Sys2Proof
end

section
/-!
PROOF. The decoder against the opcode map as the spec writes it (30_encoding.md rules R94, R95).
-/

namespace Sys2Proof.Machine

/-- The row of the opcode map an opcode stands in (30 R94). -/
def opcodeRow (op : Opcode) : Byte × Word × List (Fin 8) := (op.toByte, op.mask, op.zeroWords)

theorem mem_opcodeMap {row : Byte × Word × List (Fin 8)} : row ∈ opcodeMap ↔ ∃ op, opcodeRow op = row := by
  have hmap : opcodeMap = Opcode.all.map opcodeRow := rfl
  have hall : ∀ op, op ∈ Opcode.all := fun op => by cases op <;> decide
  simp [hmap, hall]

/-- An absent option with a non-zero word, in the words of 30 R93. -/
theorem Desc.option_wellFormed (d : Desc) (i : Fin 3) :
    (d.option i).wellFormed = false ↔ d.flag i = false ∧ (d[2 + 2 * i.val] ≠ 0 ∨ d[3 + 2 * i.val] ≠ 0) := by
  simp [Desc.option, OptRange.wellFormed, imp_iff_not_or]

/-- The last two clauses of `reserved` in 30 R95 are the decoder's `extraReserved`. -/
theorem extraReserved_iff (op : Opcode) (d : Desc) : op.extraReserved d = true ↔
    (op.toByte = 0x10 ∧ d[1].extractLsb' 25 7 ≠ 0) ∨
    ((op.toByte = 0x11 ∨ op.toByte = 0x12) ∧
      ((d.flag 0 = false ∧ (d[2] ≠ 0 ∨ d[3] ≠ 0)) ∨ (d.flag 1 = false ∧ (d[4] ≠ 0 ∨ d[5] ≠ 0)) ∨
       (d.flag 2 = false ∧ (d[6] ≠ 0 ∨ d[7] ≠ 0)))) := by
  cases op with
  | initBlake2s | initBlake2b => simp [Opcode.extraReserved, Opcode.toByte, Desc.option_wellFormed]
  | _ => simp [Opcode.extraReserved, Opcode.toByte]

/-- `reserved` of 30 R95 is the decoder's reserved test. -/
theorem reservedSet_opcodeRow (op : Opcode) (d : Desc) : ReservedSet (opcodeRow op) d ↔ op.reserved d = true := by
  rw [Opcode.reserved, Bool.or_eq_true, Bool.or_eq_true, extraReserved_iff, or_assoc]
  exact or_congr (by simp [opcodeRow]) (or_congr (by simp [opcodeRow]) Iff.rfl)

/-- Settles O4: a row of the map is an opcode's, and its `reserved` the decoder's test. -/
theorem decodeFollowsOpcodeMap : Obligations.DecodeFollowsOpcodeMap := by
  refine fun bs => ⟨fun hno => ?unknown, fun row hrow hopc => ?known⟩
  case unknown =>
    have hne (op : Opcode) : op.toByte ≠ (Desc.ofBytes bs).opc := hno (opcodeRow op) (mem_opcodeMap.2 ⟨op, rfl⟩)
    have hnone : Opcode.ofByte? (Desc.ofBytes bs).opc = none := List.find?_eq_none.2 fun op _ => by simpa using hne op
    rw [decode, decodeDesc, hnone]
  case known =>
    obtain ⟨op, rfl⟩ := mem_opcodeMap.1 hrow
    have hop : op.toByte = (Desc.ofBytes bs).opc := hopc
    rw [reservedSet_opcodeRow, decode, decodeDesc_of_opc (hop ▸ op.ofByte_toByte)]
    refine ⟨fun hr => if_pos hr, fun hr => ⟨_, if_neg hr, ?_⟩⟩
    rw [Opcode.opcode_command, opcodeRow]

end Sys2Proof.Machine
end

section
/-!
PROOF. HALT and NOP (45_control_commands.md rules R273, R274) and one descriptor of each command (30_encoding.md rules R92-R94).
-/

namespace Sys2Proof

/-- A descriptor with the opcode of a command without operands decodes to it, or has a reserved field set. -/
theorem decodeDesc_of_fixed {op : Opcode} {i : Instr} {d : Desc} (hd : d.opc = op.toByte) (hi : op.command d = i)
    (hw : i.wellFormed = true) : decodeDesc d = if d = encode i then .ok i else .error .reservedNonzero := by
  split
  · next he => exact decodeDesc_eq_ok.2 ⟨he.symm, hw⟩
  · next he =>
    rw [decodeDesc_of_opc (hd ▸ op.ofByte_toByte), if_pos]
    by_contra hr
    exact he (hi ▸ (Opcode.encode_command hd (by simpa using hr)).symm)

/-- Settles O11: the effects are `exec`'s, and the one descriptor is the encoding. -/
theorem haltStopsAndNopAdvances : Obligations.HaltStopsAndNopAdvances :=
  ⟨fun _ => rfl, fun _ => rfl, fun _ hd => decodeDesc_of_fixed (op := .halt) hd rfl rfl,
    fun _ hd => decodeDesc_of_fixed (op := .nop) hd rfl rfl⟩

/-- Settles O5: each descriptor is the encoding of its command. -/
theorem specDescriptorsDecode : Obligations.SpecDescriptorsDecode := by
  refine ⟨?_, ?_, ?_, ?_, ?_, ?_, ?_, ?_, ?_, ?_, ?_, ?_⟩ <;> exact decodeDesc_eq_ok.2 ⟨rfl, rfl⟩

end Sys2Proof
end

section
/-!
PROOF. Keccak-p[1600, r] (40_keccak.md rules R132-R142): the tables against their derivation, each of the round's steps lane by
lane, the rounds that fewer than 24 skip, and the command KECCAK_P.
-/

namespace Sys2Proof.Machine

/-! ## Tables -/

/-- Settles O33: both sides are closed lists of 24 rows, which evaluate to the same. -/
theorem keccakTablesFollowDerivation : Obligations.KeccakTablesFollowDerivation := by
  unfold Obligations.KeccakTablesFollowDerivation
  decide

/-- No two steps of the ρ/π pass have one destination (40 R133). -/
theorem keccakPi_injective : Function.Injective keccakPi := by decide

/-- Lane 0 is no step's destination (40 R138). -/
theorem keccakPi_ne_zero : ∀ t : Fin 24, keccakPi t ≠ 0 := by decide

/-- The steps of the ρ/π pass make one cycle: the lane step t moves is the destination of the step before it, that of the last
step for step 0. Each lane but lane 0 is so moved, to the place π gives it, by its offset (40 R134, R138). -/
theorem exists_rhoPi_step : ∀ x y : Fin 5, x.val + 5 * y.val = 0 ∨ ∃ t : Fin 24,
    (keccakPi t).val = y.val + 5 * ((2 * x.val + 3 * y.val) % 5) ∧
    (keccakPi (t - 1)).val = x.val + 5 * y.val ∧ keccakRotl t = rhoOffset x y := by decide

/-! ## The fused ρ/π pass -/

/-- Lanes and carried lane after the first n steps of the pass. -/
def rhoPiSteps (a : Lanes) (n : Nat) : Lanes × Lane := ((List.finRange 24).take n).foldl rhoPiStep (a, a[1])

theorem rhoPiSteps_succ (a : Lanes) {n : Nat} (hn : n < 24) :
    rhoPiSteps a (n + 1) = rhoPiStep (rhoPiSteps a n) ⟨n, hn⟩ := by
  have hl : n < (List.finRange 24).length := by simpa using hn
  simp [rhoPiSteps, ← List.take_concat_get' _ _ hl]

/-- A step leaves alone every lane but its destination. -/
theorem rhoPiStep_of_ne (st : Lanes × Lane) {t : Fin 24} {i : Fin 25} (h : keccakPi t ≠ i) :
    (rhoPiStep st t).1[i.val] = st.1[i.val] :=
  Vector.getElem_set_ne (keccakPi t).isLt i.isLt fun hi => h (Fin.ext hi)

theorem rhoPiStep_destination (st : Lanes × Lane) (t : Fin 24) :
    (rhoPiStep st t).1[(keccakPi t).val] = st.2.rotateLeft (keccakRotl t) :=
  Vector.getElem_set_self _

/-- A lane that is no destination of the first n steps is as it was. -/
theorem rhoPiSteps_of_ne (a : Lanes) {n : Nat} (hn : n ≤ 24) {i : Fin 25} (h : ∀ t : Fin 24, t.val < n → keccakPi t ≠ i) :
    (rhoPiSteps a n).1[i.val] = a[i.val] := by
  induction n with
  | zero => rfl
  | succ n ih =>
    rw [rhoPiSteps_succ a hn, rhoPiStep_of_ne _ (h ⟨n, hn⟩ (Nat.lt_succ_self n))]
    exact ih (Nat.le_of_succ_le hn) fun t ht => h t (Nat.lt_succ_of_lt ht)

/-- Step t carries the old lane from the destination of the step before it. -/
theorem rhoPiSteps_carried (a : Lanes) (t : Fin 24) : (rhoPiSteps a t.val).2 = a[(keccakPi (t - 1)).val] := by
  obtain ⟨n, hn⟩ := t
  cases n with
  | zero => rfl
  | succ n =>
    have hpred : (⟨n + 1, hn⟩ - 1 : Fin 24) = ⟨n, by omega⟩ := by
      ext; simp only [Fin.sub_def]; omega
    simp only [hpred, rhoPiSteps_succ a (Nat.lt_of_succ_lt hn)]
    refine rhoPiSteps_of_ne a (by omega) fun t ht h => ?_
    rw [keccakPi_injective h] at ht
    exact absurd ht (Nat.lt_irrefl n)

/-- After the first n steps the destination of step t, one of them, holds the lane that step carried, rotated. -/
theorem rhoPiSteps_destination (a : Lanes) {n : Nat} (hn : n ≤ 24) (t : Fin 24) (ht : t.val < n) :
    (rhoPiSteps a n).1[(keccakPi t).val] = (a[(keccakPi (t - 1)).val]).rotateLeft (keccakRotl t) := by
  induction n with
  | zero => exact absurd ht (Nat.not_lt_zero _)
  | succ n ih =>
    rw [rhoPiSteps_succ a hn]
    by_cases hlast : t = ⟨n, hn⟩
    · subst hlast
      rw [rhoPiStep_destination, rhoPiSteps_carried a ⟨n, hn⟩]
    · have htn : t.val ≠ n := fun h => hlast (Fin.ext h)
      rw [rhoPiStep_of_ne _ fun h => hlast (keccakPi_injective h).symm]
      exact ih (Nat.le_of_succ_le hn) (by omega)

/-- The whole pass leaves lane 0 alone (40 R138). -/
theorem rhoPi_zero (a : Lanes) : (rhoPi a)[0] = a[0] :=
  rhoPiSteps_of_ne a (i := 0) le_rfl fun t _ => keccakPi_ne_zero t

/-- The whole pass moves each lane of the cycle to the next place on it, rotated (40 R138). -/
theorem rhoPi_destination (a : Lanes) (t : Fin 24) :
    (rhoPi a)[(keccakPi t).val] = (a[(keccakPi (t - 1)).val]).rotateLeft (keccakRotl t) :=
  rhoPiSteps_destination a le_rfl t t.isLt

theorem rotateLeft_zero (x : Lane) : x.rotateLeft 0 = x := by
  simp [BitVec.rotateLeft_def, BitVec.ushiftRight_eq_zero]

/-- Settles O34: lane 0 stays, with offset 0, and every other lane is moved by one step of the pass. -/
theorem fusedRhoPiIsStandard : Obligations.FusedRhoPiIsStandard := by
  intro a x y
  rcases exists_rhoPi_step x y with h0 | ⟨t, hdst, hsrc, hrot⟩
  · obtain ⟨rfl, rfl⟩ : x = 0 ∧ y = 0 := by omega
    exact (rhoPi_zero a).trans (rotateLeft_zero a[0]).symm
  · simpa only [hdst, hsrc, hrot] using rhoPi_destination a t

/-! ## θ, χ and ι -/

theorem theta_getElem (a : Lanes) (x y : Fin 5) :
    (theta a)[x.val + 5 * y.val]'(by omega) = a[x.val + 5 * y.val]'(by omega) ^^^ (thetaD (thetaC a))[x.val] := by
  have hcol : (x.val + 5 * y.val) % 5 = x.val := by omega
  simp [theta, hcol]

theorem chi_getElem (a : Lanes) (x y : Fin 5) :
    (chi a)[x.val + 5 * y.val]'(by omega) =
      a[x.val + 5 * y.val]'(by omega) ^^^
        (~~~(a[(x + 1).val + 5 * y.val]'(by omega)) &&& a[(x + 2).val + 5 * y.val]'(by omega)) := by
  have hrow (k : Nat) : 5 * ((x.val + 5 * y.val) / 5) + (x.val + 5 * y.val + k) % 5 = (x.val + k) % 5 + 5 * y.val := by omega
  simp [chi, hrow, Fin.val_add]

/-- Settles O35: the columns and rows that theta and chi compute with are those of lane x + 5y. -/
theorem thetaChiIotaByLane : Obligations.ThetaChiIotaByLane := by
  refine ⟨fun a x y => ?theta, chi_getElem, fun a ir => ⟨?zero, fun i hi => ?other⟩⟩
  case theta => simp [theta_getElem, thetaD, thetaC, Fin.val_add]
  case zero => exact Vector.getElem_set_self _
  case other => exact Vector.getElem_set_ne _ _ (Ne.symm hi)

/-! ## Rounds -/

theorem keccakRounds_zero (a : Lanes) : keccakRounds a 0 = a := rfl

/-- The first of r + 1 rounds is the one numbered 23 - r. -/
theorem keccakRounds_succ (a : Lanes) {r : Nat} (h : r < 24) :
    keccakRounds a (r + 1) = keccakRounds (keccakRound a ⟨23 - r, by omega⟩) r := by
  have hfirst : 24 - (r + 1) < (List.finRange 24).length := by simp; omega
  have hnext : 24 - (r + 1) + 1 = 24 - r := by omega
  have hnum : 24 - (r + 1) = 23 - r := by omega
  rw [keccakRounds, List.drop_eq_getElem_cons hfirst, List.foldl_cons, hnext, keccakRounds]
  simp [hnum]

theorem keccakP_eq (s : Vector Byte 200) (r : Nat) : keccakP s r = bytesOfLanes (keccakRounds (lanesOf s) r) := by
  unfold keccakP
  rfl

/-- Settles O36: the first of the last r + 1 rounds stands before the last r. -/
theorem fewerRoundsSkipLeadingOnes : Obligations.FewerRoundsSkipLeadingOnes :=
  ⟨keccakRounds_zero, fun a _ h => keccakRounds_succ a h, keccakP_eq⟩

/-! ## KECCAK_P -/

/-- Byte j of the state read from memory is the j-th byte the engine reads. -/
theorem stateOfBytes_engineBytes (s : State) (k a : Nat) :
    stateOfBytes (s.engineBytes k a 200) = Vector.ofFn fun j => s.engineByte k (a + j.val) := by
  refine Vector.ext fun j hj => ?_
  have hlen : j < (s.engineBytes k a 200).length := (s.engineBytes_length k a 200).symm ▸ hj
  simp only [stateOfBytes, Vector.getElem_ofFn]
  rw [List.getD_eq_getElem _ _ hlen, State.engineBytes_getElem]

/-- Settles O21: the checks pass, both ranges are open, and the source is read before the destination is written. -/
theorem keccakPPermutesMemory : Obligations.KeccakPPermutesMemory := by
  intro s rounds src dst hlo hhi ⟨hsrc, hsrcOpen⟩ ⟨hdst, hdstOpen⟩
  have hrounds : (decide (1 ≤ rounds.toNat) && decide (rounds.toNat ≤ 24)) = true := by simp [hlo, hhi]
  rw [exec, execKeccakP, hrounds, hsrc, hdst, State.check_true, State.check_true, State.check_true,
    State.memRead_of_open hsrcOpen, State.memWrite_of_open (by simpa using hdstOpen), stateOfBytes_engineBytes]
  simp [State.advance, State.engineStore]

end Sys2Proof.Machine
end

section
/-!
PROOF. The sponge state machine (41_sponge.md rules R161-R169): absorbing up to the rate boundary, the padding of SpFinish, and
the bytes SpSqueeze gives.
-/

namespace Sys2Proof.Machine

/-! ## SpAbsorb -/

/-- The state `s` with `data` xored in from byte `p` on (41 R163). -/
def xorFrom (s : Vector Byte 200) (p : Nat) (data : List Byte) : Vector Byte 200 :=
  Vector.ofFn fun j => if p ≤ j.val ∧ j.val < p + data.length then s[j.val] ^^^ data.getD (j.val - p) 0 else s[j.val]

theorem xorFrom_getElem_inside (s : Vector Byte 200) {p j : Nat} {data : List Byte} (hj : j < 200) (hp : p ≤ j)
    (hn : j < p + data.length) : (xorFrom s p data)[j] = s[j] ^^^ data[j - p] := by
  simp only [xorFrom, Vector.getElem_ofFn, if_pos (And.intro hp hn)]
  rw [List.getD_eq_getElem _ _ (by omega)]

theorem xorFrom_getElem_outside (s : Vector Byte 200) {p j : Nat} {data : List Byte} (hj : j < 200)
    (h : j < p ∨ p + data.length ≤ j) : (xorFrom s p data)[j] = s[j] := by
  have hout : ¬ (p ≤ j ∧ j < p + data.length) := by omega
  simp only [xorFrom, Vector.getElem_ofFn, if_neg hout]

theorem xorFrom_nil (s : Vector Byte 200) (p : Nat) : xorFrom s p [] = s :=
  Vector.ext fun j hj => xorFrom_getElem_outside s hj (Nat.lt_or_ge j p)

/-- One further byte goes to the place after the bytes xored in before it. -/
theorem xorFrom_concat (s : Vector Byte 200) {p : Nat} {data : List Byte} (b : Byte) (h : p + data.length < 200) :
    xorFrom s p (data ++ [b]) = (xorFrom s p data).set (p + data.length) (s[p + data.length] ^^^ b) := by
  have hlen : (data ++ [b]).length = data.length + 1 := by simp
  refine Vector.ext fun j hj => ?_
  rw [Vector.getElem_set]
  rcases Nat.lt_trichotomy j (p + data.length) with hlt | rfl | hgt
  · rw [if_neg (by omega)]
    rcases Nat.lt_or_ge j p with hp | hp
    · rw [xorFrom_getElem_outside s hj (.inl hp), xorFrom_getElem_outside s hj (.inl hp)]
    · rw [xorFrom_getElem_inside s hj hp (by omega), xorFrom_getElem_inside s hj hp hlt, List.getElem_append_left]
  · rw [if_pos rfl, xorFrom_getElem_inside s hj (by omega) (by omega)]
    simp
  · rw [if_neg (by omega), xorFrom_getElem_outside s hj (.inr (by omega)), xorFrom_getElem_outside s hj (.inr (by omega))]

theorem getD_of_lt (s : Vector Byte 200) {i : Nat} (hi : i < 200) : s.getD i 0 = s[i] := by
  rw [Vector.getD, Array.getD, dif_pos (by simpa using hi)]
  rfl

theorem SpongeCtx.xorAt_of_lt (x : SpongeCtx) {i : Nat} (hi : i < 200) (b : Byte) :
    x.xorAt i b = { x with s := x.s.set i (x.s[i] ^^^ b) } := by
  rw [SpongeCtx.xorAt, getD_of_lt _ hi]
  simp [Vector.setIfInBounds, Vector.set, Array.setIfInBounds, hi]

/-- The context after `data`, absorbed without a permutation (41 R163). -/
def SpongeCtx.mixed (x : SpongeCtx) (data : List Byte) : SpongeCtx :=
  { x with s := xorFrom x.s x.pos data, pos := x.pos + data.length }

theorem SpongeCtx.mixed_nil (x : SpongeCtx) : x.mixed [] = x := by
  rw [SpongeCtx.mixed, xorFrom_nil]
  rfl

theorem SpongeCtx.mixed_pos (x : SpongeCtx) (data : List Byte) : (x.mixed data).pos = x.pos + data.length := rfl

theorem SpongeCtx.mixed_rate (x : SpongeCtx) (data : List Byte) : (x.mixed data).rate = x.rate := by rw [SpongeCtx.mixed]

/-- One byte of SpAbsorb: xored in at POS, and the state permuted if the next POS is RATE (41 R163). -/
theorem SpongeCtx.absorbByte_eq (x : SpongeCtx) (b : Byte) :
    x.absorbByte b =
      if x.pos + 1 = x.rate then SpongeCtx.permute { x.xorAt x.pos b with pos := x.pos + 1 }
      else { x.xorAt x.pos b with pos := x.pos + 1 } := rfl

/-- Absorbing one further byte permutes where it reaches RATE (41 R163). -/
theorem SpongeCtx.absorbByte_mixed (x : SpongeCtx) (data : List Byte) (b : Byte) (h : x.pos + data.length < 200) :
    (x.mixed data).absorbByte b =
      if x.pos + data.length + 1 = x.rate then (x.mixed (data ++ [b])).permute else x.mixed (data ++ [b]) := by
  have hnext : { (x.mixed data).xorAt (x.pos + data.length) b with pos := x.pos + data.length + 1 } =
      x.mixed (data ++ [b]) := by
    rw [SpongeCtx.xorAt_of_lt _ h]
    simp only [SpongeCtx.mixed, xorFrom_concat x.s b h, xorFrom_getElem_outside x.s h (.inr le_rfl), List.length_append,
      List.length_singleton, Nat.add_assoc]
  rw [SpongeCtx.absorbByte_eq, SpongeCtx.mixed_pos, SpongeCtx.mixed_rate, hnext]

theorem SpongeCtx.absorb_below_rate (x : SpongeCtx) (hr : x.rate ≤ 199) (data : List Byte) (h : x.pos + data.length < x.rate) :
    x.absorb data = x.mixed data := by
  induction data using List.reverseRecOn with
  | nil => exact x.mixed_nil.symm
  | append_singleton data b ih =>
    rw [List.length_append, List.length_singleton] at h
    rw [SpongeCtx.absorb_append, ih (by omega)]
    exact (x.absorbByte_mixed data b (by omega)).trans (if_neg (by omega))

theorem SpongeCtx.absorb_up_to_rate (x : SpongeCtx) (hr : x.rate ≤ 199) {data : List Byte} (hne : data ≠ [])
    (h : x.pos + data.length = x.rate) : x.absorb data = (x.mixed data).permute := by
  obtain ⟨init, b, rfl⟩ := List.eq_nil_or_concat' data |>.resolve_left hne
  rw [List.length_append, List.length_singleton] at h
  rw [SpongeCtx.absorb_append, x.absorb_below_rate hr init (by omega)]
  exact (x.absorbByte_mixed init b (by omega)).trans (if_pos (by omega))

/-- Settles O39: bytes are mixed in one by one, and only the one that reaches RATE permutes. -/
theorem absorbXorsUpToTheRate : Obligations.AbsorbXorsUpToTheRate := by
  intro x data hr
  refine ⟨fun h => ?below, fun h hne => ?full⟩
  case below => rw [x.absorb_below_rate hr data h, SpongeCtx.mixed, xorFrom]
  case full => rw [x.absorb_up_to_rate hr hne h, SpongeCtx.mixed, xorFrom, SpongeCtx.permute]

/-! ## SpFinish -/

theorem SpongeCtx.finish_of_finished {x : SpongeCtx} (h : x.finished = true) : x.finish = x := by
  simp [SpongeCtx.finish, h]

/-- The context with FINISHED set and the suffix xored in, before the closing bit of the padding (41 R166). -/
def SpongeCtx.suffixed (x : SpongeCtx) : SpongeCtx := SpongeCtx.xorAt { x with finished := true } x.pos x.suffix

/-- The context the closing bit is xored into: permuted first where the suffix's top bit has taken that bit's place. -/
def SpongeCtx.beforeClosing (x : SpongeCtx) : SpongeCtx :=
  if x.suffix.getLsbD 7 && decide (x.pos = x.rate - 1) then x.suffixed.permute else x.suffixed

@[simp] theorem SpongeCtx.beforeClosing_rate (x : SpongeCtx) : x.beforeClosing.rate = x.rate := by
  unfold SpongeCtx.beforeClosing
  split <;> rfl

theorem SpongeCtx.finish_of_unfinished {x : SpongeCtx} (h : x.finished = false) :
    x.finish = (x.beforeClosing.xorAt (x.rate - 1) 0x80).permute := by
  rw [← x.beforeClosing_rate, SpongeCtx.finish, if_neg (by simp [h])]
  rfl

theorem SpongeCtx.xorAt_xorAt (x : SpongeCtx) {i : Nat} (hi : i < 200) (a b : Byte) :
    (x.xorAt i a).xorAt i b = x.xorAt i (a ^^^ b) := by
  simp [SpongeCtx.xorAt_of_lt _ hi, BitVec.xor_assoc]

/-- Settles O38: the suffix costs a permutation of its own only where its top bit falls on the closing bit's. -/
theorem spongePaddingCases : Obligations.SpongePaddingCases := by
  refine fun x => ⟨SpongeCtx.finish_of_finished, fun hf hc => ?once, fun hf htop hpos => ?twice,
    fun hf htop hpos hr => ?oneByte, fun hf => ?cursors⟩
  case once =>
    rw [SpongeCtx.finish_of_unfinished hf, SpongeCtx.beforeClosing, if_neg (by simpa using hc)]
    rfl
  case twice =>
    rw [SpongeCtx.finish_of_unfinished hf, SpongeCtx.beforeClosing, if_pos (by simpa using And.intro htop hpos)]
    rfl
  case oneByte =>
    rw [SpongeCtx.finish_of_unfinished hf, SpongeCtx.beforeClosing, if_neg (by simp only [htop]; exact Bool.false_ne_true),
      SpongeCtx.suffixed, hpos, SpongeCtx.xorAt_xorAt _ (by omega)]
  case cursors => rw [SpongeCtx.finish_of_unfinished hf]; exact ⟨rfl, rfl⟩

/-! ## SpSqueeze -/

theorem SpongeCtx.squeeze_zero (x : SpongeCtx) : x.squeeze 0 = ([], x.finish) := rfl

/-- A squeeze finalizes first (41 R169). -/
theorem SpongeCtx.squeeze_finish (x : SpongeCtx) (n : Nat) : x.finish.squeeze n = x.squeeze n := by
  rw [SpongeCtx.squeeze, SpongeCtx.finish_finish, SpongeCtx.squeeze]

theorem SpongeCtx.squeeze_of_finished {x : SpongeCtx} (h : x.finished = true) (n : Nat) :
    x.squeeze n = SpongeCtx.squeezeLoop n x := by
  rw [SpongeCtx.squeeze, SpongeCtx.finish_of_finished h]

theorem SpongeCtx.refill_of_lt {x : SpongeCtx} (h : x.posOut < x.rate) : x.refill = x := if_neg (Nat.not_le.2 h)

theorem SpongeCtx.refill_of_le {x : SpongeCtx} (h : x.rate ≤ x.posOut) : x.refill = x.permute := if_pos h

/-- The squeeze of at least one byte begins with the refill (41 R169). -/
theorem SpongeCtx.squeezeLoop_succ_of_refill {x y : SpongeCtx} (h : x.refill = y.refill) (n : Nat) :
    SpongeCtx.squeezeLoop (n + 1) x = SpongeCtx.squeezeLoop (n + 1) y := by
  simp only [SpongeCtx.squeezeLoop, h]

/-- A finalized context whose cursor is below RATE gives the byte there first. -/
theorem SpongeCtx.squeeze_succ_of_lt {x : SpongeCtx} (h : x.posOut < x.rate) (hr : x.rate ≤ 199) (hf : x.finished = true)
    (n : Nat) :
    x.squeeze (n + 1) =
      (x.s[x.posOut] :: (SpongeCtx.squeeze { x with posOut := x.posOut + 1 } n).1,
       (SpongeCtx.squeeze { x with posOut := x.posOut + 1 } n).2) := by
  have hnext : SpongeCtx.finished { x with posOut := x.posOut + 1 } = true := hf
  rw [SpongeCtx.squeeze_of_finished hf, SpongeCtx.squeeze_of_finished hnext, ← getD_of_lt x.s (by omega)]
  simp only [SpongeCtx.squeezeLoop, SpongeCtx.refill_of_lt h]

/-- A finalized context whose cursor has reached RATE is permuted before it gives a byte. -/
theorem SpongeCtx.squeeze_succ_of_le {x : SpongeCtx} (hf : x.finished = true) (hr : 1 ≤ x.rate) (h : x.rate ≤ x.posOut)
    (n : Nat) : x.squeeze (n + 1) = x.permute.squeeze (n + 1) := by
  have hlt : x.permute.posOut < x.permute.rate := hr
  rw [SpongeCtx.squeeze_of_finished hf, SpongeCtx.squeeze_of_finished (x.permute_finished.trans hf)]
  refine SpongeCtx.squeezeLoop_succ_of_refill ?_ n
  rw [SpongeCtx.refill_of_le h, SpongeCtx.refill_of_lt hlt]

/-- Squeezing m + n bytes is squeezing m and then n (41 R170). -/
theorem SpongeCtx.squeeze_add (x : SpongeCtx) (m n : Nat) :
    x.squeeze (m + n) = ((x.squeeze m).1 ++ ((x.squeeze m).2.squeeze n).1, ((x.squeeze m).2.squeeze n).2) := by
  rw [SpongeCtx.squeeze_of_finished (x.squeeze_finished m)]
  exact SpongeCtx.squeezeLoop_add m n x.finish

end Sys2Proof.Machine
end

section
/-!
PROOF. The commands on a sponge slot and on a slot of either kind (41_sponge.md rules R160-R172, 44_context_commands.md rules
R241-R249): what each leaves when it completes, and that UPDATE and XOF may be given a range in two parts.
-/

namespace Sys2Proof.Machine

/-! ## Plain ranges and their parts -/

theorem State.Plain.mono {s : State} {a : Word} {n m : Nat} (h : s.Plain a n) (hm : m ≤ n) : s.Plain a m :=
  ⟨s.cfg.rangeOK_mono h.1 hm, (s.cfg.barredRange_eq_none _ _).2 fun k hk =>
    (s.cfg.barredRange_eq_none _ _).1 h.2 k (Nat.lt_of_lt_of_le hk hm)⟩

/-- The second part of a plain range begins where the first ends, or is empty: only an empty one can begin at 2^32. -/
theorem State.Plain.second_start {s : State} {a : Word} {m n : Nat} (h : s.Plain a (m + n)) :
    n = 0 ∨ (a + BitVec.ofNat 32 m).toNat = a.toNat + m := by
  rcases Nat.eq_zero_or_pos n with hn | hn
  · exact .inl hn
  · have hend := Config.rangeOK_bound h.1 le_rfl
    rw [addrSpace] at hend
    right
    rw [BitVec.toNat_add, BitVec.toNat_ofNat]
    omega

theorem State.Plain.second {s : State} {a : Word} {m n : Nat} (h : s.Plain a (m + n)) :
    s.Plain (a + BitVec.ofNat 32 m) n := by
  rcases h.second_start with rfl | ha
  · exact ⟨rfl, rfl⟩
  · rw [State.Plain, State.rangeOK, ha]
    refine ⟨(s.cfg.rangeOK_add _ m n h.1).2, (s.cfg.barredRange_eq_none _ _).2 fun k hk => ?_⟩
    rw [Nat.add_assoc]
    exact (s.cfg.barredRange_eq_none _ _).1 h.2 (m + k) (by omega)

theorem State.Unraced.second {s : State} {a m n : Nat} (h : s.Unraced a (m + n)) : s.Unraced (a + m) n := fun k hk => by
  rw [Nat.add_assoc]
  exact h (m + k) (by omega)

theorem toNat_ofNat_of_lt {n : Nat} (h : n < 2 ^ 32) : (BitVec.ofNat 32 n).toNat = n := by
  rw [BitVec.toNat_ofNat, Nat.mod_eq_of_lt h]

/-- A store into the beginning of a plain range happens. -/
theorem State.memWrite_of_plain {s : State} {a : Word} {n : Nat} {data : List Byte} (h : s.Plain a n) (hd : data.length ≤ n)
    (rest : State → Out) : s.memWrite a data rest = rest (s.engineStore a.toNat data) :=
  State.memWrite_of_open (h.mono hd).2 rest

/-! ## INIT_SPONGE, CLONE and DESTROY -/

/-- Settles O12: the four checks pass on these operands. -/
theorem initSpongeMakesFreshSlot : Obligations.InitSpongeMakesFreshSlot := by
  intro s c rate suffix rounds xof outlen hc hrlo hrhi hnlo hnhi ho
  have hindex : s.indexOK c = true := decide_eq_true hc
  simp only [exec, execInitSponge, hindex, hrlo, hrhi, hnlo, hnhi, ho, decide_true, Bool.and_self, State.check_true]
  rfl

/-- Settles O19: the source is live, and the destination is written whole. -/
theorem cloneCopiesEveryField : Obligations.CloneCopiesEveryField := by
  intro s src dst x hx hd hdst hne
  have hindex : (s.indexOK src && s.indexOK dst) = true := by
    simp [State.indexOK, hdst, State.lt_nctx_of_some hx]
  have hother : (src != dst) = true := by simpa using hne
  rw [exec, execClone, hindex, hother, State.check_true, State.check_true, State.live_of_some hx hd]
  rfl

theorem exec_destroy_of_holds {s : State} {c : Byte} {x : Ctx} (hx : s.Holds c x) :
    exec (.destroy c) s = .next (s.setSlot c x.destroy).advance := by
  rw [exec, execDestroy, State.occupied_of_some hx]

/-- A destroyed slot that meets the invariant is wiped already. -/
theorem Ctx.destroy_of_destroyed {x : Ctx} (hi : x.Inv) (hd : x.destroyed = true) : x.destroy = x := by
  cases x with
  | sponge y =>
    have hs : y.s = zeroState := SpongeCtx.Inv.wiped hi hd
    have hd : y.destroyed = true := hd
    rw [Ctx.destroy, SpongeCtx.destroy, ← hs, ← hd]
  | blake2 v y =>
    obtain ⟨hh, hb⟩ := Blake2Ctx.Inv.wiped hi hd
    have hd : y.destroyed = true := hd
    rw [Ctx.destroy, Blake2Ctx.destroy, ← hh, ← hb, ← hd]

/-- Writing to a slot what it holds changes nothing. -/
theorem State.setSlot_of_holds {s : State} {c : Byte} {x : Ctx} (h : s.Holds c x) : s.setSlot c x = s := by
  obtain ⟨hlt, hget⟩ := List.getElem?_eq_some_iff.1 h
  rw [State.setSlot, ← hget, List.set_getElem_self]

/-- Settles O20: DESTROY checks no more than that the slot is occupied, and wipes it. -/
theorem destroyWipesAndMarks : Obligations.DestroyWipesAndMarks := by
  refine ⟨fun s c x hx => ?sponge, fun s c v x hx => ?blake2, fun s c x hi hx hd => ?destroyed⟩
  case sponge => exact exec_destroy_of_holds hx
  case blake2 => exact exec_destroy_of_holds hx
  case destroyed =>
    rw [exec_destroy_of_holds hx, Ctx.destroy_of_destroyed (hi.contexts _ x hx) hd, State.setSlot_of_holds hx]
    rfl

/-! ## DIGEST -/

theorem exec_digest_of_plain {s : State} {c : Byte} {addr : Word} {x : Ctx} (hx : s.Holds c x) (hd : x.destroyed = false)
    (hf : x.finished = false) (hp : s.Plain addr x.outlen) :
    exec (.digest c addr) s = .next ((s.engineStore addr.toNat x.digest.1).setSlot c x.digest.2).advance := by
  simp only [exec, execDigest, State.live_of_some hx hd, hf, hp.1, Bool.not_false, State.check_true]
  exact State.memWrite_of_plain hp x.digest_length_le _

/-- DIGEST of a BLAKE2 slot writes OUTLEN bytes, as OUTLEN is at most KK, the number of bytes of H (42 R192, 43 R228). -/
theorem Blake2Ctx.digestCount_eq_outlen {v : Variant} {x : Blake2Ctx v} (h : x.outlen ≤ blake2KK v) :
    (Ctx.blake2 v x).digestCount = x.outlen := by
  have hkk : blake2KK v = blake2HB v := by cases v <;> rfl
  exact Nat.min_eq_left (hkk ▸ h)

/-- Settles O16: as many bytes are stored as OUTLEN says, for either kind. -/
theorem digestStoresAndDestroys : Obligations.DigestStoresAndDestroys := by
  refine ⟨fun s c addr x hx hd hf hp => ?sponge, fun s c addr v x hx hd hf hkk hp => ?blake2⟩
  case sponge =>
    rw [exec_digest_of_plain hx hd hf hp, State.engineStore, Ctx.digest_length]
    rfl
  case blake2 =>
    rw [exec_digest_of_plain hx hd hf hp, State.engineStore, Ctx.digest_length, Blake2Ctx.digestCount_eq_outlen hkk]
    rfl

/-! ## UPDATE -/

/-- The state after an UPDATE of slot `c`, which held `x`, with the `n` bytes from `a` (44 R241). -/
def State.afterUpdate (s : State) (c : Byte) (x : Ctx) (a n : Nat) : State :=
  ((s.engineRead a n).setSlot c (x.absorb (s.engineBytes 1 a n))).advance

theorem exec_update_of_plain {s : State} {c : Byte} {addr len : Word} {x : Ctx} {n : Nat} (hn : len.toNat = n)
    (hx : s.Holds c x) (hd : x.destroyed = false) (hf : x.finished = false) (hp : s.Plain addr n)
    (hl : x.counterFits n = true) : exec (.update c addr len) s = .next (s.afterUpdate c x addr.toNat n) := by
  subst hn
  simp only [exec, execUpdate, State.live_of_some hx hd, hf, hp.1, hl, Bool.not_false, State.check_true]
  exact State.memRead_of_open hp.2 ..

/-- Settles O15: the slot takes the bytes read, by `Ctx.absorb` for its kind. -/
theorem updateAbsorbsTheRange : Obligations.UpdateAbsorbsTheRange := by
  intro s c addr len x hx hd hf hp hl
  rw [exec_update_of_plain rfl hx hd hf hp hl]
  cases x <;> rfl

theorem Ctx.absorb_append (x : Ctx) (xs ys : List Byte) : x.absorb (xs ++ ys) = (x.absorb xs).absorb ys := by
  cases x with
  | sponge y => exact congrArg Ctx.sponge (y.absorb_append xs ys)
  | blake2 v y => exact congrArg (Ctx.blake2 v) (y.update_append xs ys)

theorem Ctx.absorb_destroyed (x : Ctx) (data : List Byte) : (x.absorb data).destroyed = x.destroyed := by
  cases x with
  | sponge y => exact y.absorb_destroyed data
  | blake2 v y =>
    obtain ⟨-, -, hdestroyed, -⟩ := y.update_fixed data
    exact hdestroyed

theorem Ctx.absorb_finished (x : Ctx) (data : List Byte) : (x.absorb data).finished = x.finished := by
  cases x with
  | sponge y => exact y.absorb_finished data
  | blake2 v y =>
    obtain ⟨-, hfinished, -, -⟩ := y.update_fixed data
    exact hfinished

/-- The counter has moved on by the bytes absorbed (43 R224). -/
theorem Ctx.absorb_counterFits (x : Ctx) (data : List Byte) (n : Nat) :
    (x.absorb data).counterFits n = x.counterFits (data.length + n) := by
  cases x with
  | sponge y => rfl
  | blake2 v y =>
    obtain ⟨-, -, -, hlength⟩ := y.update_fixed data
    simp only [Ctx.absorb, Ctx.counterFits, hlength, Nat.add_assoc]

theorem Ctx.counterFits_mono {x : Ctx} {m n : Nat} (h : x.counterFits n = true) (hm : m ≤ n) : x.counterFits m = true := by
  cases x with
  | sponge y => rfl
  | blake2 v y =>
    simp only [Ctx.counterFits, decide_eq_true_eq] at h ⊢
    omega

theorem State.afterUpdate_holds {s : State} {c : Byte} {x : Ctx} (hx : s.Holds c x) (a n : Nat) :
    (s.afterUpdate c x a n).Holds c (x.absorb (s.engineBytes 1 a n)) :=
  State.setSlot_self _ c _ (State.lt_nctx_of_some hx)

/-- What an UPDATE notes of its read changes no byte a later command reads, where none is raced. -/
theorem State.afterUpdate_engineBytes {s : State} {b n : Nat} (h : s.Unraced b n) (c : Byte) (x : Ctx) (a m k : Nat) :
    (s.afterUpdate c x a m).engineBytes k b n = s.engineBytes k b n := by
  have h' : (s.afterUpdate c x a m).Unraced b n := h
  rw [State.engineBytes_of_unraced h, State.engineBytes_of_unraced h']
  rfl

/-- Two UPDATEs in a row leave the slots that one leaves (41 R165, 43 R227). -/
theorem State.afterUpdate_twice_ctx {s : State} {a b m n : Nat} (hb : n = 0 ∨ b = a + m) (hu : s.Unraced (a + m) n)
    (c : Byte) (x : Ctx) :
    ((s.afterUpdate c x a m).afterUpdate c (x.absorb (s.engineBytes 1 a m)) b n).ctx =
      (s.afterUpdate c x a (m + n)).ctx := by
  have hsecond : (s.afterUpdate c x a m).engineBytes 1 b n = s.engineBytes 1 (a + m) n := by
    rcases hb with rfl | rfl
    · rfl
    · exact State.afterUpdate_engineBytes hu c x a m 1
  calc ((s.afterUpdate c x a m).afterUpdate c (x.absorb (s.engineBytes 1 a m)) b n).ctx
    _ = s.ctx.set c.toNat (some ((x.absorb (s.engineBytes 1 a m)).absorb (s.engineBytes 1 (a + m) n))) := by
      rw [← hsecond]
      exact List.set_set ..
    _ = (s.afterUpdate c x a (m + n)).ctx := by
      rw [← Ctx.absorb_append, ← State.engineBytes_add]
      rfl

/-- Settles O40: the first UPDATE leaves a live unfinished slot with room for the rest, which the second absorbs. -/
theorem updateChunkingInvariance : Obligations.UpdateChunkingInvariance := by
  intro s c a m n x hx hd hf hmn hp hu hl
  have hfirst := exec_update_of_plain (toNat_ofNat_of_lt (by omega)) hx hd hf (hp.mono (Nat.le_add_right m n))
    (Ctx.counterFits_mono hl (Nat.le_add_right m n))
  have hroom : (x.absorb (s.engineBytes 1 a.toNat m)).counterFits n = true := by
    rw [Ctx.absorb_counterFits, State.engineBytes_length, hl]
  have hplain : (s.afterUpdate c x a.toNat m).Plain (a + BitVec.ofNat 32 m) n := hp.second
  have hsecond := exec_update_of_plain (toNat_ofNat_of_lt (by omega)) (State.afterUpdate_holds hx a.toNat m)
    ((x.absorb_destroyed _).trans hd) ((x.absorb_finished _).trans hf) hplain hroom
  have hwhole := exec_update_of_plain (toNat_ofNat_of_lt hmn) hx hd hf hp hl
  exact ⟨_, _, _, hfirst, hsecond, hwhole, State.afterUpdate_twice_ctx hp.second_start hu.second c x, rfl⟩

/-! ## XOF -/

/-- The state after an XOF of slot `c`, which held the sponge `x`, of `n` bytes to `a` (44 R247). -/
def State.afterXof (s : State) (c : Byte) (x : SpongeCtx) (a n : Nat) : State :=
  ((s.engineStore a (x.squeeze n).1).setSlot c (.sponge (x.squeeze n).2)).advance

theorem exec_xof_of_plain {s : State} {c : Byte} {addr len : Word} {x : SpongeCtx} {n : Nat} (hn : len.toNat = n)
    (hx : s.Holds c (.sponge x)) (hd : x.destroyed = false) (hxof : x.xof = true) (hp : s.Plain addr n) :
    exec (.xof c addr len) s = .next (s.afterXof c x addr.toNat n) := by
  subst hn
  have hpermitted : (Ctx.sponge x).isXof = true := hxof
  simp only [exec, execXof, State.live_of_some hx hd, hpermitted, hp.1, State.check_true]
  exact State.memWrite_of_plain hp (Ctx.squeeze_length_le _ _) _

/-- Settles O18: the command stores what SpSqueeze gives, and SpSqueeze gives its bytes one at a time. -/
theorem xofStoresSqueezedBytes : Obligations.XofStoresSqueezedBytes := by
  refine ⟨fun s c addr len x hx hd hxof hp => ⟨?stored, x.squeeze_length _, x.squeeze_finished _,
    (x.squeeze_destroyed _).trans hd⟩, fun x n => ⟨x.squeeze_zero, (x.squeeze_finish n).symm,
    fun h hr hf => SpongeCtx.squeeze_succ_of_lt h hr hf n, fun hf hr h => SpongeCtx.squeeze_succ_of_le hf hr h n⟩⟩
  rw [exec_xof_of_plain rfl hx hd hxof hp, State.afterXof, State.engineStore, SpongeCtx.squeeze_length]
  rfl

theorem SpongeCtx.squeeze_xof (x : SpongeCtx) (n : Nat) : (x.squeeze n).2.xof = x.xof := by
  have h := x.squeeze_params n
  simp only [SpongeCtx.params, Prod.mk.injEq] at h
  obtain ⟨-, -, -, hxof, -⟩ := h
  exact hxof

theorem State.afterXof_holds {s : State} {c : Byte} {x : SpongeCtx} (hx : s.Holds c (.sponge x)) (a n : Nat) :
    (s.afterXof c x a n).Holds c (.sponge (x.squeeze n).2) :=
  State.setSlot_self _ c _ (State.lt_nctx_of_some hx)

/-- Two XOFs in a row leave the slots that one leaves (41 R170). -/
theorem State.afterXof_twice_ctx (s : State) (c : Byte) (x : SpongeCtx) (a b m n : Nat) :
    ((s.afterXof c x a m).afterXof c (x.squeeze m).2 b n).ctx = (s.afterXof c x a (m + n)).ctx := by
  calc ((s.afterXof c x a m).afterXof c (x.squeeze m).2 b n).ctx
    _ = s.ctx.set c.toNat (some (.sponge ((x.squeeze m).2.squeeze n).2)) := List.set_set ..
    _ = s.ctx.set c.toNat (some (.sponge (x.squeeze (m + n)).2)) := by rw [x.squeeze_add]

/-- Two XOFs in a row into one range leave the memory that one leaves (41 R170). -/
theorem State.afterXof_twice_mem (s : State) (c : Byte) (x : SpongeCtx) {a b m n : Nat} (hb : n = 0 ∨ b = a + m) :
    ((s.afterXof c x a m).afterXof c (x.squeeze m).2 b n).mem = (s.afterXof c x a (m + n)).mem := by
  calc ((s.afterXof c x a m).afterXof c (x.squeeze m).2 b n).mem
    _ = (s.mem.writeBytes a (x.squeeze m).1).writeBytes (a + m) ((x.squeeze m).2.squeeze n).1 := by
      rcases hb with rfl | rfl <;> rfl
    _ = s.mem.writeBytes a (x.squeeze (m + n)).1 := by
      rw [x.squeeze_add, Memory.writeBytes_append, SpongeCtx.squeeze_length]

/-- Settles O41: the first XOF leaves a live slot of the same kind, and the second squeezes on from it. -/
theorem xofChunkingInvariance : Obligations.XofChunkingInvariance := by
  intro s c a m n x hx hd hxof hmn hp
  have hfirst := exec_xof_of_plain (toNat_ofNat_of_lt (by omega)) hx hd hxof (hp.mono (Nat.le_add_right m n))
  have hplain : (s.afterXof c x a.toNat m).Plain (a + BitVec.ofNat 32 m) n := hp.second
  have hsecond := exec_xof_of_plain (toNat_ofNat_of_lt (by omega)) (State.afterXof_holds hx a.toNat m)
    ((x.squeeze_destroyed m).trans hd) ((x.squeeze_xof m).trans hxof) hplain
  have hwhole := exec_xof_of_plain (toNat_ofNat_of_lt hmn) hx hd hxof hp
  exact ⟨_, _, _, hfirst, hsecond, hwhole, s.afterXof_twice_ctx c x _ _ m n, s.afterXof_twice_mem c x hp.second_start⟩

end Sys2Proof.Machine
end

section
/-!
PROOF. How a BLAKE2 slot begins (42_blake2_compress.md rules R193-R207): the state INIT_BLAKE2S and INIT_BLAKE2B leave, the slot
B2Init gives, and the compressions the spec works out.
-/

namespace Sys2Proof.Machine

/-! ## Bytes that fit the block buffer -/

section Buffer

variable {v : Variant}

/-- The block buffer `buf` with `data` written from byte `p` on (43 R220). -/
def blockWith (buf : Vector Byte v.bb) (p : Nat) (data : List Byte) : Vector Byte v.bb :=
  Vector.ofFn fun j => if p ≤ j.val ∧ j.val < p + data.length then data.getD (j.val - p) 0 else buf[j.val]

theorem blockWith_getElem_inside (buf : Vector Byte v.bb) {p j : Nat} {data : List Byte} (hj : j < v.bb) (hp : p ≤ j)
    (hn : j < p + data.length) : (blockWith buf p data)[j] = data[j - p] := by
  simp only [blockWith, Vector.getElem_ofFn, if_pos (And.intro hp hn)]
  exact List.getD_eq_getElem _ _ (by omega)

theorem blockWith_getElem_outside (buf : Vector Byte v.bb) {p j : Nat} {data : List Byte} (hj : j < v.bb)
    (h : j < p ∨ p + data.length ≤ j) : (blockWith buf p data)[j] = buf[j] := by
  have hout : ¬ (p ≤ j ∧ j < p + data.length) := by omega
  simp only [blockWith, Vector.getElem_ofFn, if_neg hout]

theorem blockWith_nil (buf : Vector Byte v.bb) (p : Nat) : blockWith buf p [] = buf :=
  Vector.ext fun j hj => blockWith_getElem_outside buf hj (Nat.lt_or_ge j p)

/-- The first byte goes to its place, the others after it. -/
theorem blockWith_cons (buf : Vector Byte v.bb) {p : Nat} (b : Byte) (data : List Byte) (h : p + (b :: data).length ≤ v.bb) :
    blockWith buf p (b :: data) = blockWith (buf.setIfInBounds p b) (p + 1) data := by
  rw [List.length_cons] at h
  refine Vector.ext fun j hj => ?_
  rcases Nat.lt_trichotomy j p with hlt | rfl | hgt
  · rw [blockWith_getElem_outside _ hj (.inl hlt), blockWith_getElem_outside _ hj (.inl (by omega)),
      Vector.getElem_setIfInBounds_ne hj (by omega)]
  · rw [blockWith_getElem_inside _ hj le_rfl (by simp), blockWith_getElem_outside _ hj (.inl (by omega)),
      Vector.getElem_setIfInBounds_self]
    simp
  · obtain ⟨i, rfl⟩ : ∃ i, j = p + 1 + i := ⟨j - (p + 1), by omega⟩
    rcases Nat.lt_or_ge i data.length with hin | hout
    · rw [blockWith_getElem_inside _ hj (by omega) (by rw [List.length_cons]; omega),
        blockWith_getElem_inside _ hj (by omega) (by omega)]
      simp [show p + 1 + i - p = i + 1 by omega]
    · rw [blockWith_getElem_outside _ hj (.inr (by rw [List.length_cons]; omega)),
        blockWith_getElem_outside _ hj (.inr (by omega)), Vector.getElem_setIfInBounds_ne hj (by omega)]

/-- The slot after `data`, put into the buffer without a compression (43 R220). -/
def Blake2Ctx.buffered (x : Blake2Ctx v) (data : List Byte) : Blake2Ctx v :=
  { x with buf := blockWith x.buf x.pos data, pos := x.pos + data.length, length := x.length + data.length }

theorem Blake2Ctx.buffered_nil (x : Blake2Ctx v) : x.buffered [] = x := by
  rw [Blake2Ctx.buffered, blockWith_nil]
  rfl

theorem Blake2Ctx.buffered_cons (x : Blake2Ctx v) (b : Byte) (data : List Byte) (h : x.pos + (b :: data).length ≤ v.bb) :
    x.buffered (b :: data) = (x.putByte b).buffered data := by
  simp only [Blake2Ctx.buffered, Blake2Ctx.putByte, blockWith_cons x.buf b data h, List.length_cons, Nat.add_assoc,
    Nat.add_comm 1]

theorem Blake2Ctx.updateByte_of_lt {x : Blake2Ctx v} (h : x.pos < v.bb) (b : Byte) : x.updateByte b = x.putByte b := by
  rw [Blake2Ctx.updateByte, Blake2Ctx.flushFull, if_neg (Nat.ne_of_lt h)]

/-- Bytes that fit the buffer are buffered, and nothing is compressed (43 R222). -/
theorem Blake2Ctx.update_within (data : List Byte) (x : Blake2Ctx v) (h : x.pos + data.length ≤ v.bb) :
    x.update data = x.buffered data := by
  induction data generalizing x with
  | nil => exact x.buffered_nil.symm
  | cons b data ih =>
    have hlt : x.pos < v.bb := by rw [List.length_cons] at h; omega
    have hrest : (x.putByte b).pos + data.length ≤ v.bb := by
      rw [List.length_cons] at h
      show x.pos + 1 + data.length ≤ v.bb
      omega
    rw [Blake2Ctx.update_cons, Blake2Ctx.updateByte_of_lt hlt, ih _ hrest, x.buffered_cons b data h]

end Buffer

/-! ## B2Init -/

/-- The key's byte, then zeros (42 R203). -/
theorem blake2KeyBlock_getElem (v : Variant) (key : List Byte) (j : Nat) (h : j < (blake2KeyBlock v key).length) :
    (blake2KeyBlock v key)[j] = key.getD j 0 := by
  rcases Nat.lt_or_ge j key.length with hj | hj
  · simp [blake2KeyBlock, List.getElem_append_left hj, hj]
  · simp [blake2KeyBlock, List.getElem_append_right hj, hj]

/-- The key block, written from the start, replaces the whole buffer (42 R203). -/
theorem blockWith_keyBlock {v : Variant} (buf : Vector Byte v.bb) {key : List Byte} (h : key.length ≤ blake2KK v) :
    blockWith buf 0 (blake2KeyBlock v key) = Vector.ofFn fun j => key.getD j.val 0 := by
  refine Vector.ext fun j hj => ?_
  have hin : j < 0 + (blake2KeyBlock v key).length := by rw [blake2KeyBlock_length h, Nat.zero_add]; exact hj
  rw [blockWith_getElem_inside buf hj (Nat.zero_le j) hin, blake2KeyBlock_getElem, Vector.getElem_ofFn, Nat.sub_zero]

/-- A key's block fits the empty buffer, which it fills (42 R203). -/
theorem Blake2Ctx.create_keyed {v : Variant} {key : List Byte} (hpos : 1 ≤ key.length) (hkk : key.length ≤ blake2KK v)
    (outlen : Nat) (salt pers : Option (List Byte)) :
    Blake2Ctx.create v outlen (some key) salt pers =
      (Blake2Ctx.fresh v outlen key.length salt pers).buffered (blake2KeyBlock v key) := by
  have hfits : (Blake2Ctx.fresh v outlen key.length salt pers).pos + (blake2KeyBlock v key).length ≤ v.bb := by
    rw [blake2KeyBlock_length hkk]
    exact (Nat.zero_add _).le
  exact (if_pos hpos).trans (Blake2Ctx.update_within _ _ hfits)

/-- Word k of a salt or personalization that is absent or present (42 R204). -/
theorem blake2OptionWord_eq_elim (v : Variant) (o : Option (List Byte)) (k : Nat) :
    blake2OptionWord v o k = o.elim 0 fun b => leWord v.w ((b.drop (k * (v.w / 8))).take (v.w / 8)) := by
  cases o <;> rfl

/-- Settles O43: without a key the slot is the fresh one, and with a key its block is buffered in it. -/
theorem blake2InitialState : Obligations.Blake2InitialState := by
  refine ⟨fun v outlen kl salt pers => ?h, fun v outlen salt pers => rfl, fun v outlen key salt pers hpos hkk => ?keyed⟩
  case h =>
    simp only [blake2ParamInit, blake2OptionWord_eq_elim, Nat.zero_mul, List.drop_zero, Nat.one_mul]
  case keyed =>
    rw [Blake2Ctx.create_keyed hpos hkk, Blake2Ctx.buffered, Blake2Ctx.fresh, blockWith_keyBlock _ hkk,
      blake2KeyBlock_length hkk, Nat.zero_add]

/-! ## INIT_BLAKE2S and INIT_BLAKE2B -/

/-- What the reads of options note, from what was noted before (20 R73). -/
def Sync.optReads (y : Sync) (os : List OptRange) : Sync :=
  os.foldl (fun y r => if r.present then y.engineReads r.addr.toNat r.len.toNat else y) y

theorem State.optRead_eq_sync (s : State) (r : OptRange) : s.optRead r = { s with sync := s.sync.optReads [r] } := by
  unfold State.optRead
  split
  · next hp => simp [Sync.optReads, hp, State.engineRead]
  · next hp => simp [Sync.optReads, hp]

theorem optLenOK_of_present {r : OptRange} {lo hi : Nat} (h : r.present = true → lo ≤ r.len.toNat ∧ r.len.toNat ≤ hi) :
    optLenOK r lo hi = true := by
  rw [← optLenOK_eq_decide]
  exact decide_eq_true h

theorem optLenOK_of_exact {r : OptRange} {n : Nat} (h : r.present = true → r.len.toNat = n) : optLenOK r n n = true := by
  rw [← optLenOK_eq_decide_exact]
  exact decide_eq_true h

theorem State.optRangeOK_of_plain {s : State} {r : OptRange} (h : r.present = true → s.Plain r.addr r.len.toNat) :
    s.optRangeOK r = true := by
  rw [← State.optRangeOK_eq_decide]
  exact decide_eq_true fun hp => (h hp).1

/-- The state after an INIT of variant `v` with the options in plain memory (42 R203, R205, R206). -/
def State.afterInitBlake2 (s : State) (v : Variant) (c : Byte) (outlen : Nat) (key salt pers : OptRange) : State :=
  { s with
    sync := s.sync.optReads [key, salt, pers]
    ctx := s.ctx.set c.toNat (some (.blake2 v
      (Blake2Ctx.create v outlen (optBytes s 1 key) (optBytes s 2 salt) (optBytes s 3 pers))))
    cp := s.cp + 32
    draws := s.draws + 1 }

/-- With operands in the variant's bounds every check passes, and every option is read. -/
theorem initBlake2_of_plain {v : Variant} {s : State} {c : Byte} {outlen : Word} {key salt pers : OptRange}
    (hc : c.toNat < s.nctx) (holo : 1 ≤ outlen.toNat) (hohi : outlen.toNat ≤ blake2KK v)
    (hkey : key.present = true → 1 ≤ key.len.toNat ∧ key.len.toNat ≤ blake2KK v)
    (hsalt : salt.present = true → salt.len.toNat = blake2SL v) (hpers : pers.present = true → pers.len.toNat = blake2PL v)
    (hplain : ∀ r ∈ [key, salt, pers], r.present = true → s.Plain r.addr r.len.toNat) :
    initBlake2 v c outlen key salt pers s = .next (s.afterInitBlake2 v c outlen.toNat key salt pers) := by
  have hindex : s.indexOK c = true := decide_eq_true hc
  have hkeyPlain := hplain key (by simp)
  have hsaltPlain := hplain salt (by simp)
  have hpersPlain := hplain pers (by simp)
  simp only [initBlake2, hindex, holo, hohi, optLenOK_of_present hkey, optLenOK_of_exact hsalt, optLenOK_of_exact hpers,
    State.optRangeOK_of_plain hkeyPlain, State.optRangeOK_of_plain hsaltPlain, State.optRangeOK_of_plain hpersPlain,
    decide_true, Bool.and_self, State.check_true]
  rw [State.readOption_of_open fun h => (hkeyPlain h).2,
    State.readOption_of_open fun h => by simpa only [State.optRead_cfg] using (hsaltPlain h).2,
    State.readOption_of_open fun h => by simpa only [State.optRead_cfg] using (hpersPlain h).2, optBytes_optRead,
    optBytes_optRead, optBytes_optRead]
  simp only [State.optRead_eq_sync]
  rfl

/-- Settles O13: the bounds are those of BLAKE2s. -/
theorem initBlake2sMakesSlot : Obligations.InitBlake2sMakesSlot :=
  fun _ _ _ _ _ _ hc holo hohi hkey hsalt hpers hplain => initBlake2_of_plain hc holo hohi hkey hsalt hpers hplain

/-- Settles O14: the bounds are those of BLAKE2b. -/
theorem initBlake2bMakesSlot : Obligations.InitBlake2bMakesSlot :=
  fun _ _ _ _ _ _ hc holo hohi hkey hsalt hpers hplain => initBlake2_of_plain hc holo hohi hkey hsalt hpers hplain

/-! ## Worked compressions -/

/-- The last compression of BLAKE2s of the empty message (42 R207). -/
theorem blake2Compress_zeroBlock_last :
    blake2Compress .s (blake2ParamInit .s 32 0 none none) (Vector.replicate 64 0) 0 true =
      #v[0x307A2169, 0x94809079, 0xD02111E1, 0x7C4A3542, 0x48B6551F, 0x1EA5A12C, 0xFD0D251B, 0xF9EED01E] := by
  decide +kernel

/-- Settles O47: the model evaluates to each printed value; the serialization is that of the compression before it. -/
theorem blake2WorkedCompressions : Obligations.Blake2WorkedCompressions := by
  refine ⟨?parameters, blake2Compress_zeroBlock_last, ?serialized, ?notLast, ?abcS, ?twoBlocksS, ?emptyB, ?abcB, ?twoBlocksB⟩
  case parameters => decide
  case serialized =>
    rw [blake2Compress_zeroBlock_last]
    decide
  case notLast => decide +kernel
  case abcS => decide +kernel
  case twoBlocksS => decide +kernel
  case emptyB => decide +kernel
  case abcB => decide +kernel
  case twoBlocksB => decide +kernel

end Sys2Proof.Machine
end

section
/-!
PROOF. The BLAKE2 streaming driver (43_blake2_driver.md rules R220-R232): the loop of B2Update, the full block it defers, the last
block of B2Finish, and that two slots with the same content answer a command alike.
-/

namespace Sys2Proof.Machine

/-! ## One iteration of B2Update -/

/-- A buffer with room is left as it is. -/
theorem Blake2Ctx.flushFull_of_lt {v : Variant} {x : Blake2Ctx v} (h : x.pos < v.bb) : x.flushFull = x :=
  if_neg (Nat.ne_of_lt h)

/-- A full buffer is compressed, not as the last block (43 R220). -/
theorem Blake2Ctx.flushFull_of_full {v : Variant} {x : Blake2Ctx v} (h : x.pos = v.bb) :
    x.flushFull = { x with h := blake2Compress v x.h x.buf x.length false, pos := 0 } := if_pos h

/-- Before a byte is put into the buffer there is room for it. -/
theorem Blake2Ctx.flushFull_pos_lt {v : Variant} {x : Blake2Ctx v} (h : x.pos ≤ v.bb) : x.flushFull.pos < v.bb := by
  rcases Nat.lt_or_eq_of_le h with hlt | hfull
  · rwa [Blake2Ctx.flushFull_of_lt hlt]
  · rw [Blake2Ctx.flushFull_of_full hfull]
    exact v.bb_pos

/-- Non-empty input finds a full buffer compressed first. -/
theorem Blake2Ctx.update_flushFull {v : Variant} {x : Blake2Ctx v} (h : x.pos ≤ v.bb) {data : List Byte} (hne : data ≠ []) :
    x.flushFull.update data = x.update data := by
  obtain ⟨b, rest, rfl⟩ := List.exists_cons_of_ne_nil hne
  rw [Blake2Ctx.update_cons, Blake2Ctx.update_cons, Blake2Ctx.updateByte, Blake2Ctx.updateByte,
    Blake2Ctx.flushFull_of_lt (Blake2Ctx.flushFull_pos_lt h)]

/-- Bytes taken from the front of the input are read from the whole input. -/
theorem blockWith_take {v : Variant} (buf : Vector Byte v.bb) (p : Nat) {n : Nat} {data : List Byte} (hn : n ≤ data.length) :
    blockWith buf p (data.take n) =
      Vector.ofFn fun j => if p ≤ j.val ∧ j.val < p + n then data.getD (j.val - p) 0 else buf[j.val] := by
  rw [blockWith, List.length_take_of_le hn]
  refine congrArg Vector.ofFn (funext fun j => ite_congr rfl (fun hj => ?_) fun _ => rfl)
  rw [List.getD_eq_getElem?_getD, List.getD_eq_getElem?_getD, List.getElem?_take_of_lt (by omega)]

/-- Bytes from the front of the input that fit the buffer are buffered, and the update goes on with the rest (43 R220). -/
theorem Blake2Ctx.update_split {v : Variant} (x : Blake2Ctx v) {n : Nat} {data : List Byte} (hn : n ≤ data.length)
    (h : x.pos + n ≤ v.bb) :
    x.update data = (x.buffered (data.take n)).update (data.drop n) := by
  have hfits : x.pos + (data.take n).length ≤ v.bb := by rwa [List.length_take_of_le hn]
  rw [← Blake2Ctx.update_within _ _ hfits, ← Blake2Ctx.update_append, List.take_append_drop]

/-- Settles O44: `y` is the slot with a full buffer compressed; what is taken fits it, and the update splits behind that. -/
theorem blake2UpdateLoop : Obligations.Blake2UpdateLoop := by
  refine fun v x => ⟨rfl, fun data hne hpos => ?_⟩
  intro y n
  have hn : n ≤ data.length := Nat.min_le_right ..
  have hroom : y.pos < v.bb := Blake2Ctx.flushFull_pos_lt hpos
  have hfits : y.pos + n ≤ v.bb := by omega
  calc x.update data
    _ = y.update data := (Blake2Ctx.update_flushFull hpos hne).symm
    _ = (y.buffered (data.take n)).update (data.drop n) := y.update_split hn hfits
    _ = _ := by rw [Blake2Ctx.buffered, blockWith_take _ _ hn, List.length_take_of_le hn]

/-! ## The deferred block -/

/-- B2Update leaves at most a full buffer, as it found (43 R222). -/
theorem Blake2Ctx.update_pos_le {v : Variant} (data : List Byte) {x : Blake2Ctx v} (h : x.pos ≤ v.bb) :
    (x.update data).pos ≤ v.bb := by
  induction data generalizing x with
  | nil => exact h
  | cons b data ih => exact ih (Blake2Ctx.flushFull_pos_lt h)

/-- A byte put where there is room is the last buffered byte. -/
theorem Blake2Ctx.putByte_last {v : Variant} {x : Blake2Ctx v} (h : x.pos < v.bb) (b : Byte) :
    (x.putByte b).buf.toList[(x.putByte b).pos - 1]? = some b := by
  simp [Blake2Ctx.putByte, h]

/-- Settles O45: input that fits is buffered, a full buffer is flushed for one byte more, and the last byte of any input is put
where there is room. -/
theorem blake2DefersFullBlock : Obligations.Blake2DefersFullBlock := by
  refine fun v x => ⟨fun data h => ?fits, fun b h => ?full, fun data b h => ?last⟩
  case fits =>
    rw [Blake2Ctx.update_within data x h]
    exact ⟨rfl, rfl, rfl⟩
  case full =>
    have hupdate : x.update [b] = x.flushFull.putByte b := rfl
    rw [hupdate, Blake2Ctx.flushFull_of_full h]
    exact ⟨rfl, rfl, rfl⟩
  case last =>
    have hroom := Blake2Ctx.flushFull_pos_lt (Blake2Ctx.update_pos_le data h)
    have hupdate : x.update (data ++ [b]) = (x.update data).flushFull.putByte b := x.update_append data [b]
    rw [hupdate]
    exact ⟨Nat.succ_pos _, hroom, Blake2Ctx.putByte_last hroom b⟩

/-! ## The last block -/

/-- BUF[0..POS) and zeros up to BB (43 R228). -/
theorem Blake2Ctx.zeroTail_toList {v : Variant} {x : Blake2Ctx v} (h : x.pos ≤ v.bb) :
    x.zeroTail.toList = x.buf.toList.take x.pos ++ List.replicate (v.bb - x.pos) 0 := by
  refine List.ext_getElem (by simp [h]) fun j hj _ => ?_
  have hbuf : (x.buf.toList.take x.pos).length = x.pos := List.length_take_of_le (by simpa using h)
  rcases Nat.lt_or_ge j x.pos with hlt | hge
  · rw [List.getElem_append_left (hlt.trans_eq hbuf.symm)]
    simp [Blake2Ctx.zeroTail, hlt]
  · rw [List.getElem_append_right (hbuf.trans_le hge)]
    simp [Blake2Ctx.zeroTail, Nat.not_lt.2 hge]

/-- Settles O46: the block is the zero-filled buffer. -/
theorem blake2FinishCompressesLastBlock : Obligations.Blake2FinishCompressesLastBlock :=
  fun _ x h => ⟨x.zeroTail, Blake2Ctx.zeroTail_toList h, rfl⟩

/-! ## Slots with the same content -/

/-- Whichever slot holding `x` the command `f` is given, it answers alike: it stops and writes no slot, or its only trace of the
slot's number is where it writes the slot back (43 R232). -/
inductive State.AnswersAlike (s : State) (x : Ctx) (f : Byte → Out) : Prop
  | stops (o : Out) (hctx : ∀ t, o = .next t → t.ctx = s.ctx) (hf : ∀ c, s.Holds c x → f c = o)
  | writes (s' : State) (y : Ctx) (hctx : s'.ctx = s.ctx) (hf : ∀ c, s.Holds c x → f c = .next (s'.setSlot c y).advance)

section Rules

variable {s : State} {x : Ctx} {f : Byte → Out}

theorem State.AnswersAlike.check {ok : Bool} {e : EngineError} (h : s.AnswersAlike x f) :
    s.AnswersAlike x fun c => s.check ok e (f c) := by
  cases ok with
  | false => exact .stops (.next (s.raise e)) (fun t ht => by cases ht; rfl) fun _ _ => rfl
  | true => exact h

theorem State.AnswersAlike.occupied {f : Byte → Ctx → Out} (h : s.AnswersAlike x fun c => f c x) :
    s.AnswersAlike x fun c => s.occupied c (f c) := by
  cases h with
  | stops o hctx hf => exact .stops o hctx fun c hc => (State.occupied_of_some hc _).trans (hf c hc)
  | writes s' y hctx hf => exact .writes s' y hctx fun c hc => (State.occupied_of_some hc _).trans (hf c hc)

theorem State.AnswersAlike.live {f : Byte → Ctx → Out} (h : s.AnswersAlike x fun c => f c x) :
    s.AnswersAlike x fun c => s.live c (f c) := .occupied (.check h)

theorem State.AnswersAlike.memRead (k : Nat) (a : Word) (n : Nat) (y : List Byte → Ctx) :
    s.AnswersAlike x fun c => s.memRead k a n fun data s' => .next (s'.setSlot c (y data)).advance := by
  cases hb : s.cfg.barredRange a.toNat n with
  | none => exact .writes (s.engineRead a.toNat n) _ rfl fun c _ => State.memRead_of_open hb ..
  | some r => exact .stops (.refused r) (fun _ ht => nomatch ht) fun c _ => by rw [State.memRead, hb]

theorem State.AnswersAlike.memWrite (a : Word) (data : List Byte) (y : Ctx) :
    s.AnswersAlike x fun c => s.memWrite a data fun s' => .next (s'.setSlot c y).advance := by
  cases hb : s.cfg.barredRange a.toNat data.length with
  | none => exact .writes (s.engineStore a.toNat data) y rfl fun c _ => State.memWrite_of_open hb _
  | some r => exact .stops (.refused r) (fun _ ht => nomatch ht) fun c _ => by rw [State.memWrite, hb]

/-- Given one or the other of two slots that hold the same, such a command leaves that slot, memory and the error registers the
same, and the other slot alone. -/
theorem State.AnswersAlike.isolated (h : s.AnswersAlike x f) {src dst : Byte} (hne : src ≠ dst) (hsrc : s.Holds src x)
    (hdst : s.Holds dst x) {t u : State} (ht : f src = .next t) (hu : f dst = .next u) :
    t.slot src = u.slot dst ∧ t.mem = u.mem ∧ t.err = u.err ∧ t.errcode = u.errcode ∧ t.errcp = u.errcp ∧
      t.slot dst = some x ∧ u.slot src = some x := by
  cases h with
  | stops o hctx hf =>
    have ho := (hf src hsrc).symm.trans ht
    obtain rfl : t = u := by
      have htu := ho.symm.trans ((hf dst hdst).symm.trans hu)
      cases htu
      rfl
    have hslots : ∀ c, s.Holds c x → t.slot c = some x := fun c hc =>
      State.slot_of_holds ((congrArg (·[c.toNat]?) (hctx t ho)).trans hc)
    exact ⟨(hslots src hsrc).trans (hslots dst hdst).symm, rfl, rfl, rfl, rfl, hslots dst hdst, hslots src hsrc⟩
  | writes s' y hctx hf =>
    cases (hf src hsrc).symm.trans ht
    cases (hf dst hdst).symm.trans hu
    have hholds : ∀ c, s.Holds c x → s'.Holds c x := fun c hc => (congrArg (·[c.toNat]?) hctx).trans hc
    have hown : ∀ c, s.Holds c x → (s'.setSlot c y).advance.slot c = some y := fun c hc =>
      State.slot_of_holds (s'.setSlot_self c y (State.lt_nctx_of_some (hholds c hc)))
    have hother : ∀ c d, s.Holds d x → d ≠ c → (s'.setSlot c y).advance.slot d = some x := fun c d hd hdc =>
      State.slot_of_holds ((s'.setSlot_other c y d.toNat fun e => hdc (BitVec.eq_of_toNat_eq e)).trans (hholds d hd))
    exact ⟨(hown src hsrc).trans (hown dst hdst).symm, rfl, rfl, rfl, rfl, hother src dst hdst hne.symm,
      hother dst src hsrc hne⟩

end Rules

/-- Settles O42: each of the five commands is made of operations that answer alike for the two slots. -/
theorem cloneBehavesAsItsSource : Obligations.CloneBehavesAsItsSource := by
  intro s src dst x a n hne hsrc hdst op hop t u ht hu
  have halike : s.AnswersAlike x fun c => exec (op c) s := by
    simp only [List.mem_cons, List.not_mem_nil, or_false] at hop
    rcases hop with rfl | rfl | rfl | rfl | rfl
    · exact .live (.check (.check (.check (.memRead 1 a n.toNat x.absorb))))
    · exact .live (.check (.check (.memWrite a x.digest.1 x.digest.2)))
    · exact .live (.check (.check (.check (.memWrite a (x.digestInto n.toNat).1 (x.digestInto n.toNat).2))))
    · exact .live (.check (.check (.memWrite a (x.squeeze n.toNat).1 (x.squeeze n.toNat).2)))
    · exact .occupied (.writes s x.destroy rfl fun _ _ => rfl)
  exact halike.isolated hne hsrc hdst ht hu

end Sys2Proof.Machine
end

section
/-!
PROOF. The context commands on a live and on a destroyed slot (44_context_commands.md rules R240-R249): what DIGEST_INTO leaves
when it completes, and that a destroyed slot stops UPDATE, DIGEST, DIGEST_INTO, XOF and CLONE.
-/

namespace Sys2Proof.Machine

/-! ## DIGEST_INTO -/

theorem exec_digestInto_of_plain {s : State} {c : Byte} {addr len : Word} {x : Ctx} (hx : s.Holds c x)
    (hd : x.destroyed = false) (hf : x.finished = false) (hl : x.outlen ≤ len.toNat) (hp : s.Plain addr len.toNat) :
    exec (.digestInto c addr len) s =
      .next ((s.engineStore addr.toNat (x.digestInto len.toNat).1).setSlot c (x.digestInto len.toNat).2).advance := by
  simp only [exec, execDigestInto, State.live_of_some hx hd, hf, hl, hp.1, Bool.not_false, decide_true, State.check_true]
  exact State.memWrite_of_plain hp (Ctx.digestInto_length_le hl) _

/-- Settles O17: the command stores what `Ctx.digestInto` gives for the slot's kind, which fits the buffer. -/
theorem digestIntoFillsTheBuffer : Obligations.DigestIntoFillsTheBuffer := by
  refine ⟨fun s c addr len x hx hd hf hl hp => ?sponge, fun s c addr len v x hx hd hf hl hp => ?blake2⟩
  case sponge =>
    rw [exec_digestInto_of_plain hx hd hf hl hp, State.engineStore, Ctx.digestInto_length]
    rfl
  case blake2 =>
    rw [exec_digestInto_of_plain hx hd hf hl hp, State.engineStore, Ctx.digestInto_length]
    rfl

/-! ## Destroyed slots -/

/-- CLONE between two slots with different numbers below NCTX checks no more than that the source is live (44 R248). -/
theorem exec_clone_of_ne {s : State} {src dst : Byte} (hsrc : src.toNat < s.nctx) (hdst : dst.toNat < s.nctx)
    (hne : src ≠ dst) : exec (.clone src dst) s = s.live src fun x => .next (s.setSlot dst x).advance := by
  have hindex : (s.indexOK src && s.indexOK dst) = true := by simp [State.indexOK, hsrc, hdst]
  rw [exec, execClone, hindex, bne_iff_ne.2 hne, State.check_true, State.check_true]

/-- Settles O32: `Live(c)` is the first check of four of the commands, and of CLONE the first after those on its slot numbers. -/
theorem destroyedSlotIsRejected : Obligations.DestroyedSlotIsRejected := by
  intro s c dst addr len x hx hd
  refine ⟨?update, ?digest, ?digestInto, ?xof, fun hdst hne => ?clone⟩
  case update => exact State.live_of_destroyed hx hd _
  case digest => exact State.live_of_destroyed hx hd _
  case digestInto => exact State.live_of_destroyed hx hd _
  case xof => exact State.live_of_destroyed hx hd _
  case clone =>
    rw [exec_clone_of_ne (State.lt_nctx_of_some hx) hdst hne]
    exact State.live_of_destroyed hx hd _

end Sys2Proof.Machine
end

section
/-!
PROOF. START, the run and its end (45_control_commands.md rules R270-R278; 70_reset_and_hazards.md rule R343): a step runs the
command at CP, the host's three stores boot a command, and a run ends at HALT or an error and nowhere else.
-/

namespace Sys2Proof.Machine

/-! ## The step of a running engine -/

/-- Settles O6: the step is the engine's fetch, which runs the command it decodes. -/
theorem stepRunsDecodedCommand : Obligations.StepRunsDecodedCommand := by
  intro s i hb hp hplain hd
  rw [step_fetch hb hp]
  exact State.fetch_of_decode (s := { s with pending := s.pending.tail }) hplain.1 hplain.2 hd _

/-- Where the host has no turn and has stored nothing during the run, the fetch leaves no trace. -/
theorem step_eq_exec {s : State} {i : Instr} (hb : s.busy = true) (hp : s.pending = []) (hw : s.sync.hostWrote = [])
    (hplain : s.Plain s.cp 32) (hd : decode s.descBytes = .ok i) : step s = exec i s := by
  have hsync : s.sync.engineReads s.cp.toNat 32 = s.sync := Sync.engineReads_quiet (by simp [hw])
  have htail : s.pending.tail = s.pending := by rw [hp]; rfl
  rw [stepRunsDecodedCommand s i hb (.inl hp) hplain hd, hsync, htail]

/-! ## START -/

/-- A store to CTRL starts an idle engine when its bit 0 is set, and does nothing else (45 R270). -/
theorem State.hostStore_ctrl (s : State) (v : Word) :
    s.hostStore s.cfg.mmioBase (leBytes v) = .next (if v.getLsbD 0 && !s.busy then s.start else s) :=
  s.hostStore_register 0 v

/-- Settles O48: the store reaches CTRL, and `State.start` clears the error registers. -/
theorem startBeginsARun : Obligations.StartBeginsARun := by
  intro s v
  rw [State.hostStore_ctrl]
  refine ⟨fun hb hv => ?start, fun hb => ?busy, fun hv => ?clear⟩
  case start =>
    rw [hb, hv]
    exact ⟨s.start, rfl, rfl, rfl, rfl, rfl, rfl, rfl, rfl⟩
  case busy => rw [hb, Bool.not_true, Bool.and_false, if_neg Bool.false_ne_true]
  case clear => rw [hv, Bool.false_and, if_neg Bool.false_ne_true]

/-! ## Registers during a run -/

/-- Settles O52: by the invariant no error is recorded while BUSY = 1. -/
theorem runningEngineAsTheHostSeesIt : Obligations.RunningEngineAsTheHostSeesIt := by
  intro s hinv hb
  have herr : s.err = false := hinv.running hb
  obtain ⟨hcode, hecp⟩ := hinv.noError herr
  refine ⟨?_, hcode, hecp, s.cpSeen_cases⟩
  calc s.status
    _ = BitVec.ofNat 32 (s.busy.toNat + 2 * s.err.toNat) := s.status_eq
    _ = 1 := by rw [hb, herr]; rfl

/-! ## The boot sequence -/

/-- A turn of the host is taken off `pending`. -/
theorem step_of_pending {s : State} {t : HostTurn} {rest : List HostTurn} (h : s.pending = t :: rest) :
    step s = hostTurn t { s with pending := rest } := by
  rw [step, h]

/-- An aligned address is stored to CP as it is (10 R26). -/
theorem cpOf_of_aligned {a : Word} (h : a &&& 3 = 0) : cpOf a = a := by
  calc a &&& 0xFFFFFFFC
    _ = (a &&& 0xFFFFFFFC) ||| (a &&& 3) := by rw [h]; exact BitVec.or_zero.symm
    _ = a &&& (0xFFFFFFFC ||| 3) := BitVec.and_or_distrib_left.symm
    _ = a := BitVec.and_allOnes

/-- A store to CP while BUSY = 0 writes it (10 R26). -/
theorem State.hostStore_cp {s : State} (hb : s.busy = false) {a : Word} (ha : a &&& 3 = 0) :
    s.hostStore (s.cfg.mmioBase + 8) (leBytes a) = .next { s with cp := a } := by
  have hstore := (registerStoresWriteOnlyCp s 2 a (by decide)).1 rfl hb
  rwa [show a &&& 0xFFFFFFFC = a from cpOf_of_aligned ha] at hstore

theorem step_store_plain {s : State} {a : Word} {data : List Byte} {rest : List HostTurn}
    (h : s.pending = .store a.toNat data :: rest) (hplain : s.Plain a data.length) :
    step s = .next { s.hostPut a.toNat data with pending := rest } :=
  (step_of_pending h).trans (State.hostStore_plain (s := { s with pending := rest }) hplain)

theorem step_store_cp {s : State} {a : Word} {rest : List HostTurn}
    (h : s.pending = .store (s.cfg.mmioBase + 8) (leBytes a) :: rest) (hb : s.busy = false) (ha : a &&& 3 = 0) :
    step s = .next { s with cp := a, pending := rest } :=
  (step_of_pending h).trans (State.hostStore_cp (s := { s with pending := rest }) hb ha)

theorem step_store_ctrl {s : State} {rest : List HostTurn}
    (h : s.pending = .store s.cfg.mmioBase (leBytes (1 : Word)) :: rest) (hb : s.busy = false) :
    step s = .next (State.start { s with pending := rest }) := by
  have hstart : ((1 : Word).getLsbD 0 && !s.busy) = true := by rw [hb]; rfl
  exact (step_of_pending h).trans ((State.hostStore_ctrl { s with pending := rest } 1).trans (congrArg _ (if_pos hstart)))

/-- The run START begins after the idle engine's host stored a descriptor at CP reads that descriptor (20 R73(a)). -/
theorem State.start_descBytes {s t : State} {a : Word} {bs : DescBytes} (hb : s.busy = false) (hcp : t.cp = a)
    (hmem : t.mem = (s.hostPut a.toNat bs.toList).mem) (hsync : t.sync = (s.hostPut a.toNat bs.toList).sync) :
    t.start.descBytes = bs := by
  have hraced : ∀ j < bs.toList.length, a.toNat + j ∉ t.sync.raced := fun j hj => by
    rw [hsync, State.hostPut_sync, hb, Sync.hostWrites_idle_raced]
    omega
  have hread := State.engineBytes_start hmem hraced 0
  rw [bs.length_toList] at hread
  refine Vector.toList_inj.1 ?_
  rw [State.descBytes_toList, State.start_cp, hcp, hread]

/-- Settles O9: the host's three stores complete in turn, and the run START begins reads the descriptor stored. Of the encoding
only its decoding matters, so the bytes are made arbitrary. -/
theorem storedCommandRuns : Obligations.StoredCommandRuns := by
  intro s i a hw hb ha hplain hp
  have hd : decode (encodeBytes i) = .ok i := encodeThenDecodeGivesCommand i hw
  generalize encodeBytes i = bs at hp hd
  have hstored : s.Plain a bs.toList.length := by rwa [bs.length_toList]
  refine ⟨_, _, _, step_store_plain hp hstored, step_store_cp rfl hb ha, step_store_ctrl rfl hb,
    rfl, rfl, rfl, rfl, rfl, step_eq_exec rfl rfl rfl hplain ?_⟩
  rwa [State.start_descBytes hb rfl rfl rfl]

/-! ## The end of a run -/

/-- A command that completes and leaves BUSY = 0 is HALT (45 R273). -/
theorem Completed.eq_halt {i : Instr} {s t : State} (h : Completed i s t) (hb : s.busy = true) (ht : t.busy = false) :
    i = .halt := by
  have hbusy : t.busy = (s.busy && decide (i ≠ .halt)) := congrArg (·.1.1) h.frame
  simpa [hb, ht] using hbusy

/-- A turn that ends the run executes HALT or raises an error (45 R277). -/
theorem engineTurn_ends_run {s t : State} (hb : s.busy = true) (h : engineTurn s = .next t) (ht : t.busy = false) :
    decode s.descBytes = .ok .halt ∨ t.err = true := by
  rw [engineTurn, if_pos hb] at h
  rcases State.fetch_eq_next h with ⟨i, hd, h⟩ | ⟨e, rfl⟩ | ⟨e, rfl⟩
  · rcases exec_cases h with h | ⟨e, rfl⟩
    · exact .inl (h.eq_halt hb ht ▸ hd)
    · exact .inr rfl
  · exact .inr rfl
  · exact .inr rfl

/-! ## A run without an end -/

/-- Over a memory of NOPs every aligned descriptor is one. -/
theorem State.NopsEverywhere.decode_descBytes {s : State} (h : s.NopsEverywhere) (hcp : s.cp.toNat % 32 = 0) :
    decode s.descBytes = .ok .nop := by
  obtain ⟨hw, hr⟩ := h.unraced
  have hread : s.descBytes = Vector.ofFn fun j => s.mem.read (s.cp.toNat + j.val) :=
    congrArg Vector.ofFn (funext fun j => State.engineByte_quiet 0 (by simp [hw]) (by simp [hr]))
  rw [hread]
  exact h.nop s.cp hcp

/-- NOP changes neither the memory nor what the host may race for. -/
theorem State.NopsEverywhere.advance {s : State} (h : s.NopsEverywhere) : s.advance.NopsEverywhere :=
  ⟨h.plain, h.nop, h.unraced⟩

/-- CP moves on in steps of one descriptor, also past the top of the address space (10 R31). -/
theorem advance_cp_mod_32 {s : State} (h : s.cp.toNat % 32 = 0) : s.advance.cp.toNat % 32 = 0 := by
  rw [State.advance_cp, BitVec.toNat_add, show (32 : Word).toNat = 32 from rfl]
  omega

/-- Over a memory of NOPs a running engine runs on (45 R277). -/
theorem runFor_nopsEverywhere (n : Nat) {s : State} (hb : s.busy = true) (hp : s.pending = []) (hcp : s.cp.toNat % 32 = 0)
    (h : s.NopsEverywhere) :
    ∃ t, runFor n s = .next t ∧ t.busy = true ∧ t.err = s.err ∧ t.cp = s.cp + BitVec.ofNat 32 (32 * n) := by
  induction n generalizing s with
  | zero => exact ⟨s, rfl, hb, rfl, (BitVec.add_zero s.cp).symm⟩
  | succ n ih =>
    have hstep : step s = .next s.advance :=
      step_eq_exec hb hp h.unraced.1 (h.plain s.cp hcp) (h.decode_descBytes hcp)
    obtain ⟨t, hrun, hbusy, herr, htcp⟩ := ih (s := s.advance) hb hp (advance_cp_mod_32 hcp) h.advance
    refine ⟨t, by rw [runFor, hstep]; exact hrun, hbusy, herr, ?_⟩
    calc t.cp
      _ = s.cp + 32 + BitVec.ofNat 32 (32 * n) := htcp
      _ = s.cp + BitVec.ofNat 32 (32 + 32 * n) := by rw [BitVec.ofNat_add, BitVec.add_assoc]; rfl
      _ = s.cp + BitVec.ofNat 32 (32 * (n + 1)) := by rw [Nat.mul_succ, Nat.add_comm]

/-- Settles O10: a turn that completes another command than HALT keeps BUSY = 1, and over NOPs every turn does. -/
theorem runEndsOnlyAtHaltOrError : Obligations.RunEndsOnlyAtHaltOrError :=
  ⟨fun _ _ => engineTurn_ends_run, fun _ hb hp hcp h n => runFor_nopsEverywhere n hb hp hcp h⟩

end Sys2Proof.Machine
end

section
/-!
PROOF. Errors and the idle engine (60_exceptions.md rules R300, R301, R310, R325): the table of the ERRCODE values, the one form
an error entry has, and the turn that changes nothing.
-/

namespace Sys2Proof.Machine

/-! ## Error codes -/

/-- ERRCODE is CLASS in its low byte and DETAIL in the next (10 R28). -/
theorem EngineError.code_toNat (e : EngineError) : e.code.toNat = e.cls.toNat + e.detail.toNat * 2 ^ 8 := by
  have hzero : (0 : BitVec 16).toNat = 0 := rfl
  simp only [EngineError.code, append_toNat, hzero]
  omega

/-- No detail of any class is missing from the table (60 R301). -/
theorem EngineError.mem_all (e : EngineError) : e ∈ EngineError.all := by
  cases e with
  | configuration d => cases d <;> decide
  | lifecycle d => cases d <;> decide
  | buffer d => cases d; decide
  | illegalCommand d => cases d <;> decide
  | badContext d => cases d <;> decide
  | memoryFault d => cases d <;> decide
  | lengthOverflow d => cases d; decide

/-- Settles O26: the list evaluates to the column, and it has every error. -/
theorem errorCodesMatchTheTable : Obligations.ErrorCodesMatchTheTable :=
  ⟨by decide, EngineError.mem_all⟩

/-! ## Error entry -/

/-- A completed command leaves ERR as it was (60 R310). -/
theorem Completed.err {i : Instr} {s t : State} (h : Completed i s t) : t.err = s.err :=
  congrArg (·.1.2.1) h.frame

/-- A turn that sets ERR is one error entry; before it the turn has at most noted the fetch (60 R310, 20 R73). -/
theorem engineTurn_raises {s t : State} (herr : s.err = false) (h : engineTurn s = .next t) (ht : t.err = true) :
    ∃ e, t = s.raise e ∨ t = (s.engineRead s.cp.toNat 32).raise e := by
  unfold engineTurn at h
  split at h
  · rcases State.fetch_eq_next h with ⟨i, -, h⟩ | ⟨e, h⟩ | ⟨e, h⟩
    · rcases exec_cases h with hc | ⟨e, h⟩
      · have hkept : t.err = false := hc.err.trans herr
        simp [hkept] at ht
      · exact ⟨e, .inr h⟩
    · exact ⟨e, .inl h⟩
    · exact ⟨e, .inr h⟩
  · cases h
    simp [herr] at ht

/-- Settles O25: what the turn has noted before the error entry is none of what the statement speaks of. -/
theorem errorEntryIsPrecise : Obligations.ErrorEntryIsPrecise := by
  intro s t _ herr h ht
  obtain ⟨e, rfl | rfl⟩ := engineTurn_raises herr h ht
  · exact ⟨⟨e, e.code_toNat⟩, rfl, rfl, rfl, rfl, rfl⟩
  · exact ⟨⟨e, e.code_toNat⟩, rfl, rfl, rfl, rfl, rfl⟩

/-! ## The idle engine -/

/-- The turn of an idle engine changes nothing (60 R325, 70 R342). -/
theorem engineTurn_idle {s : State} (hb : s.busy = false) : engineTurn s = .next s := by
  simp [engineTurn, hb]

/-- Settles O8: in either case the step is the idle engine's turn, in the second one taken off `pending`. -/
theorem idleEngineKeepsState : Obligations.IdleEngineKeepsState := by
  intro s hb
  refine ⟨fun hp => ?silent, fun rest hp => ?turn⟩
  case silent => rw [step, hp]; exact engineTurn_idle hb
  case turn => rw [step_of_pending hp]; exact engineTurn_idle hb

end Sys2Proof.Machine
end

section
/-!
PROOF. The slots a command does not name (70_reset_and_hazards.md rule R350).
-/

namespace Sys2Proof.Machine

/-- Settles O29: a completed command writes at most slot `changedSlot`, and an error none. -/
theorem commandsChangeOnlyNamedSlots : Obligations.CommandsChangeOnlyNamedSlots := by
  intro i s t d h hd
  rcases exec_cases h with h | ⟨e, rfl⟩
  · rcases h.ctx_cases with ht | ⟨c, y, hc, ht, -⟩
    · rw [ht]
    · rw [ht, List.getElem?_set_ne (hd c hc)]
  · rfl

end Sys2Proof.Machine
end

section
/-!
PROOF. Reset (70_reset_and_hazards.md rules R340, R341): the event at any time, each byte of memory old or new when a command is in
progress, and the state after reset.
-/

namespace Sys2Proof.Machine

/-! ## What the reset event leaves -/

/-- Whatever reset interrupts, it leaves the state after reset of this platform, memory and the outside world's fields apart
(70 R340). -/
theorem State.resetEvent_eq (s : State) (command : Out) :
    ∃ (m : Memory) (y : Sync), s.resetEvent command =
      { State.resetWith s.nctx s.cfg with
        mem := m, sync := y, pending := s.pending, hostData := s.hostData, draws := s.draws + 1 } := by
  unfold State.resetEvent
  split
  · split
    · exact ⟨_, _, rfl⟩
    · exact ⟨s.mem, s.sync, rfl⟩
  · exact ⟨s.mem, s.sync, rfl⟩

/-- Reset of an idle engine leaves memory alone (70 R340). -/
theorem State.resetEvent_mem_of_idle {s : State} (hb : s.busy = false) (command : Out) : (s.resetEvent command).mem = s.mem := by
  unfold State.resetEvent
  rw [if_neg (by simp [hb])]

/-- Reset during a command that would have come to `t` merges what memory holds with what `t` holds (70 R341). -/
theorem State.resetEvent_mem_of_next {s : State} (hb : s.busy = true) (t : State) :
    (s.resetEvent (.next t)).mem = Memory.blend s.draws s.mem t.mem := by
  unfold State.resetEvent
  rw [if_pos hb]

/-- Reset during a command that would not have completed leaves memory alone (70 R341, log 10). -/
theorem State.resetEvent_mem_of_stopped (s : State) {command : Out} (hc : ∀ t, command ≠ .next t) :
    (s.resetEvent command).mem = s.mem := by
  unfold State.resetEvent
  split
  · cases command with
    | next t => exact absurd rfl (hc t)
    | fault => rfl
    | refused => rfl
  · rfl

/-- Every byte of the merge is the old memory's or the new one's (70 R341). -/
theorem Memory.read_blend (draw : Nat) (old new : Memory) (a : Nat) :
    (Memory.blend draw old new).read a = old.read a ∨ (Memory.blend draw old new).read a = new.read a := by
  unfold Memory.blend
  refine List.foldlRecOn (motive := fun m : Memory => m.read a = old.read a ∨ m.read a = new.read a) _ _ (.inl rfl)
    fun m hm k _ => ?_
  split
  · by_cases hk : a = k
    · rw [hk]
      exact .inr (m.read_write_self k _)
    · rwa [m.read_write_other _ hk]
  · exact hm

/-! ## The reset turn -/

/-- A reset turn interrupts the command the engine's turn would have executed. -/
theorem step_reset {s : State} {rest : List HostTurn} (h : s.pending = .reset :: rest) :
    step s = .next (State.resetEvent { s with pending := rest } (engineTurn { s with pending := rest })) :=
  step_of_pending h

/-- Settles O55: the step is the reset event, whose memory is the merge of old and new, or the old one. -/
theorem resetDuringRunKeepsOldOrNewBytes : Obligations.ResetDuringRunKeepsOldOrNewBytes := by
  intro s rest hp hb
  refine ⟨_, step_reset hp, fun t ht a => ?completes, fun hstop => ?stops⟩
  case completes =>
    rw [ht, State.resetEvent_mem_of_next (s := { s with pending := rest }) hb]
    exact Memory.read_blend s.draws s.mem t.mem a
  case stops => exact State.resetEvent_mem_of_stopped _ hstop

/-- Settles O54: the fields are those of `State.resetWith`, and the number of slots, which CAPS reads, is kept. -/
theorem resetClearsTheEngine : Obligations.ResetClearsTheEngine := by
  intro s rest hp
  have hidle := State.resetEvent_mem_of_idle (s := { s with pending := rest }) (command := engineTurn { s with pending := rest })
  obtain ⟨m, y, ht⟩ := State.resetEvent_eq { s with pending := rest } (engineTurn { s with pending := rest })
  rw [ht] at hidle
  refine ⟨_, (step_reset hp).trans (congrArg _ ht), rfl, rfl, rfl, rfl, rfl, ?caps, rfl, rfl, rfl, fun k hk => ?zero, hidle⟩
  case caps => simp [State.caps, State.resetWith, State.nctx]
  case zero => exact State.readRegister_zero _ (hk.imp_left Fin.ext)

/-! ## The state after reset -/

/-- Settles O53: each field is what `State.resetWith` gives it, with four slots. -/
theorem resetStateValues : Obligations.ResetStateValues :=
  ⟨rfl, rfl, rfl, rfl, rfl, rfl, rfl, rfl⟩

/-- Settles O59: four slots are a legal number, and nothing is listed in memory. -/
theorem resetMeetsInvariant : Obligations.ResetMeetsInvariant :=
  State.resetWith_inv (n := Config.vectorsNctx) (by decide) Config.vectors State.reset_mem_wf rfl

end Sys2Proof.Machine
end
